-- ==== Sys2Proof/Word.lean ====
section
/-! DEFINITION. The words of the block: their widths (00_scope R7, R9, R12). Every value is unsigned. -/

set_option autoImplicit false

namespace Sys2Proof

/-- A register, a count, a weight, a command word: 32 bits (`REG_WIDTH`, `COUNT_WIDTH`, R7). -/
abbrev Word := BitVec 32

/-- One byte of a stream, a literal symbol: `BYTE_WIDTH` bits (R7). -/
abbrev Byte := BitVec 8

/-- A symbol field: `SYM_WIDTH` bits (R7, R107). Symbols are 0 to 256. -/
abbrev Sym := BitVec 9

/-- A node-store index: 10 bits (R12, R60). -/
abbrev NodeIx := BitVec 10

/-- A 4-bit field of STATUS or of the command word: OP, LAST_OP, ERR_STEP, ERRCODE (R24, R100). -/
abbrev Nibble := BitVec 4

end Sys2Proof
end

