-- ==== Sys2Proof/Syntax.lean ====
section
/-! DEFINITION. The eleven commands (30_encoding R101): one constructor per row of spec/opcode_table.json. No command has an operand (R100). -/

set_option autoImplicit false

namespace Sys2Proof

inductive Instr where
  | nop          -- R135
  | clear        -- R136
  | count        -- R150
  | build        -- R152
  | gencode      -- R158
  | writeHeader  -- R160
  | encode       -- R163
  | compress     -- R167
  | readHeader   -- R200
  | decodeBody   -- R204
  | decompress   -- R207
  deriving DecidableEq, Repr

end Sys2Proof
end

