-- ==== Sys2Proof/WellFormed.lean ====
section
/-! DEFINITION. Well-formedness of command words, by their two fields, and of commands (30_encoding R100 to R102). -/

set_option autoImplicit false

namespace Sys2Proof

/-- The two fields of the one command format `CMD` (R100). -/
structure CmdFields where
  op  : Nibble       -- bits [3:0]
  rsv : BitVec 28    -- bits [31:4]
  deriving DecidableEq, Repr

/-- RSV must be 0 (R100). -/
def CmdFields.rsvOk (f : CmdFields) : Bool := f.rsv == 0

/-- OP is not one of the reserved 0xB to 0xF (R102). -/
def CmdFields.opOk (f : CmdFields) : Bool := f.op.toNat < 0xB

/-- A legal command word: neither condition of R102 holds. -/
def CmdFields.wf (f : CmdFields) : Bool := f.rsvOk && f.opOk

/-- No command carries an operand (R100), so there is nothing to check in one. -/
def Instr.wf : Instr → Bool
  | .nop         => true
  | .clear       => true
  | .count       => true
  | .build       => true
  | .gencode     => true
  | .writeHeader => true
  | .encode      => true
  | .compress    => true
  | .readHeader  => true
  | .decodeBody  => true
  | .decompress  => true

end Sys2Proof
end

