-- ==== Sys2Proof/Decode.lean ====
section
/-! DEFINITION. The decoder of command words, total (30_encoding R100 to R103), and the encoder. -/

set_option autoImplicit false

namespace Sys2Proof

/-- Field OP, bits [3:0] of a command word (R100). -/
def opField (w : Word) : Nibble := w.extractLsb' 0 4

/-- Field RSV, bits [31:4] of a command word (R100). -/
def rsvField (w : Word) : BitVec 28 := w.extractLsb' 4 28

/-- The fields of a command word. -/
def cmdFields (w : Word) : CmdFields := { op := opField w, rsv := rsvField w }

/-- Why a command word is illegal (R102). -/
inductive Reject where
  | reservedBits (rsv : BitVec 28)   -- RSV is not 0
  | reservedOp (op : Nibble)         -- OP is in 0xB to 0xF
  deriving DecidableEq, Repr

/-- The command of an opcode, none for the reserved ones (R101, R102). -/
def instrOfOp (op : Nibble) : Option Instr :=
  match op.toNat with
  | 0x0 => some .nop
  | 0x1 => some .clear
  | 0x2 => some .count
  | 0x3 => some .build
  | 0x4 => some .gencode
  | 0x5 => some .writeHeader
  | 0x6 => some .encode
  | 0x7 => some .compress
  | 0x8 => some .readHeader
  | 0x9 => some .decodeBody
  | 0xA => some .decompress
  | _   => none

/-- What a command word means, or by name why it means nothing (R102, R103). -/
def decodeWord (w : Word) : Except Reject Instr :=
  if rsvField w = 0 then
    match instrOfOp (opField w) with
    | some i => .ok i
    | none   => .error (.reservedOp (opField w))
  else .error (.reservedBits (rsvField w))

/-- The command word of a command: the table of R101. -/
def encode : Instr → Word
  | .nop         => 0x00000000#32
  | .clear       => 0x00000001#32
  | .count       => 0x00000002#32
  | .build       => 0x00000003#32
  | .gencode     => 0x00000004#32
  | .writeHeader => 0x00000005#32
  | .encode      => 0x00000006#32
  | .compress    => 0x00000007#32
  | .readHeader  => 0x00000008#32
  | .decodeBody  => 0x00000009#32
  | .decompress  => 0x0000000A#32

/-- The opcode of a command: the OP field of its word. It is what LAST_OP and ERR_STEP name a command by (R30, R31). -/
def opcode (i : Instr) : Nibble := opField (encode i)

/-- The word an opcode-table row gives: its `nbits` bits, every bit above them 0. A command word is 32 bits (R100). -/
def tableWord (nbits w : Nat) : Word := BitVec.ofNat 32 (w % 2 ^ nbits)

/-- The command the decoder reads from an instruction of the opcode table whose bits are `w`. -/
def decodeTableWord (nbits w : Nat) : Option Instr :=
  match decodeWord (tableWord nbits w) with
  | .ok i    => some i
  | .error _ => none

end Sys2Proof
end

