-- ==== Sys2Proof/Config.lean ====
section
/-! DEFINITION. What is fixed for a machine: the parameters of 00_scope R7, and the free values, which the spec leaves open. -/

set_option autoImplicit false

namespace Sys2Proof

namespace Config

/-- `ALPHABET_SIZE`: symbols 0 to 256 (R7). -/
def alphabetSize : Nat := 257

/-- `PSEUDO_EOF`, the sentinel symbol (R7). -/
def pseudoEof : Nat := 256

/-- `NODE_CAP` = 2·257 − 1, the node store's capacity (R7, R8). -/
def nodeCap : Nat := 513

/-- `MAX_CODE_LEN`, also the greatest depth of a tree (R7, R8, R154). -/
def maxCodeLen : Nat := 256

/-- `COUNT_MAX` = 2^32 − 2, the most bytes COUNT accepts (R7). -/
def countMax : Word := 0xFFFFFFFE#32

/-- `HUFF_TAG`, OPEN (R7, R105): no source gives a value, so nothing can be proved of this one. Log 1. -/
opaque huffTag : Word

/-- `BASE`, OPEN (R7, R83): where the platform places the register window. Log 1. -/
opaque base : Nat

/-- FREE VALUE: how far a read that returned `NO_DATA` moved the IN position; R74 bounds it. Log 4. -/
opaque noDataAdvance : Nat → Nat

/-- FREE VALUE: how many bits of a command cut off by reset reached OUT; R272 bounds it. Log 5. -/
opaque resetOutCut : Nat → Nat

/-- FREE VALUE: where a command cut off by reset left the IN position; R272 bounds it. Log 5. -/
opaque resetInPos : Nat → Nat

end Config

/-- The two OPEN parameters of R7, "which a model takes as arguments": State carries them, and no step changes them. -/
structure Params where
  huffTag : Word
  base    : Nat
  deriving DecidableEq, Repr

end Sys2Proof
end

