-- ==== Sys2Proof/Machine/State.lean ====
section
/-! DEFINITION. The state of the block and of its host (10_state R20, 00_scope R14), plain data, and the state after reset
(70_reset R271). -/

set_option autoImplicit false

namespace Sys2Proof.Machine

/-- A node of the node store (R12, R60): a leaf carries a symbol and a weight, an internal node a weight and two children. -/
inductive Node where
  | leaf (sym : Sym) (weight : Word)
  | internal (weight : Word) (left right : NodeIx)
  deriving DecidableEq, Repr

/-- The weight of a node, leaf or internal (R13). -/
def Node.weight : Node → Word
  | .leaf _ w       => w
  | .internal w _ _ => w

/-- An entry of the code table: the code is the `len` low bits of `val`, most significant first (R10, R61). -/
structure CodeEntry where
  valid : Bool
  len   : BitVec 9
  val   : BitVec 256
  deriving DecidableEq, Repr

/-- The errors a command can raise (60_exceptions R230). Each is an effect of the machine, never a stop of it. -/
inductive Err where
  | malformedHeader
  | truncatedStream
  | badSymbol
  | treeOverflow
  | lengthOverflow
  | noCode
  | sourceMismatch
  | illegalCmd
  | sequenceErr
  deriving DecidableEq, Repr

/-- The registers of the map of R22, each at its offset. -/
inductive Reg where
  | cmd | status | errInfo | irqEn | tag | inCount | encCount | decCount | outBits | hdrBits | root | nodeCount | idx
  | freqData | codeInfo | codeData | nodeInfo | nodeWeight | nodeLink
  deriving DecidableEq, Repr

/-- What the host can do (30_encoding R113, 10_state R64, R65). An address is the access's offset from BASE (20_memory R80). -/
inductive HostInstr where
  | wr (addr width : Nat) (v : Word)       -- MemWrite(addr, width, v)
  | rd (addr width : Nat)                  -- MemRead(addr, width), the value goes to `reads`
  | poll (addr : Nat) (mask value : Word)  -- read until (read AND mask) = value
  | setIn (bytes : List Byte) (pos : Nat)  -- replace IN; `IN <- bytes` is position 0
  | seekIn (pos : Nat)                     -- reposition IN
  | setOut (bits : List Bool)              -- replace OUT; `OUT <- empty` is []
  deriving DecidableEq, Repr

/-- Who makes a step: the host, the block's sequencer (R14), or the platform asserting `rst` (R270). -/
inductive Agent where
  | host
  | block
  | reset
  deriving DecidableEq, Repr

/-- The whole state. BUSY is `pending` being present (R62) and `irq` is `ie` and `done` (R66): both are views, below. -/
structure State where
  -- the parameters of R7: arguments of the model, never changed by a step (log 1)
  params    : Params
  -- PENDING (R62)
  pending   : Option Word
  -- STATUS (R24 to R36)
  done      : Bool
  err       : Bool
  ign       : Bool
  errCode   : Nibble
  lastOp    : Nibble
  errStep   : Nibble
  freqV     : Bool
  treeV     : Bool
  codeV     : Bool
  hdrV      : Bool
  treeSrc   : Bool
  -- ERRINFO (R38) and IRQ_EN.IE (R39)
  errInfo   : Word
  ie        : Bool
  -- the count registers (R41 to R45)
  inCount   : Word
  encCount  : Word
  decCount  : Word
  outBits   : Word
  hdrBits   : Word
  -- IDX (R48)
  index     : BitVec 10
  wsel      : BitVec 3
  -- the internal memories (R59 to R61): (index, entry) pairs, strictly rising, none equal to the unlisted entry
  freq      : List (Nat × Word)
  nodes     : List (Nat × Node)
  nodeCount : BitVec 10
  root      : NodeIx
  codes     : List (Nat × CodeEntry)
  -- the IN port (R64) and the OUT port (R65), the host's
  inBytes   : List Byte
  inPos     : Nat
  out       : List Bool
  -- the model's own: the host's instructions to come, what its reads returned (newest first; log 7), who moves (log 6),
  -- and the counter of the free values (log 4)
  host      : List HostInstr
  reads     : List Word
  schedule  : List Agent
  draws     : Nat
  deriving DecidableEq, Repr

/-- STATUS.BUSY: `PENDING` "is none exactly when BUSY = 0" (R25, R62). -/
def State.busy (s : State) : Bool := s.pending.isSome

/-- The interrupt output: `irq = IRQ_EN.IE AND STATUS.DONE` (R66). -/
def State.irq (s : State) : Bool := s.ie && s.done

/-- The state after reset (R271). The contents of FREQ, NODE and CODE are the model's choice (log 2), and so are the host-owned
streams (log 3) and the model's own fields (logs 4, 6, 7). -/
def State.reset : State where
  params    := { huffTag := Config.huffTag, base := Config.base }
  pending   := none
  done      := false
  err       := false
  ign       := false
  errCode   := 0
  lastOp    := 0
  errStep   := 0
  freqV     := false
  treeV     := false
  codeV     := false
  hdrV      := false
  treeSrc   := false
  errInfo   := 0
  ie        := false
  inCount   := 0
  encCount  := 0
  decCount  := 0
  outBits   := 0
  hdrBits   := 0
  index     := 0
  wsel      := 0
  freq      := []
  nodes     := []
  nodeCount := 0
  root      := 0
  codes     := []
  inBytes   := []
  inPos     := 0
  out       := []
  host      := []
  reads     := []
  schedule  := []
  draws     := 0

/-- Why the machine stops with a fault. Neither can happen in a state that meets the invariant of Safety.lean (log 9). -/
inductive Fault where
  /-- Raised by GENCODE, WRITE_HEADER and DECODE_BODY when the node store holds no tree at the node they visit: an index that is not
  allocated, a path longer than `MAX_CODE_LEN`, a symbol above 256. SAFE: the rules give such a store no meaning and no run builds one. -/
  | brokenTree
  /-- Raised by BUILD when no symbol has a nonzero count. SAFE: "L = 0 cannot occur while FREQ_V = 1" (R152). -/
  | noLeaf
  deriving DecidableEq, Repr

/-- Why the model gives a step no meaning. -/
inductive Refusal where
  /-- Raised by an arm of `exec` whose instruction has no meaning yet: none is left. SAFE. -/
  | notModelled (mnemonic : String)
  /-- Raised by a host move of IN or OUT while BUSY = 1: "the model has no such host step" (93 I4, R92, R278). SAFE. -/
  | streamMovedWhileBusy
  /-- Raised by a host move of the IN position past `8·|B|`, which R64 excludes. SAFE. -/
  | positionOutsideStream
  deriving DecidableEq, Repr

/-- How a component of a command ends (40_control R131, R132): done, with an answer `a`; with an error raised, its ERRINFO and the
opcode of the component that raised it; or stopped on a store no run builds. -/
inductive Res (α : Type) where
  | ok (a : α) (s : State)
  | raised (e : Err) (info : Word) (step : Nibble) (s : State)
  | stuck (f : Fault)
  deriving DecidableEq, Repr

end Sys2Proof.Machine
end

