-- ==== Sys2Proof/Machine/Bits.lean ====
section
/-! DEFINITION. Bit strings (00_scope R9, R10), the bit numbering of the streams (20_memory R71, R72, R76), and a memory as a list
of (index, entry) pairs. -/

set_option autoImplicit false

namespace Sys2Proof.Machine

/-- `bin_n(v)`: the n-bit string of `v`, most significant bit first (R10). -/
def bin (n : Nat) (v : BitVec n) : List Bool := (List.range n).map v.getMsbD

/-- The number whose bits are `bs`, most significant first, continuing from `v`: `v <- 2·v + bit` for each bit (R72, R74). -/
def ofBits (v : Nat) (bs : List Bool) : Nat := bs.foldl (fun v b => 2 * v + b.toNat) v

/-- `inbit(q)`: the first bit of a byte is its bit 7 (R71). -/
def inBit (bytes : List Byte) (q : Nat) : Bool := (bytes.getD (q / 8) 0).getLsbD (7 - q % 8)

/-- `outbyte(j)`: byte `j` of OUT, as the host sees it (R76). -/
def outByte (bits : List Bool) (j : Nat) : Byte := BitVec.ofNat 8 (ofBits 0 ((bits.drop (8 * j)).take 8))

/-- The whole bytes of OUT, as the host sees them; a final partial byte is not visible (R76). -/
def outBytes (bits : List Bool) : List Byte := (List.range (bits.length / 8)).map (outByte bits)

/-- The entry at index `i` of a memory whose unlisted entries read as `d`. -/
def memGet {α : Type} (d : α) (m : List (Nat × α)) (i : Nat) : α := (m.lookup i).getD d

/-- Write `v` at index `i`. Writing `d`, what an unlisted index reads as, unlists the index: the form stays canonical. -/
def memSet {α : Type} [DecidableEq α] (d : α) (m : List (Nat × α)) (i : Nat) (v : α) : List (Nat × α) :=
  m.filter (fun c => c.1 < i) ++ (if v = d then [] else [(i, v)]) ++ m.filter (fun c => i < c.1)

/-- The canonical form of a memory of `n` entries: indices strictly rising and below `n`, no entry equal to `d`. -/
def memWf {α : Type} [DecidableEq α] (d : α) (n : Nat) (m : List (Nat × α)) : Bool :=
  decide (m.Pairwise (fun a b => a.1 < b.1)) && m.all (fun c => c.1 < n && c.2 ≠ d)

end Sys2Proof.Machine
end

