-- ==== Sys2Proof/Machine/Flags.lean ====
section
/-! DEFINITION. STATUS: its word (10_state R24), its valid flags and what each event does to them (R32 to R36), the error codes
(60_exceptions R230). -/

set_option autoImplicit false

namespace Sys2Proof.Machine

/-- ERRCODE of an error (R230). -/
def Err.code : Err → Nibble
  | .malformedHeader => 1
  | .truncatedStream => 2
  | .badSymbol       => 3
  | .treeOverflow    => 4
  | .lengthOverflow  => 5
  | .noCode          => 6
  | .sourceMismatch  => 7
  | .illegalCmd      => 8
  | .sequenceErr     => 9

/-- The class column of R230: codes 1 to 7 are execution-time errors, 8 and 9 are check errors. -/
def Err.isExecution : Err → Bool
  | .malformedHeader | .truncatedStream | .badSymbol | .treeOverflow | .lengthOverflow | .noCode | .sourceMismatch => true
  | .illegalCmd | .sequenceErr => false

/-- The STATUS word, field by field from bit 31 down (R24). While BUSY = 1 it shows BUSY, IGN and the OP field of the pending
command and 0 elsewhere, whatever the other fields hold (R24, R56; log 13). -/
def statusWord (s : State) : Word :=
  match s.pending with
  | some w => 0#20 ++ w.extractLsb' 0 4 ++ 0#4 ++ BitVec.ofBool s.ign ++ 0#2 ++ 1#1
  | none =>
    0#11 ++ BitVec.ofBool s.treeSrc ++ BitVec.ofBool s.hdrV ++ BitVec.ofBool s.codeV ++ BitVec.ofBool s.treeV
      ++ BitVec.ofBool s.freqV ++ s.errStep ++ s.lastOp ++ s.errCode ++ BitVec.ofBool s.ign ++ BitVec.ofBool s.err
      ++ BitVec.ofBool s.done ++ 0#1

/-- All five flags 0: CLEAR (R136) and every execution-time error (R233). -/
def flagsDropped (s : State) : State :=
  { s with freqV := false, treeV := false, codeV := false, hdrV := false, treeSrc := false }

/-- The flags after COUNT (R150). -/
def flagsCounted (s : State) : State :=
  { s with freqV := true, treeV := false, codeV := false, hdrV := false, treeSrc := false }

/-- The flags after BUILD (R152); FREQ_V is unchanged. -/
def flagsBuilt (s : State) : State := { s with treeV := true, treeSrc := false, codeV := false, hdrV := false }

/-- The flags after GENCODE (R158). -/
def flagsCoded (s : State) : State := { s with codeV := true }

/-- The flags after WRITE_HEADER (R160). -/
def flagsHeaderWritten (s : State) : State := { s with hdrV := true }

/-- The flags after READ_HEADER (R200); FREQ_V is unchanged. -/
def flagsHeaderRead (s : State) : State := { s with treeV := true, treeSrc := true, hdrV := true, codeV := false }

end Sys2Proof.Machine
end

