-- ==== Sys2Proof/Machine/Operands.lean ====
section
/-! DEFINITION. Where a command's operands come from: the internal memories (20_memory R84 to R86) and the preconditions on them
(40_control R133). No command word has an operand field (30_encoding R100). -/

set_option autoImplicit false

namespace Sys2Proof.Machine

/-- What an unlisted index of FREQ, NODE, CODE reads as; after reset every index is unlisted (log 2). -/
def freqDefault : Word := 0
def nodeDefault : Node := .leaf 0 0
def codeDefault : CodeEntry := { valid := false, len := 0, val := 0 }

/-- `FREQ[s]` (R84). -/
def freqAt (s : State) (sym : Nat) : Word := memGet freqDefault s.freq sym

/-- `NODE[i]` (R85). -/
def nodeAt (s : State) (i : NodeIx) : Node := memGet nodeDefault s.nodes i.toNat

/-- `CODE[s]` (R86). -/
def codeAt (s : State) (sym : Nat) : CodeEntry := memGet codeDefault s.codes sym

/-- A node a tree walk visits: "Entries at indices ≥ node_count are unspecified and no rule reads them" (R60), and symbols are 0 to
256 (R13), so a walk that meets anything else has left what the rules give a meaning to (log 9). -/
def walkNode (s : State) (i : NodeIx) : Option Node :=
  if i < s.nodeCount ∧ i.toNat < Config.nodeCap then
    match nodeAt s i with
    | .leaf sym w       => if sym.toNat ≤ Config.pseudoEof then some (.leaf sym w) else none
    | .internal w l r   => some (.internal w l r)
  else none

/-- The mask bit `m` when the condition `c` fails (R133). -/
def maskIf (c : Bool) (m : Word) : Word := if c then 0 else m

/-- `Missing(op)`: the OR of the mask bits whose condition fails (R133). -/
def missing (i : Instr) (s : State) : Word :=
  match i with
  | .nop         => 0
  | .clear       => 0
  | .count       => 0
  | .build       => maskIf s.freqV 0x01
  | .gencode     => maskIf s.treeV 0x02 ||| maskIf (!s.treeSrc) 0x10
  | .writeHeader => maskIf s.treeV 0x02
  | .encode      => maskIf s.codeV 0x04
  | .compress    => 0
  | .readHeader  => 0
  | .decodeBody  => maskIf s.treeV 0x02
  | .decompress  => 0

end Sys2Proof.Machine
end

