-- ==== Sys2Proof/Machine/Ops.lean ====
section
/-! DEFINITION. The shared operations: the stream ports (20_memory R74 to R78), allocation (R85), acceptance and completion
(40_control R130 to R132), raising an error and acknowledging it (60_exceptions R232, R233, R241). -/

set_option autoImplicit false

namespace Sys2Proof.Machine

/-! ### The IN port -/

/-- The IN position becomes `p`. -/
def inMove (p : Nat) (s : State) : State := { s with inPos := p }

/-- A free value was drawn: the next draw is another one (log 4). -/
def draw (s : State) : State := { s with draws := s.draws + 1 }

/-- The IN position after a read that returned `NO_DATA`: any value from `p` to `8·|B|` (R74), a free value (log 4). -/
def noData (s : State) : State :=
  let room := 8 * s.inBytes.length - s.inPos
  if room = 0 then s
  else draw (inMove (s.inPos + Config.noDataAdvance s.draws % (room + 1)) s)

/-- `InRead(n)`: the n-bit value at the IN position, or none for `NO_DATA` (R74). -/
def inRead (n : Nat) (s : State) : Option (BitVec n) × State :=
  if s.inPos + n > 8 * s.inBytes.length then (none, noData s)
  else
    (some (BitVec.ofNat n (ofBits 0 ((List.range n).map fun k => inBit s.inBytes (s.inPos + k)))),
     inMove (s.inPos + n) s)

/-- `InRewind()` (R75). -/
def inRewind (s : State) : State := inMove 0 s

/-! ### The OUT port -/

/-- `OutWrite(n, v)` (R77). -/
def outWrite (n : Nat) (v : BitVec n) (s : State) : State :=
  { s with out := s.out ++ bin n v, outBits := s.outBits + BitVec.ofNat 32 n }

/-- The zero bits `OutFlush()` appends to a stream of `n` bits (R78). -/
def padding (n : Nat) : List Bool := List.replicate ((8 - n % 8) % 8) false

/-- `OutFlush()`: OUT_BITS does not change (R78). -/
def outFlush (s : State) : State := { s with out := s.out ++ padding s.out.length }

/-! ### The node store -/

/-- `Alloc(n)`: the node goes to index `node_count` (R85). The index it answers is `node_count` before the call. The entries above keep
what they held: R60 calls them unspecified, so that is the model's DESIGN CHOICE (log 16). -/
def alloc (n : Node) (s : State) : State :=
  { s with nodes := memSet nodeDefault s.nodes s.nodeCount.toNat n, nodeCount := s.nodeCount + 1 }

/-- `root <- i`. -/
def setRoot (i : NodeIx) (s : State) : State := { s with root := i }

/-- `NODE[i] <- n` (R85). -/
def setNode (i : NodeIx) (n : Node) (s : State) : State :=
  { s with nodes := memSet nodeDefault s.nodes i.toNat n }

/-! ### Sequencing -/

/-- Run `f` after a component that ended well; an error or a stop ends the sequence (R115, R232). -/
def Res.andThen {α β : Type} (r : Res α) (f : α → State → Res β) : Res β :=
  match r with
  | .ok a s               => f a s
  | .raised e info step s => .raised e info step s
  | .stuck f              => .stuck f

/-- `raise E(info)` inside the component command `i`: ERR_STEP will name `i` (R31, R232). -/
def raise {α : Type} (e : Err) (info : Word) (i : Instr) (s : State) : Res α := .raised e info (opcode i) s

/-! ### Taking an error, and its acknowledgement -/

/-- ERROR ENTRY, once for all errors (R131, R232, R233, R235, R240): ERR, ERRCODE, ERR_STEP and ERRINFO are written; an
execution-time error clears the five flags; nothing is pushed and control goes nowhere. FREQ, NODE and CODE keep what the pseudocode
had written at the raise (R237), where 93 I1 allows any contents: the model's DESIGN CHOICE (log 16). -/
def enterError (e : Err) (info : Word) (step : Nibble) (s : State) : State :=
  let recorded := { s with err := true, errCode := e.code, errStep := step, errInfo := info }
  if e.isExecution then flagsDropped recorded else recorded

/-- ACKNOWLEDGEMENT, the host's return from an error or a completion: a write of `w` to STATUS (R37, R241). -/
def ackStatus (w : Word) (s : State) : State :=
  { s with
    done := s.done && !w.getLsbD 1
    err  := s.err && !w.getLsbD 1
    ign  := s.ign && !w.getLsbD 3 }

/-! ### Acceptance and completion -/

/-- Acceptance of a command word (R130). -/
def accept (w : Word) (s : State) : State :=
  { s with
    pending := some w
    done    := false
    err     := false
    ign     := false
    errCode := 0
    errStep := 0
    lastOp  := opField w
    errInfo := 0 }

/-- The end of every completion: DONE = 1, BUSY = 0 (R131). -/
def retire (s : State) : State := { s with done := true, pending := none }

/-- The preconditions, then the command (R132): SEQUENCE with the missing mask when one fails. -/
def checked (i : Instr) (run : State → Res Unit) (s : State) : Res Unit :=
  if missing i s = 0 then run s else raise .sequenceErr (missing i s) i s

/-- `Complete()` (R131). Without an error ERR is 0 after it (R27; log 12). -/
def complete (r : Res Unit) : Host.Outcome State Fault Refusal :=
  match r with
  | .ok _ s               => .next (retire { s with err := false })
  | .raised e info step s => .next (retire (enterError e info step s))
  | .stuck f              => .fault f

/-- The completion of an illegal command word: ILLEGAL_CMD with the whole word, step = its OP field (R102, R132). -/
def completeIllegal (w : Word) (s : State) : Host.Outcome State Fault Refusal :=
  complete (.raised .illegalCmd w (opField w) s)

end Sys2Proof.Machine
end

