-- ==== Sys2Proof/Machine/Control.lean ====
section
/-! DEFINITION. The control commands NOP and CLEAR (40_control R135, R136). -/

set_option autoImplicit false

namespace Sys2Proof.Machine

/-- NOP: `skip` (R135). -/
def runNop (s : State) : Res Unit := .ok () s

/-- The state after CLEAR's pseudocode (R136): memories, IRQ_EN, IDX and the streams are left alone. -/
def cleared (s : State) : State :=
  { flagsDropped s with
    nodeCount := 0
    root      := 0
    inCount   := 0
    encCount  := 0
    decCount  := 0
    outBits   := 0
    hdrBits   := 0 }

/-- CLEAR (R136). -/
def runClear (s : State) : Res Unit := .ok () (cleared s)

/-- NOP, completed (R131, R135). -/
def execNop (s : State) : Host.Outcome State Fault Refusal := complete (checked .nop runNop s)

/-- CLEAR, completed (R131, R136). -/
def execClear (s : State) : Host.Outcome State Fault Refusal := complete (checked .clear runClear s)

end Sys2Proof.Machine
end

