-- ==== Sys2Proof/Machine/Decoder.lean ====
section
/-! DEFINITION. The decoder commands: READ_HEADER, DECODE_BODY, DECOMPRESS (42_decoder R200 to R207). -/

set_option autoImplicit false

namespace Sys2Proof.Machine

/-! ### READ_HEADER (R200, R201) -/

/-- HDR_BITS counts the tree-header bits consumed (R45, R201). -/
def countHdrBits (n : Word) (s : State) : State := { s with hdrBits := s.hdrBits + n }

/-- The first half of `Des()`: the kind bit, then room for the node. It answers the kind bit and the placeholder's index (R201). -/
def desNode (s : State) : Res (Bool × NodeIx) :=
  match inRead 1 s with
  | (none, s1)   => raise .truncatedStream s1.hdrBits .readHeader s1
  | (some b, s1) =>
    let s2 := countHdrBits 1 s1
    if s2.nodeCount.toNat = Config.nodeCap then raise .treeOverflow (BitVec.ofNat 32 Config.nodeCap) .readHeader s2
    else .ok (b == 1, s2.nodeCount) (alloc (.internal 0 0 0) s2)

/-- The second half of `Des()` for a leaf at index `i`: the symbol field (R201). -/
def desLeaf (i : NodeIx) (s : State) : Res NodeIx :=
  match inRead 9 s with
  | (none, s1)   => raise .truncatedStream s1.hdrBits .readHeader s1
  | (some v, s1) =>
    let s2 := countHdrBits 9 s1
    if v.toNat > Config.pseudoEof then raise .badSymbol (BitVec.setWidth 32 v) .readHeader s2
    else .ok i (setNode i (.leaf v 0) s2)

/-- `Des()` (R201). The number bounds the depth: each call on the way down has allocated a node, so the store is full before it is
used up, and a call that found it used up could only raise TREE_OVERFLOW. -/
def des : Nat → State → Res NodeIx
  | 0, s => raise .treeOverflow (BitVec.ofNat 32 Config.nodeCap) .readHeader s
  | depth + 1, s =>
    (desNode s).andThen fun bi s1 =>
      if bi.1 then desLeaf bi.2 s1
      else
        (des depth s1).andThen fun l s2 =>
        (des depth s2).andThen fun r s3 =>
        .ok bi.2 (setNode bi.2 (.internal 0 l r) s3)

/-- `node_count <- 0; HDR_BITS <- 0`, before the tag is read (R200; 90_conflicts C8). The old entries stay where `Des()` allocates
nothing: R60 calls them unspecified, so that is the model's DESIGN CHOICE (log 16). -/
def headerStart (s : State) : State := { s with nodeCount := 0, hdrBits := 0 }

/-- READ_HEADER (R200). -/
def runReadHeader (s : State) : Res Unit :=
  match inRead 32 (headerStart s) with
  | (none, s1)   => raise .malformedHeader 0 .readHeader s1
  | (some t, s1) =>
    if t = s1.params.huffTag then
      (des (Config.nodeCap + 1) s1).andThen fun root s2 => .ok () (flagsHeaderRead (setRoot root s2))
    else raise .malformedHeader t .readHeader s1

/-! ### DECODE_BODY (R204 to R206) -/

/-- `Step(b)`: where the cursor goes (R205). On a leaf, which only a root-leaf tree puts it on, it stays (R206). None: the store
holds no tree at the cursor. -/
def cursorStep (b : Bool) (s : State) (cur : NodeIx) : Option NodeIx :=
  match walkNode s cur with
  | none                   => none
  | some (.internal _ l r) => some (if b then r else l)
  | some (.leaf _ _)       => some cur

/-- `DEC_COUNT <- (DEC_COUNT + 1) mod 2^32` (R43, R204). -/
def decCountUp (s : State) : State := { s with decCount := s.decCount + 1 }

/-- A literal decoded: the byte to OUT and DEC_COUNT, which wraps (R204). -/
def emitByte (sym : Sym) (s : State) : State :=
  decCountUp (outWrite 8 (BitVec.setWidth 8 sym) s)

/-- DECODE_BODY's loop with the cursor at `cur` (R204). The number bounds it: the bits still to read; with none left the read
returns `NO_DATA`. -/
def decodeLoop : Nat → NodeIx → State → Res Unit
  | 0, _, s => let s1 := (inRead 1 s).2; raise .truncatedStream s1.decCount .decodeBody s1
  | bits + 1, cur, s =>
    match inRead 1 s with
    | (none, s1)   => raise .truncatedStream s1.decCount .decodeBody s1
    | (some b, s1) =>
      match cursorStep (b == 1) s1 cur with
      | none      => .stuck .brokenTree
      | some cur1 =>
        match walkNode s1 cur1 with
        | none                    => .stuck .brokenTree
        | some (.internal _ _ _)  => decodeLoop bits cur1 s1
        | some (.leaf sym _)      =>
          if sym.toNat = Config.pseudoEof then .ok () (outFlush s1)
          else decodeLoop bits s1.root (emitByte sym s1)

/-- `DEC_COUNT <- 0` (R204). -/
def decodeStart (s : State) : State := { s with decCount := 0 }

/-- DECODE_BODY (R204). -/
def runDecodeBody (s : State) : Res Unit :=
  decodeLoop (8 * s.inBytes.length - s.inPos) s.root (decodeStart s)

/-! ### DECOMPRESS (R207) -/

/-- DECOMPRESS: CLEAR ; READ_HEADER ; DECODE_BODY, stopped by the first error (R115, R207). -/
def runDecompress (s : State) : Res Unit :=
  (runClear s).andThen fun _ s1 =>
  (runReadHeader s1).andThen fun _ s2 =>
  runDecodeBody s2

/-! ### The meanings -/

/-- READ_HEADER, completed (R131, R200). -/
def execReadHeader (s : State) : Host.Outcome State Fault Refusal := complete (checked .readHeader runReadHeader s)

/-- DECODE_BODY, completed (R131, R204). -/
def execDecodeBody (s : State) : Host.Outcome State Fault Refusal := complete (checked .decodeBody runDecodeBody s)

/-- DECOMPRESS, completed (R131, R207). -/
def execDecompress (s : State) : Host.Outcome State Fault Refusal := complete (checked .decompress runDecompress s)

end Sys2Proof.Machine
end

