-- ==== Sys2Proof/Machine/Encoder.lean ====
section
/-! DEFINITION. The encoder commands: COUNT, BUILD, GENCODE, WRITE_HEADER, ENCODE, COMPRESS (41_encoder R150 to R167). -/

set_option autoImplicit false

namespace Sys2Proof.Machine

/-! ### COUNT (R150) -/

/-- The table and the counter as COUNT starts: `FREQ[s] <- 0` for every s, `IN_COUNT <- 0`. -/
def countStart (s : State) : State := { inRewind s with freq := [], inCount := 0 }

/-- One byte counted: `FREQ[r] <- FREQ[r] + 1`, `IN_COUNT <- IN_COUNT + 1`. -/
def countByte (r : Byte) (s : State) : State :=
  { s with freq := memSet freqDefault s.freq r.toNat (freqAt s r.toNat + 1), inCount := s.inCount + 1 }

/-- COUNT's loop. The list bounds it: it is the bytes still to read, and after the last one the read returns `NO_DATA`. -/
def countLoop : List Byte → State → Res Unit
  | [], s => .ok () (inRead 8 s).2
  | _ :: rest, s =>
    match inRead 8 s with
    | (none, s1)   => .ok () s1
    | (some r, s1) =>
      if s1.inCount = Config.countMax then raise .lengthOverflow s1.inCount .count s1
      else countLoop rest (countByte r s1)

/-- The frequency table becomes `freq`. -/
def setFreq (freq : List (Nat × Word)) (s : State) : State := { s with freq := freq }

/-- After the loop: `FREQ[256] <- 1`, and the flags. -/
def countEnd (s : State) : State :=
  flagsCounted (setFreq (memSet freqDefault s.freq Config.pseudoEof 1) s)

/-- COUNT (R150). -/
def runCount (s : State) : Res Unit :=
  (countLoop s.inBytes (countStart s)).andThen fun _ s1 => .ok () (countEnd s1)

/-! ### BUILD (R152 to R156) -/

/-- The leaves BUILD allocates: one for each symbol with a nonzero count, in ascending symbol order (R152, R156). -/
def buildLeaves (s : State) : List Node :=
  (List.range Config.alphabetSize).filterMap fun sym =>
    if freqAt s sym = 0 then none else some (.leaf (BitVec.ofNat 9 sym) (freqAt s sym))

/-- Allocate nodes in order. -/
def allocAll (ns : List Node) (s : State) : State := ns.foldl (fun s n => alloc n s) s

/-- `PopMin`'s order: node `i` goes before node `j` when its (weight, index) is the smaller, weights first (R153). -/
def goesBefore (s : State) (i j : NodeIx) : Bool :=
  (nodeAt s i).weight < (nodeAt s j).weight || ((nodeAt s i).weight == (nodeAt s j).weight && i < j)

/-- The index of the active set that goes before every other. -/
def minIx (s : State) (i : NodeIx) (rest : List NodeIx) : NodeIx :=
  rest.foldl (fun m j => if goesBefore s j m then j else m) i

/-- `PopMin(A)`: the smallest index of the active set, and the set without it (R153). -/
def popMin (s : State) (active : List NodeIx) : Option (NodeIx × List NodeIx) :=
  match active with
  | []        => none
  | i :: rest => some (minIx s i rest, active.erase (minIx s i rest))

/-- The internal node that joins `a`, extracted first, and `b`, extracted second (R152, R153). -/
def joined (s : State) (a b : NodeIx) : Node :=
  .internal ((nodeAt s a).weight + (nodeAt s b).weight) a b

/-- `while |A| >= 2`: pop two, join them (R152). The number bounds the loop: each merge makes the active set one smaller. -/
def mergeLoop : Nat → List NodeIx → State → State
  | 0, _, s => s
  | k + 1, active, s =>
    match popMin s active with
    | none => s
    | some (a, active1) =>
      match popMin s active1 with
      | none => s
      | some (b, active2) => mergeLoop k (active2 ++ [s.nodeCount]) (alloc (joined s a b) s)

/-- `SingleLeafWrap()` (R155): the synthesized leaf of weight 0, then the root. -/
def singleLeafWrap (s : State) : State :=
  let d : Sym := match nodeAt s 0 with
    | .leaf sym _     => if sym = 0 then 1 else 0
    | .internal _ _ _ => 0
  alloc (.internal ((nodeAt s 0).weight + 0) 0 1) (alloc (.leaf d 0) s)

/-- The tree grown over `L` leaves: the wrap for one, the merges for more. -/
def growTree (leaves : Nat) (s : State) : State :=
  if leaves = 1 then singleLeafWrap s
  else mergeLoop leaves ((List.range leaves).map (BitVec.ofNat 10)) s

/-- After the tree is grown: `root <- node_count − 1`, and the flags (R152). -/
def buildEnd (s : State) : State := flagsBuilt (setRoot (s.nodeCount - 1) s)

/-- BUILD allocates from index 0: `node_count <- 0` (R152). The old entries stay where BUILD allocates nothing: R60 calls them
unspecified, so that is the model's DESIGN CHOICE (log 16). -/
def buildStart (s : State) : State := { s with nodeCount := 0 }

/-- BUILD (R152). -/
def runBuild (s : State) : Res Unit :=
  match buildLeaves s with
  | []     => .stuck .noLeaf
  | leaves => .ok () (buildEnd (growTree leaves.length (allocAll leaves (buildStart s))))

/-! ### GENCODE (R158) -/

/-- `Walk(i, len, val)`. The first number bounds the depth: no path is longer than `MAX_CODE_LEN` (R154). None: the store holds no tree. -/
def walkCodes (s : State) : Nat → NodeIx → Nat → Nat → List (Nat × CodeEntry) → Option (List (Nat × CodeEntry))
  | 0, _, _, _, _ => none
  | depth + 1, i, len, val, codes =>
    match walkNode s i with
    | none => none
    | some (.leaf sym weight) =>
      if weight = 0 then some codes
      else some (memSet codeDefault codes sym.toNat { valid := true, len := BitVec.ofNat 9 len, val := BitVec.ofNat 256 val })
    | some (.internal _ l r) =>
      match walkCodes s depth l (len + 1) (2 * val) codes with
      | none        => none
      | some codes1 => walkCodes s depth r (len + 1) (2 * val + 1) codes1

/-- The code table becomes `codes`. -/
def setCodes (codes : List (Nat × CodeEntry)) (s : State) : State := { s with codes := codes }

/-- GENCODE (R158): every entry cleared, then the walk from the root. -/
def runGencode (s : State) : Res Unit :=
  match walkCodes s (Config.maxCodeLen + 1) s.root 0 0 [] with
  | none       => .stuck .brokenTree
  | some codes => .ok () (flagsCoded (setCodes codes s))

/-! ### WRITE_HEADER (R160, R161) -/

/-- Add to HDR_BITS. -/
def addHdrBits (n : Word) (s : State) : State := { s with hdrBits := s.hdrBits + n }

/-- `Ser(i)` (R161). The number bounds the depth, as in `walkCodes`. -/
def ser : Nat → NodeIx → State → Res Unit
  | 0, _, _ => .stuck .brokenTree
  | depth + 1, i, s =>
    match walkNode s i with
    | none                   => .stuck .brokenTree
    | some (.internal _ l r) =>
      (ser depth l (addHdrBits 1 (outWrite 1 0 s))).andThen fun _ s1 => ser depth r s1
    | some (.leaf sym _)     => .ok () (addHdrBits 10 (outWrite 9 sym (outWrite 1 1 s)))

/-- `HDR_BITS <- 0` (R160). -/
def hdrBitsZero (s : State) : State := { s with hdrBits := 0 }

/-- WRITE_HEADER (R160). -/
def runWriteHeader (s : State) : Res Unit :=
  (ser (Config.maxCodeLen + 1) s.root (outWrite 32 s.params.huffTag (hdrBitsZero s))).andThen fun _ s1 =>
    .ok () (flagsHeaderWritten s1)

/-! ### ENCODE (R163 to R166) -/

/-- `EmitCode`: one bit at a time, most significant first (R164). -/
def emitCode (c : CodeEntry) (s : State) : State :=
  (List.range c.len.toNat).reverse.foldl (fun s k => outWrite 1 (BitVec.ofBool (c.val.getLsbD k)) s) s

/-- `ENC_COUNT <- ENC_COUNT + 1`. -/
def encCountUp (s : State) : State := { s with encCount := s.encCount + 1 }

/-- One byte encoded (R163). -/
def encodeByte (r : Byte) (s : State) : State := encCountUp (emitCode (codeAt s r.toNat) s)

/-- ENCODE's loop, bounded by the bytes still to read, as COUNT's is. The length check comes before the code check (R165). -/
def encodeLoop : List Byte → State → Res Unit
  | [], s => .ok () (inRead 8 s).2
  | _ :: rest, s =>
    match inRead 8 s with
    | (none, s1)   => .ok () s1
    | (some r, s1) =>
      if s1.encCount = s1.inCount then raise .sourceMismatch (s1.encCount + 1) .encode s1
      else if (codeAt s1 r.toNat).valid then encodeLoop rest (encodeByte r s1)
      else raise .noCode (BitVec.setWidth 32 r) .encode s1

/-- After the loop: the second pass must not have been shorter; then the EOF code and the flush (R163, R165, R166). -/
def encodeEnd (s : State) : Res Unit :=
  if s.encCount = s.inCount then .ok () (outFlush (emitCode (codeAt s Config.pseudoEof) s))
  else raise .sourceMismatch s.encCount .encode s

/-- The start of the second pass: `InRewind()`, `ENC_COUNT <- 0`. -/
def encodeStart (s : State) : State := { inRewind s with encCount := 0 }

/-- ENCODE (R163). -/
def runEncode (s : State) : Res Unit :=
  (encodeLoop s.inBytes (encodeStart s)).andThen fun _ s1 => encodeEnd s1

/-! ### COMPRESS (R167) -/

/-- COMPRESS: CLEAR ; COUNT ; BUILD ; GENCODE ; WRITE_HEADER ; ENCODE, stopped by the first error (R115, R167). -/
def runCompress (s : State) : Res Unit :=
  (runClear s).andThen fun _ s1 =>
  (runCount s1).andThen fun _ s2 =>
  (runBuild s2).andThen fun _ s3 =>
  (runGencode s3).andThen fun _ s4 =>
  (runWriteHeader s4).andThen fun _ s5 =>
  runEncode s5

/-! ### The meanings -/

/-- COUNT, completed (R131, R150). -/
def execCount (s : State) : Host.Outcome State Fault Refusal := complete (checked .count runCount s)

/-- BUILD, completed (R131, R152). -/
def execBuild (s : State) : Host.Outcome State Fault Refusal := complete (checked .build runBuild s)

/-- GENCODE, completed (R131, R158). -/
def execGencode (s : State) : Host.Outcome State Fault Refusal := complete (checked .gencode runGencode s)

/-- WRITE_HEADER, completed (R131, R160). -/
def execWriteHeader (s : State) : Host.Outcome State Fault Refusal := complete (checked .writeHeader runWriteHeader s)

/-- ENCODE, completed (R131, R163). -/
def execEncode (s : State) : Host.Outcome State Fault Refusal := complete (checked .encode runEncode s)

/-- COMPRESS, completed (R131, R167). -/
def execCompress (s : State) : Host.Outcome State Fault Refusal := complete (checked .compress runCompress s)

end Sys2Proof.Machine
end

