-- ==== Sys2Proof/Machine/Dispatch.lean ====
section
/-! DEFINITION. One arm per command: what its completion does (40_control R131, R132). -/

namespace Sys2Proof.Machine

def exec (i : Instr) (s : State) : Host.Outcome State Fault Refusal :=
  match i with
  | .nop => Sys2Proof.Machine.execNop s
  | .clear => Sys2Proof.Machine.execClear s
  | .count => Sys2Proof.Machine.execCount s
  | .build => Sys2Proof.Machine.execBuild s
  | .gencode => Sys2Proof.Machine.execGencode s
  | .writeHeader => Sys2Proof.Machine.execWriteHeader s
  | .encode => Sys2Proof.Machine.execEncode s
  | .compress => Sys2Proof.Machine.execCompress s
  | .readHeader => Sys2Proof.Machine.execReadHeader s
  | .decodeBody => Sys2Proof.Machine.execDecodeBody s
  | .decompress => Sys2Proof.Machine.execDecompress s

end Sys2Proof.Machine
end

