-- ==== Sys2Proof/Machine/Registers.lean ====
section
/-! DEFINITION. The register window as the host reads and writes it (10_state R21 to R56, 20_memory R80 to R82). -/

set_option autoImplicit false

namespace Sys2Proof.Machine

/-- The offset of a register from BASE (R22). -/
def Reg.offset : Reg → Nat
  | .cmd        => 0x00
  | .status     => 0x04
  | .errInfo    => 0x08
  | .irqEn      => 0x0C
  | .tag        => 0x10
  | .inCount    => 0x14
  | .encCount   => 0x18
  | .decCount   => 0x1C
  | .outBits    => 0x20
  | .hdrBits    => 0x24
  | .root       => 0x28
  | .nodeCount  => 0x2C
  | .idx        => 0x30
  | .freqData   => 0x34
  | .codeInfo   => 0x38
  | .codeData   => 0x3C
  | .nodeInfo   => 0x40
  | .nodeWeight => 0x44
  | .nodeLink   => 0x48

/-- The register at an offset; none for the reserved offsets 0x4C to 0x7C (R55) and for whatever is no register's offset. -/
def Reg.ofOffset (addr : Nat) : Option Reg :=
  match addr with
  | 0x00 => some .cmd
  | 0x04 => some .status
  | 0x08 => some .errInfo
  | 0x0C => some .irqEn
  | 0x10 => some .tag
  | 0x14 => some .inCount
  | 0x18 => some .encCount
  | 0x1C => some .decCount
  | 0x20 => some .outBits
  | 0x24 => some .hdrBits
  | 0x28 => some .root
  | 0x2C => some .nodeCount
  | 0x30 => some .idx
  | 0x34 => some .freqData
  | 0x38 => some .codeInfo
  | 0x3C => some .codeData
  | 0x40 => some .nodeInfo
  | 0x44 => some .nodeWeight
  | 0x48 => some .nodeLink
  | _    => none

/-- Where a register sits on the platform's bus: `BASE + offset` (R21, R83). -/
def Reg.busAddress (p : Params) (r : Reg) : Nat := p.base + r.offset

/-- The offset the block sees of an access at a bus address; none for an address below the window, which is not the block's. -/
def busOffset (p : Params) (a : Nat) : Option Nat := if p.base ≤ a then some (a - p.base) else none

/-! ### The data registers (R48 to R54) -/

/-- IDX: INDEX in bits [9:0], WSEL in bits [18:16], the rest 0 (R48). -/
def idxWord (s : State) : Word := 0#13 ++ s.wsel ++ 0#6 ++ s.index

/-- FREQ_DATA (R49). -/
def freqData (s : State) : Word :=
  if s.freqV ∧ s.index.toNat ≤ Config.pseudoEof then freqAt s s.index.toNat else 0

/-- The condition of R50: the entry of the code table that CODE_INFO and CODE_DATA show. -/
def codeShown (s : State) : Option CodeEntry :=
  if s.codeV ∧ s.index.toNat ≤ Config.pseudoEof ∧ (codeAt s s.index.toNat).valid then some (codeAt s s.index.toNat) else none

/-- CODE_INFO (R50). -/
def codeInfo (s : State) : Word :=
  match codeShown s with
  | some c => 1#1 ++ 0#22 ++ c.len
  | none   => 0

/-- CODE_DATA: word WSEL of the code value (R51). -/
def codeData (s : State) : Word :=
  match codeShown s with
  | some c => c.val.extractLsb' (32 * s.wsel.toNat) 32
  | none   => 0

/-- The condition of R52: the node that NODE_INFO, NODE_WEIGHT and NODE_LINK show. -/
def nodeShown (s : State) : Option Node :=
  if s.treeV ∧ s.index < s.nodeCount then some (nodeAt s s.index) else none

/-- NODE_INFO (R52). -/
def nodeInfo (s : State) : Word :=
  match nodeShown s with
  | some (.leaf sym _)       => 1#1 ++ 1#1 ++ 0#21 ++ sym
  | some (.internal _ _ _)   => 1#1 ++ 0#31
  | none                     => 0

/-- NODE_WEIGHT (R53). -/
def nodeWeight (s : State) : Word :=
  match nodeShown s with
  | some n => n.weight
  | none   => 0

/-- NODE_LINK (R54). -/
def nodeLink (s : State) : Word :=
  match nodeShown s with
  | some (.internal _ l r) => 0#6 ++ r ++ 0#6 ++ l
  | some (.leaf _ _)       => 0
  | none                   => 0

/-! ### Reads -/

/-- A register's value while BUSY = 0. CMD reads 0 (R23); ROOT reads 0 when TREE_V = 0 (R46). -/
def regValue (s : State) : Reg → Word
  | .cmd        => 0
  | .status     => statusWord s
  | .errInfo    => s.errInfo
  | .irqEn      => 0#31 ++ BitVec.ofBool s.ie
  | .tag        => s.params.huffTag
  | .inCount    => s.inCount
  | .encCount   => s.encCount
  | .decCount   => s.decCount
  | .outBits    => s.outBits
  | .hdrBits    => s.hdrBits
  | .root       => if s.treeV then BitVec.setWidth 32 s.root else 0
  | .nodeCount  => BitVec.setWidth 32 s.nodeCount
  | .idx        => idxWord s
  | .freqData   => freqData s
  | .codeInfo   => codeInfo s
  | .codeData   => codeData s
  | .nodeInfo   => nodeInfo s
  | .nodeWeight => nodeWeight s
  | .nodeLink   => nodeLink s

/-- The registers that read their value while BUSY = 1; every other one reads 0 then (R56). -/
def Reg.readsWhileBusy : Reg → Bool
  | .status | .tag | .irqEn | .idx => true
  | .cmd | .errInfo | .inCount | .encCount | .decCount | .outBits | .hdrBits | .root | .nodeCount
  | .freqData | .codeInfo | .codeData | .nodeInfo | .nodeWeight | .nodeLink => false

/-- A read of a register (R22 to R56). -/
def readReg (r : Reg) (s : State) : Word := if s.busy && !r.readsWhileBusy then 0 else regValue s r

/-- An access that acts: 4 bytes wide, at a multiple of 4 inside the window (R80, R81). -/
def accessActs (addr width : Nat) : Bool := width == 4 && addr % 4 == 0 && addr < 0x80

/-- `MemRead(addr, width)`: an access that does not act reads 0, and so does a reserved offset (R55, R80, R81). -/
def memRead (addr width : Nat) (s : State) : Word :=
  if accessActs addr width then
    match Reg.ofOffset addr with
    | some r => readReg r s
    | none   => 0
  else 0

/-! ### Writes -/

/-- A write to CMD: accepted while BUSY = 0, else ignored but for IGN (R23, R130, R137). -/
def writeCmd (w : Word) (s : State) : State := if s.busy then { s with ign := true } else accept w s

/-- A write to IRQ_EN: bit 0 is IE (R39). -/
def writeIrqEn (w : Word) (s : State) : State := { s with ie := w.getLsbD 0 }

/-- A write to IDX: INDEX and WSEL (R48). -/
def writeIdx (w : Word) (s : State) : State := { s with index := w.extractLsb' 0 10, wsel := w.extractLsb' 16 3 }

/-- A write of a register; a read-only register ignores it (R21, R82). -/
def writeReg (r : Reg) (w : Word) (s : State) : State :=
  match r with
  | .cmd    => writeCmd w s
  | .status => ackStatus w s
  | .irqEn  => writeIrqEn w s
  | .idx    => writeIdx w s
  | .errInfo | .tag | .inCount | .encCount | .decCount | .outBits | .hdrBits | .root | .nodeCount
  | .freqData | .codeInfo | .codeData | .nodeInfo | .nodeWeight | .nodeLink => s

/-- `MemWrite(addr, width, w)`: an access that does not act writes nothing, and neither does one to a reserved offset (R55, R80, R81). -/
def memWrite (addr width : Nat) (w : Word) (s : State) : State :=
  if accessActs addr width then
    match Reg.ofOffset addr with
    | some r => writeReg r w s
    | none   => s
  else s

end Sys2Proof.Machine
end

