-- ==== Sys2Proof/Machine/Agents.lean ====
section
/-! DEFINITION. What each agent's move does: the block's sequencer, the host, and reset (00_scope R14, 40_control R131,
30_encoding R113, R114, 70_reset R270 to R273). -/

set_option autoImplicit false

namespace Sys2Proof.Machine

/-! ### The block -/

/-- The completion of the pending command, "the block's only step", enabled exactly when PENDING is not none (R131, R132); idle, the
block holds its state (R249; log 6). -/
def blockMove (s : State) : Host.Outcome State Fault Refusal :=
  match s.pending with
  | none   => .next s
  | some w =>
    match decodeWord w with
    | .ok i    => exec i s
    | .error _ => completeIllegal w s

/-! ### The host -/

/-- A move of a stream: the host's only while BUSY = 0 (R64, R65, R92, R278; log 8). -/
def whileIdle (s : State) (s1 : State) : Host.Outcome State Fault Refusal :=
  if s.busy then .refused .streamMovedWhileBusy else .next s1

/-- IN becomes `bytes` at position `pos`, which R64 bounds (R64, R113). -/
def setInPort (bytes : List Byte) (pos : Nat) (s : State) : Host.Outcome State Fault Refusal :=
  if pos ≤ 8 * bytes.length then whileIdle s { s with inBytes := bytes, inPos := pos }
  else .refused .positionOutsideStream

/-- One host instruction (R113). A POLL whose condition fails stays to be tried again. -/
def hostExec (h : HostInstr) (s : State) : Host.Outcome State Fault Refusal :=
  match h with
  | .wr addr width v      => .next (memWrite addr width v s)
  | .rd addr width        => .next { s with reads := memRead addr width s :: s.reads }
  | .poll addr mask value =>
    if memRead addr 4 s &&& mask = value then .next s else .next { s with host := .poll addr mask value :: s.host }
  | .setIn bytes pos      => setInPort bytes pos s
  | .seekIn pos           => setInPort s.inBytes pos s
  | .setOut bits          => whileIdle s { s with out := bits }

/-- The host's move: its next instruction, or nothing when it has none. -/
def hostMove (s : State) : Host.Outcome State Fault Refusal :=
  match s.host with
  | []        => .next s
  | h :: rest => hostExec h { s with host := rest }

/-- The pseudo-instruction `CMD <mnemonic>` (R114). -/
def hostCmd (i : Instr) : List HostInstr := [.wr 0x00 4 (encode i), .poll 0x04 0x2 0x2]

/-! ### Reset -/

/-- The block's registers and internal state as after reset; the streams are the host's and stay (R271, R273), and so do the
parameters and the model's own fields. -/
def resetBlock (s : State) : State :=
  { State.reset with
    params   := s.params
    inBytes  := s.inBytes
    inPos    := s.inPos
    out      := s.out
    host     := s.host
    reads    := s.reads
    schedule := s.schedule
    draws    := s.draws }

/-- OUT as the running command would have left it. -/
def outAfter (s : State) : List Bool :=
  match blockMove s with
  | .next s1   => s1.out
  | .fault _   => s.out
  | .refused _ => s.out

/-- A free value of 0 to `room` (0 when there is no room). -/
def freeUpTo (room free : Nat) : Nat := if room = 0 then 0 else free % (room + 1)

/-- The streams of a command that reset cuts off: OUT holds what it held and any part, from the first bit on, of what the command
would have appended; `p` is anywhere in IN (R272). Both are free values (log 5). -/
def cutStreams (s : State) : State :=
  { s with
    out   := (outAfter s).take (s.out.length + freeUpTo ((outAfter s).length - s.out.length) (Config.resetOutCut s.draws))
    inPos := freeUpTo (8 * s.inBytes.length) (Config.resetInPos s.draws)
    draws := s.draws + 1 }

/-- Reset, "whether or not a command is running" (R270, R272, R273). -/
def resetMove (s : State) : State := resetBlock (if s.busy then cutStreams s else s)

/-! ### Who moves -/

/-- The move of an agent. -/
def agentMove (a : Agent) (s : State) : Host.Outcome State Fault Refusal :=
  match a with
  | .host  => hostMove s
  | .block => blockMove s
  | .reset => .next (resetMove s)

/-- Who makes the next step: the schedule's first entry; when the schedule is empty the block if a command is pending, else the
host, so that every accepted command completes (R131: weak fairness; log 6). -/
def nextAgent (s : State) : Agent :=
  match s.schedule with
  | a :: _ => a
  | []     => if s.busy then .block else .host

end Sys2Proof.Machine
end

