-- ==== Sys2Proof/Machine/Step.lean ====
section
/-! DEFINITION. One step: the next agent's move (00_scope R14, 40_control R131). -/

set_option autoImplicit false

namespace Sys2Proof.Machine

/-- One step of the machine. -/
def step (s : State) : Host.Outcome State Fault Refusal :=
  agentMove (nextAgent s) { s with schedule := s.schedule.tail }

/-- `s` with the command word of an opcode-table row accepted (40_control R130) and the block's move next, so that the very next step
is that command's completion. A command word is not fetched from a memory: the host writes it to CMD (10_state R58; log 7). -/
def State.withFetchWord (s : State) (nbits w : Nat) : State :=
  { accept (tableWord nbits w) s with schedule := .block :: s.schedule }

end Sys2Proof.Machine
end

