-- ==== Sys2Proof/Safety.lean ====
section
/-! DEFINITION. The terms claims are stated in: the tree a node store holds, its header and its codes, the bits of the streams, and the
invariant of every state a run reaches (40_control R134, 10_state R24 to R36, R59 to R64). -/

set_option autoImplicit false

namespace Sys2Proof.Machine

/-! ### Trees -/

/-- A tree as the rules speak of it: "a strict hierarchy" (R60), each internal node with "exactly two children" (R8). -/
inductive Tree where
  | leaf (sym : Sym) (weight : Word)
  | fork (weight : Word) (l r : Tree)
  deriving DecidableEq, Repr

/-- The weight at the root (R13). -/
def Tree.weight : Tree → Word
  | .leaf _ w   => w
  | .fork w _ _ => w

/-- Whether the root is internal. -/
def Tree.isFork : Tree → Bool
  | .leaf _ _   => false
  | .fork _ _ _ => true

/-- How many nodes. -/
def Tree.size : Tree → Nat
  | .leaf _ _   => 1
  | .fork _ l r => l.size + r.size + 1

/-- The length of the longest path. -/
def Tree.depth : Tree → Nat
  | .leaf _ _   => 0
  | .fork _ l r => max l.depth r.depth + 1

/-- The leaves, left to right, as node records. -/
def Tree.leaves : Tree → List Node
  | .leaf sym w => [.leaf sym w]
  | .fork _ l r => l.leaves ++ r.leaves

/-- The tree without its weights, which a header does not carry (R106, R202). -/
def Tree.shape : Tree → Tree
  | .leaf sym _ => .leaf sym 0
  | .fork _ l r => .fork 0 l.shape r.shape

/-- "the sum of its two children's weights for an internal node" (R13), in every internal node. -/
def Tree.weightsAdd : Tree → Bool
  | .leaf _ _   => true
  | .fork w l r => w == l.weight + r.weight && l.weightsAdd && r.weightsAdd

/-- The tree header (R106). -/
def Tree.header : Tree → List Bool
  | .leaf sym _ => true :: bin 9 sym
  | .fork _ l r => false :: (l.header ++ r.header)

/-- Every symbol field is one READ_HEADER accepts: 0 to 256 (R107, R201). -/
def Tree.symsOk : Tree → Bool
  | .leaf sym _ => sym.toNat ≤ Config.pseudoEof
  | .fork _ l r => l.symsOk && r.symsOk

/-- The node records of a deserialized tree whose root goes to index `n`: pre-order, weights 0, an internal node's left child at the
next index (R201, R202). -/
def Tree.preorder : Tree → Nat → List Node
  | .leaf sym _, _ => [.leaf sym 0]
  | .fork _ l r, n =>
    .internal 0 (BitVec.ofNat 10 (n + 1)) (BitVec.ofNat 10 (n + 1 + l.size)) :: (l.preorder (n + 1) ++ r.preorder (n + 1 + l.size))

/-- A node as a tree header carries it: an internal node, or a leaf with its symbol field (R106). -/
inductive HeaderItem where
  | fork
  | leaf (sym : Sym)
  deriving DecidableEq, Repr

/-- Its bits (R106). -/
def HeaderItem.bits : HeaderItem → List Bool
  | .fork     => [false]
  | .leaf sym => true :: bin 9 sym

/-- READ_HEADER accepts its symbol field (R107, R201). -/
def HeaderItem.legal : HeaderItem → Bool
  | .fork     => true
  | .leaf sym => sym.toNat ≤ Config.pseudoEof

/-- The bits of some nodes, one after the other. -/
def itemBits (items : List HeaderItem) : List Bool := items.flatMap HeaderItem.bits

/-- With `n` subtrees to read, these nodes begin them and do not complete them: an internal node opens one subtree more, a leaf
completes one (R201). -/
def unfinished : Nat → List HeaderItem → Bool
  | 0, _                      => false
  | _ + 1, []                 => true
  | n + 1, .fork :: items     => unfinished (n + 2) items
  | n + 1, .leaf _ :: items   => unfinished n items

/-- How the read of a header can stop with `used` nodes read and the bits `tail` left: no kind bit, no room for a node, no whole
symbol field, a symbol field above 256 (R201). -/
def StopsAt (used : Nat) (tail : List Bool) : Prop :=
  tail = [] ∨ (used = Config.nodeCap ∧ tail ≠ []) ∨
  (used < Config.nodeCap ∧ ∃ rest, tail = true :: rest ∧ rest.length < 9) ∨
  (used < Config.nodeCap ∧ ∃ (v : Sym) (rest : List Bool), tail = true :: (bin 9 v ++ rest) ∧ Config.pseudoEof < v.toNat)

/-- A leaf with its path from the root: `false` for a left-child edge, `true` for a right-child edge (R110). -/
structure LeafCode where
  sym    : Sym
  weight : Word
  path   : List Bool
  deriving DecidableEq, Repr

/-- The leaf one edge further from the root. -/
def LeafCode.under (edge : Bool) (c : LeafCode) : LeafCode := { c with path := edge :: c.path }

/-- The leaves with their paths (R110). -/
def Tree.codes : Tree → List LeafCode
  | .leaf sym w => [{ sym := sym, weight := w, path := [] }]
  | .fork _ l r => l.codes.map (LeafCode.under false) ++ r.codes.map (LeafCode.under true)

/-- The code-table entry of a path: its length, and the path read as a number, first edge most significant (R110). -/
def entryOf (path : List Bool) : CodeEntry :=
  { valid := true, len := BitVec.ofNat 9 path.length, val := BitVec.ofNat 256 (ofBits 0 path) }

/-- The bit string of a code-table entry: `bin_len(val)` (R10, R61). -/
def codeString (c : CodeEntry) : List Bool := bin c.len.toNat (c.val.setWidth c.len.toNat)

/-- The tree a walk of at most `depth` nodes down from `i` meets; none when it leaves the allocated nodes or goes deeper. -/
def treeAt (s : State) : Nat → NodeIx → Option Tree
  | 0, _ => none
  | depth + 1, i =>
    match walkNode s i with
    | none                   => none
    | some (.leaf sym w)     => some (.leaf sym w)
    | some (.internal w l r) =>
      match treeAt s depth l, treeAt s depth r with
      | some a, some b => some (.fork w a b)
      | _, _           => none

/-- The tree the node store holds at `root`, no path longer than `MAX_CODE_LEN` (R33, R154). -/
def storedTree (s : State) : Option Tree := treeAt s (Config.maxCodeLen + 1) s.root

/-! ### Streams and tables -/

/-- The bits of IN, in stream order (R71). -/
def inBits (s : State) : List Bool := (List.range (8 * s.inBytes.length)).map (inBit s.inBytes)

/-- The bits of IN from the current position on. -/
def unread (s : State) : List Bool := (inBits s).drop s.inPos

/-- How often the symbol `k` occurs among the bytes. -/
def occurrences (bytes : List Byte) (k : Nat) : Nat := (bytes.map BitVec.toNat).count k

/-- The sum of all 257 counts. -/
def freqTotal (s : State) : Nat := ((List.range Config.alphabetSize).map fun k => (freqAt s k).toNat).sum

/-- The body of a container for `bytes`, with the codes the code table holds (R109). -/
def bodyBits (s : State) (bytes : List Byte) : List Bool :=
  bytes.flatMap (fun b => codeString (codeAt s b.toNat)) ++ codeString (codeAt s Config.pseudoEof)

/-- The symbols with a nonzero count, ascending (R152, R156). -/
def countedSyms (s : State) : List Nat := (List.range Config.alphabetSize).filter fun k => freqAt s k ≠ 0

/-- A leaf for each of them, with its count (R152). -/
def countedLeaves (s : State) : List Node := (countedSyms s).map fun k => .leaf (BitVec.ofNat 9 k) (freqAt s k)

/-- `t` is a tree BUILD makes from the counts in FREQ (R152 to R156): its root is internal, no two leaves share a symbol, its leaves of
weight at least 1 are the symbols with a nonzero count with their counts, and the weights add up. -/
def BuiltFor (s : State) (t : Tree) : Prop :=
  t.isFork = true ∧ (t.codes.map LeafCode.sym).Nodup ∧
    (t.leaves.filter fun n => n.weight ≠ 0).Perm (countedLeaves s) ∧ t.weightsAdd = true

/-- The paths of some leaves, one after the other. -/
def pathBits (cs : List LeafCode) : List Bool := cs.flatMap LeafCode.path

/-- The bytes that some leaves' symbols are. -/
def literals (cs : List LeafCode) : List Byte := cs.map fun c => BitVec.setWidth 8 c.sym

/-- Leaves of `t` that carry a literal byte, not the EOF. -/
def AllLiteral (t : Tree) (cs : List LeafCode) : Prop := ∀ c ∈ cs, c ∈ t.codes ∧ c.sym.toNat ≠ Config.pseudoEof

/-- Every one of the bytes has a valid entry in the code table. -/
def AllCoded (s : State) (bytes : List Byte) : Prop := ∀ b ∈ bytes, (codeAt s b.toNat).valid = true

/-- The codes of some bytes, one after the other. -/
def codesOf (s : State) (bytes : List Byte) : List Bool := bytes.flatMap fun b => codeString (codeAt s b.toNat)

/-- The nodes of `t` stand in `ns` from index `n` on in pre-order (R202). -/
def PlacedAt (ns : List (Nat × Node)) (t : Tree) (n : Nat) : Prop :=
  ∀ j, j < t.size → memGet nodeDefault ns (n + j) = (t.preorder n).getD j nodeDefault

/-- The tag and the tree header of a container, and its body (R104). -/
def container (tag : Word) (t : Tree) (body : List Bool) : List Bool := bin 32 tag ++ (t.header ++ body)

/-- The zero bits that bring a stream of `n` bits to a byte boundary (R78). -/
def padTo8 (n : Nat) : List Bool := List.replicate ((8 - n % 8) % 8) false

/-! ### How a command ends -/

/-- The fields a completion without an error writes (R27, R131). -/
def State.completed (s : State) : State := { s with done := true, err := false, pending := none }

/-- The fields a completion with an error writes, apart from the flags (R131). -/
def State.failedWith (code : Nibble) (info : Word) (step : Nibble) (s : State) : State :=
  { s with done := true, err := true, errCode := code, errInfo := info, errStep := step, pending := none }

/-- The five flags 0, as after an execution-time error (R233). -/
def State.flagless (s : State) : State :=
  { s with freqV := false, treeV := false, codeV := false, hdrV := false, treeSrc := false }

/-- The protocol fields of STATUS and ERRINFO, which completion and acceptance write (R130, R131). -/
def State.withProtocolOf (s t : State) : State :=
  { s with
    pending := t.pending, done := t.done, err := t.err, ign := t.ign, errCode := t.errCode, lastOp := t.lastOp,
    errStep := t.errStep, errInfo := t.errInfo }

/-- A host program that issues component commands one by one and stops at the first error (R114, R115): each is accepted by a CMD
write and then completes. -/
def runSequence : List Instr → State → Host.Outcome State Fault Refusal
  | [], s => .next s
  | i :: rest, s =>
    match exec i (memWrite 0x00 4 (encode i) s) with
    | .next t    => if t.err then .next t else runSequence rest t
    | .fault f   => .fault f
    | .refused r => .refused r

/-- The same outcome with LAST_OP `op`. -/
def withLastOp (op : Nibble) : Host.Outcome State Fault Refusal → Host.Outcome State Fault Refusal
  | .next t    => .next { t with lastOp := op }
  | .fault f   => .fault f
  | .refused r => .refused r

/-! ### The order of the merges -/

/-- R153's order: "the smallest pair (weight(i), i)". -/
def Before (s : State) (i j : NodeIx) : Prop :=
  (nodeAt s i).weight < (nodeAt s j).weight ∨ ((nodeAt s i).weight = (nodeAt s j).weight ∧ i < j)

/-- Index `i` is in the active set just before node `k` is allocated: it is allocated, and none of the nodes from index `leaves` up to
`k` has it as a child (R152: a merge takes its two children out and puts its own node in). -/
def ActiveAt (s : State) (leaves k : Nat) (i : NodeIx) : Prop :=
  i.toNat < k ∧ ∀ j : NodeIx, leaves ≤ j.toNat → j.toNat < k → ∀ w l r, nodeAt s j = .internal w l r → i ≠ l ∧ i ≠ r

/-- Node `k` joins the two first nodes of the active set, in order, under the sum of their weights (R152, R153). -/
def JoinsFirstTwo (s : State) (leaves : Nat) (k : NodeIx) : Prop :=
  ∃ a b : NodeIx, nodeAt s k = .internal ((nodeAt s a).weight + (nodeAt s b).weight) a b ∧ a ≠ b ∧
    ActiveAt s leaves k.toNat a ∧ ActiveAt s leaves k.toNat b ∧
    (∀ x, ActiveAt s leaves k.toNat x → x ≠ a → Before s a x) ∧
    (∀ x, ActiveAt s leaves k.toNat x → x ≠ a → x ≠ b → Before s b x)

/-- The allocated nodes are those BUILD makes over the counts in FREQ: the counted symbols' leaves, in symbol order, then each merge of
the two first nodes of the active set; a single leaf is wrapped (R152, R153, R155, R156). -/
def AllocatedAsBuilt (s : State) : Prop :=
  (∀ j sym, (countedSyms s)[j]? = some sym → nodeAt s (BitVec.ofNat 10 j) = .leaf (BitVec.ofNat 9 sym) (freqAt s sym)) ∧
  (2 ≤ (countedSyms s).length → ∀ k : NodeIx, (countedSyms s).length ≤ k.toNat → k.toNat < 2 * (countedSyms s).length - 1 →
    JoinsFirstTwo s (countedSyms s).length k) ∧
  (∀ sym, countedSyms s = [sym] →
    nodeAt s 1 = .leaf (if sym = 0 then 1 else 0) 0 ∧ nodeAt s 2 = .internal (freqAt s sym) 0 1)

/-! ### The invariant -/

/-- What every state of a run satisfies. -/
structure Inv (s : State) : Prop where
  /-- The three memories are in canonical form. -/
  freqWf  : memWf freqDefault Config.alphabetSize s.freq = true
  nodesWf : memWf nodeDefault Config.nodeCap s.nodes = true
  codesWf : memWf codeDefault Config.alphabetSize s.codes = true
  /-- `0 ≤ p ≤ 8·|B|` (R64). -/
  inPosOk : s.inPos ≤ 8 * s.inBytes.length
  /-- NODE_COUNT is "from 0 to 513" (R47, R60). -/
  nodeCountOk : s.nodeCount.toNat ≤ Config.nodeCap
  /-- While BUSY = 1, STATUS and ERRINFO are as acceptance left them (R24, R130). -/
  busyOk : ∀ w, s.pending = some w →
    s.done = false ∧ s.err = false ∧ s.errCode = 0 ∧ s.errStep = 0 ∧ s.errInfo = 0 ∧ s.lastOp = opField w
  /-- "ERR = 1 implies DONE = 1" (R27). -/
  errDone : s.err = true → s.done = true
  /-- "Codes 10 to 15 are never written" (R29). -/
  errCodeOk : s.errCode.toNat ≤ 9
  /-- `TREE_SRC = 1` implies `TREE_V = 1` (R134). -/
  srcTree : s.treeSrc = true → s.treeV = true
  /-- `CODE_V = 1` implies TREE_V = 1, TREE_SRC = 0 and FREQ_V = 1 (R134). -/
  codeTree : s.codeV = true → s.treeV = true ∧ s.treeSrc = false ∧ s.freqV = true
  /-- A built tree is "built from the current FREQ" (R134). -/
  builtFreq : s.treeV = true → s.treeSrc = false → s.freqV = true ∧ ∃ t, storedTree s = some t ∧ BuiltFor s t
  /-- FREQ_V = 1: the table of the last COUNT, whose bytes IN_COUNT counts (R32, R134, R150, R151). -/
  counted : s.freqV = true →
    freqAt s Config.pseudoEof = 1 ∧ freqTotal s = s.inCount.toNat + 1 ∧ s.inCount.toNat ≤ Config.countMax.toNat
  /-- TREE_V = 1: "the node store holds a complete tree rooted at root" (R33) of at most 257 leaves (R8). -/
  treeStored : s.treeV = true → ∃ t, storedTree s = some t ∧ t.leaves.length ≤ Config.alphabetSize
  /-- CODE_V = 1: "CODE holds the code table of the current built tree" (R34). -/
  coded : s.codeV = true → walkCodes s (Config.maxCodeLen + 1) s.root 0 0 [] = some s.codes

end Sys2Proof.Machine
end

