-- ==== Sys2Proof/Certificates/Slice0/Obligations.lean ====
section
/-! DEFINITION. The statements for the provers, one definition each. `exec i s` is the completion of command `i` in the state `s`
(40_control R131); what a statement does not name in a next state written as an update of `s` is unchanged: that is its frame. After
an execution-time error 93 I1 leaves the contents of FREQ, NODE and CODE open; a statement that gives them there gives the model's
choice, which is what R237 makes of the pseudocode (log 16). -/

set_option autoImplicit false

open Sys2Proof Sys2Proof.Machine

/-! ### Command words -/

/-- R101: the words of the eleven commands. -/
def Obligations.CommandWords : Prop :=
  decodeWord 0x00000000#32 = .ok .nop ∧ decodeWord 0x00000001#32 = .ok .clear ∧ decodeWord 0x00000002#32 = .ok .count ∧
  decodeWord 0x00000003#32 = .ok .build ∧ decodeWord 0x00000004#32 = .ok .gencode ∧ decodeWord 0x00000005#32 = .ok .writeHeader ∧
  decodeWord 0x00000006#32 = .ok .encode ∧ decodeWord 0x00000007#32 = .ok .compress ∧ decodeWord 0x00000008#32 = .ok .readHeader ∧
  decodeWord 0x00000009#32 = .ok .decodeBody ∧ decodeWord 0x0000000A#32 = .ok .decompress

/-- R103: the decoder reads a command from its own word and from no other of the 2^32 words. -/
def Obligations.DecodeIffEncode : Prop := ∀ (w : Word) (i : Instr), decodeWord w = .ok i ↔ w = encode i

/-- R102: a word with OP 0xB to 0xF or a nonzero RSV is accepted like any other, completes with ILLEGAL_CMD, the whole word in
ERRINFO, and changes nothing else; every other word is a command's. -/
def Obligations.IllegalCommand : Prop :=
  ∀ (s : State) (w : Word),
    (0xB ≤ w.toNat % 16 ∨ w.toNat / 16 ≠ 0 →
      (s.busy = false → (memWrite 0x00 4 w s).pending = some w) ∧
      (s.pending = some w → nextAgent s = .block →
        step s = .next (State.failedWith 8 w (w.extractLsb' 0 4) { s with schedule := s.schedule.tail }))) ∧
    (¬ (0xB ≤ w.toNat % 16 ∨ w.toNat / 16 ≠ 0) → ∃ i, decodeWord w = .ok i)

/-- R131, R132: when the block moves, the pending word's command runs; with nothing pending the block stays as it is (R249). -/
def Obligations.StepRunsPendingCommand : Prop :=
  ∀ s : State, nextAgent s = .block →
    (∀ w i, s.pending = some w → decodeWord w = .ok i → step s = exec i { s with schedule := s.schedule.tail }) ∧
    (s.pending = none → step s = .next { s with schedule := s.schedule.tail })

/-- What `withFetchWord` is for (log 7): the very next step is the completion of the command whose word it places. -/
def Obligations.WithFetchWordRunsIt : Prop :=
  ∀ (s : State) (i : Instr), step (s.withFetchWord 32 (encode i).toNat) = exec i
    { s with pending := some (encode i), done := false, err := false, ign := false, errCode := 0, errStep := 0,
             lastOp := (encode i).extractLsb' 0 4, errInfo := 0 }

/-! ### The protocol and the register window -/

/-- R130: what acceptance writes, and nothing else; `irq` falls. -/
def Obligations.Acceptance : Prop :=
  ∀ (s : State) (w : Word), s.busy = false →
    memWrite 0x00 4 w s =
      { s with pending := some w, done := false, err := false, ign := false, errCode := 0, errStep := 0,
               lastOp := w.extractLsb' 0 4, errInfo := 0 } ∧
    (memWrite 0x00 4 w s).busy = true ∧ (memWrite 0x00 4 w s).irq = false

/-- R137: a CMD write while BUSY = 1 sets IGN and changes nothing else. -/
def Obligations.CmdWhileBusy : Prop :=
  ∀ (s : State) (w : Word), s.busy = true → memWrite 0x00 4 w s = { s with ign := true }

/-- R37: a write to STATUS; in every state of a run, only `w[3]` has an effect while BUSY = 1. -/
def Obligations.StatusWrite : Prop :=
  ∀ (s : State) (w : Word),
    memWrite 0x04 4 w s =
      { s with done := if w.getLsbD 1 then false else s.done, err := if w.getLsbD 1 then false else s.err,
               ign := if w.getLsbD 3 then false else s.ign } ∧
    (Inv s → s.busy = true → memWrite 0x04 4 w s = { s with ign := if w.getLsbD 3 then false else s.ign })

/-- R81: an access of 1 or 2 bytes, at an offset that is no multiple of 4, or at 0x80 and above reads 0 and writes nothing. -/
def Obligations.NonActingAccesses : Prop :=
  ∀ (s : State) (addr width : Nat) (w : Word), (width = 1 ∨ width = 2 ∨ addr % 4 ≠ 0 ∨ 0x80 ≤ addr) →
    memRead addr width s = 0 ∧ memWrite addr width w s = s

/-- R55: the reserved offsets. -/
def Obligations.ReservedOffsets : Prop :=
  ∀ (s : State) (addr : Nat) (w : Word), 0x4C ≤ addr → addr ≤ 0x7C → memRead addr 4 s = 0 ∧ memWrite addr 4 w s = s

/-- R21, R82: a write to a read-only register has no effect. -/
def Obligations.ReadOnlyRegisters : Prop :=
  ∀ (s : State) (w : Word), ∀ addr ∈ [0x08, 0x10, 0x14, 0x18, 0x1C, 0x20, 0x24, 0x28, 0x2C, 0x34, 0x38, 0x3C, 0x40, 0x44, 0x48],
    memWrite addr 4 w s = s

/-- R39, R48: writes to IRQ_EN and IDX store the value of their fields at once, busy or not, and reserved bits read 0; both
read 0 after reset. -/
def Obligations.IrqEnAndIdx : Prop :=
  ∀ (s : State) (w : Word),
    memWrite 0x0C 4 w s = { s with ie := w.getLsbD 0 } ∧
    memRead 0x0C 4 s = (if s.ie then 1 else 0) ∧
    (memWrite 0x0C 4 w s).irq = (w.getLsbD 0 && s.done) ∧
    memWrite 0x30 4 w s = { s with index := w.extractLsb' 0 10, wsel := w.extractLsb' 16 3 } ∧
    (memRead 0x30 4 s).toNat = s.index.toNat + 2 ^ 16 * s.wsel.toNat ∧
    memRead 0x0C 4 State.reset = 0 ∧ memRead 0x30 4 State.reset = 0

/-- R24: where STATUS shows its fields, what it shows while BUSY = 1, and that it is 0 after reset. -/
def Obligations.StatusFields : Prop :=
  memRead 0x04 4 State.reset = 0 ∧ ∀ s : State,
    (s.busy = false →
      memRead 0x04 4 s &&& 0x0000000F = (if s.done then 2 else 0) + (if s.err then 4 else 0) + (if s.ign then 8 else 0) ∧
      (memRead 0x04 4 s).extractLsb' 4 4 = s.errCode ∧ (memRead 0x04 4 s).extractLsb' 8 4 = s.lastOp ∧
      (memRead 0x04 4 s).extractLsb' 12 4 = s.errStep ∧ (memRead 0x04 4 s).getLsbD 16 = s.freqV ∧
      (memRead 0x04 4 s).getLsbD 17 = s.treeV ∧ (memRead 0x04 4 s).getLsbD 18 = s.codeV ∧
      (memRead 0x04 4 s).getLsbD 19 = s.hdrV ∧ (memRead 0x04 4 s).getLsbD 20 = s.treeSrc ∧
      (memRead 0x04 4 s).extractLsb' 21 11 = 0) ∧
    (∀ w, s.pending = some w →
      (memRead 0x04 4 s).toNat = 1 + (if s.ign then 8 else 0) + 2 ^ 8 * (w.toNat % 16))

/-- R56: what reads give while BUSY = 1. -/
def Obligations.BusyReads : Prop :=
  ∀ s : State, s.busy = true →
    (∀ w, s.pending = some w → (memRead 0x04 4 s).toNat = 1 + (if s.ign then 8 else 0) + 2 ^ 8 * (w.toNat % 16)) ∧
    memRead 0x10 4 s = s.params.huffTag ∧ memRead 0x0C 4 s = (if s.ie then 1 else 0) ∧
    (memRead 0x30 4 s).toNat = s.index.toNat + 2 ^ 16 * s.wsel.toNat ∧
    ∀ addr, addr ≠ 0x04 → addr ≠ 0x0C → addr ≠ 0x10 → addr ≠ 0x30 → memRead addr 4 s = 0

/-- R23, R38, R40 to R47: the control and result registers read their values while BUSY = 0. -/
def Obligations.ResultRegisters : Prop :=
  ∀ s : State, s.busy = false →
    memRead 0x00 4 s = 0 ∧ memRead 0x08 4 s = s.errInfo ∧ memRead 0x10 4 s = s.params.huffTag ∧
    memRead 0x14 4 s = s.inCount ∧ memRead 0x18 4 s = s.encCount ∧ memRead 0x1C 4 s = s.decCount ∧
    memRead 0x20 4 s = s.outBits ∧ memRead 0x24 4 s = s.hdrBits ∧
    (memRead 0x28 4 s).toNat = (if s.treeV then s.root.toNat else 0) ∧ (memRead 0x2C 4 s).toNat = s.nodeCount.toNat

/-- R49, R50, R51: FREQ_DATA, CODE_INFO and CODE_DATA, while BUSY = 0 (R56); FREQ_DATA is 0 after reset. -/
def Obligations.FreqAndCodeWindow : Prop :=
  memRead 0x34 4 State.reset = 0 ∧ ∀ s : State, s.busy = false →
    memRead 0x34 4 s = (if s.freqV ∧ s.index.toNat ≤ 256 then freqAt s s.index.toNat else 0) ∧
    (s.codeV = true ∧ s.index.toNat ≤ 256 ∧ (codeAt s s.index.toNat).valid = true →
      (memRead 0x38 4 s).toNat = 2 ^ 31 + (codeAt s s.index.toNat).len.toNat ∧
      (memRead 0x3C 4 s).toNat = (codeAt s s.index.toNat).val.toNat / 2 ^ (32 * s.wsel.toNat) % 2 ^ 32) ∧
    (¬ (s.codeV = true ∧ s.index.toNat ≤ 256 ∧ (codeAt s s.index.toNat).valid = true) →
      memRead 0x38 4 s = 0 ∧ memRead 0x3C 4 s = 0)

/-- R52, R53, R54: NODE_INFO, NODE_WEIGHT and NODE_LINK, while BUSY = 0 (R56). -/
def Obligations.NodeWindow : Prop :=
  ∀ s : State, s.busy = false →
    (∀ sym w, s.treeV = true → s.index < s.nodeCount → nodeAt s s.index = .leaf sym w →
      (memRead 0x40 4 s).toNat = 2 ^ 31 + 2 ^ 30 + sym.toNat ∧ memRead 0x44 4 s = w ∧ memRead 0x48 4 s = 0) ∧
    (∀ w l r, s.treeV = true → s.index < s.nodeCount → nodeAt s s.index = .internal w l r →
      (memRead 0x40 4 s).toNat = 2 ^ 31 ∧ memRead 0x44 4 s = w ∧ (memRead 0x48 4 s).toNat = l.toNat + 2 ^ 16 * r.toNat) ∧
    (¬ (s.treeV = true ∧ s.index < s.nodeCount) → memRead 0x40 4 s = 0 ∧ memRead 0x44 4 s = 0 ∧ memRead 0x48 4 s = 0)

/-- R113, R82, R64, R65, R92: the host's moves. A read changes no state of the block; a stream is moved only while BUSY = 0 and
a position only within IN, and the model has no such step otherwise (log 8). Three clauses are the model's choice: with no instruction
left the host's move changes nothing but the schedule (log 6); a POLL is one read a step and stays until its condition holds (log 7); an
RD puts the word it read in front of `reads` (log 7). -/
def Obligations.HostMoves : Prop :=
  ∀ (s : State) (rest : List HostInstr), nextAgent s = .host →
    (s.host = [] → step s = .next { s with schedule := s.schedule.tail }) ∧
    (∀ addr width v, s.host = .wr addr width v :: rest →
      step s = .next (memWrite addr width v { s with host := rest, schedule := s.schedule.tail })) ∧
    (∀ addr width, s.host = .rd addr width :: rest →
      step s = .next { s with host := rest, reads := memRead addr width s :: s.reads, schedule := s.schedule.tail }) ∧
    (∀ addr mask value, s.host = .poll addr mask value :: rest →
      step s = .next (if memRead addr 4 s &&& mask = value then { s with host := rest, schedule := s.schedule.tail }
        else { s with schedule := s.schedule.tail })) ∧
    (∀ bytes pos, s.host = .setIn bytes pos :: rest → pos ≤ 8 * bytes.length → s.busy = false →
      step s = .next { s with inBytes := bytes, inPos := pos, host := rest, schedule := s.schedule.tail }) ∧
    (∀ pos, s.host = .seekIn pos :: rest → pos ≤ 8 * s.inBytes.length → s.busy = false →
      step s = .next { s with inPos := pos, host := rest, schedule := s.schedule.tail }) ∧
    (∀ bits, s.host = .setOut bits :: rest → s.busy = false →
      step s = .next { s with out := bits, host := rest, schedule := s.schedule.tail }) ∧
    (∀ bytes pos, s.host = .setIn bytes pos :: rest → pos ≤ 8 * bytes.length → s.busy = true →
      step s = .refused .streamMovedWhileBusy) ∧
    (∀ pos, s.host = .seekIn pos :: rest → pos ≤ 8 * s.inBytes.length → s.busy = true →
      step s = .refused .streamMovedWhileBusy) ∧
    (∀ bits, s.host = .setOut bits :: rest → s.busy = true → step s = .refused .streamMovedWhileBusy) ∧
    (∀ bytes pos, s.host = .setIn bytes pos :: rest → 8 * bytes.length < pos → step s = .refused .positionOutsideStream) ∧
    (∀ pos, s.host = .seekIn pos :: rest → 8 * s.inBytes.length < pos → step s = .refused .positionOutsideStream)

/-- R66, R238: `irq` is IE and DONE: every completion raises it when IE = 1; acceptance, the W1C write, IE = 0 and reset lower it. -/
def Obligations.InterruptLine : Prop :=
  (∀ s : State, s.irq = (s.ie && s.done)) ∧
  (∀ s t : State, s.pending ≠ none → nextAgent s = .block → step s = .next t → t.irq = s.ie) ∧
  (∀ (s : State) (w : Word), s.busy = false → (memWrite 0x00 4 w s).irq = false) ∧
  (∀ (s : State) (w : Word), w.getLsbD 1 = true → (memWrite 0x04 4 w s).irq = false) ∧
  (∀ (s : State) (w : Word), (memWrite 0x0C 4 w s).irq = (w.getLsbD 0 && s.done)) ∧
  (∀ s t : State, nextAgent s = .reset → step s = .next t → t.irq = false)

/-- R25, R249: BUSY is 0 after reset; it rises by the acceptance of a CMD write and by nothing else, and falls by completion and by
reset and by nothing else. -/
def Obligations.BusyChanges : Prop :=
  State.reset.busy = false ∧ (∀ (s : State) (w : Word), s.busy = false → (memWrite 0x00 4 w s).busy = true) ∧
  ∀ s t : State, step s = .next t →
    (s.busy = false → t.busy = true →
      nextAgent s = .host ∧ ∃ w rest, s.host = .wr 0x00 4 w :: rest ∧ t.pending = some w) ∧
    (s.busy = true → t.busy = false → nextAgent s = .block ∨ nextAgent s = .reset) ∧
    (nextAgent s = .block ∨ nextAgent s = .reset → t.busy = false)

/-- R7, R20: the two OPEN parameters are no state: no step changes them. -/
def Obligations.ParametersFixed : Prop := ∀ s t : State, step s = .next t → t.params = s.params

/-! ### Reset -/

/-- R271: the state after reset, as the registers show it. -/
def Obligations.ResetValues : Prop :=
  State.reset.pending = none ∧ State.reset.irq = false ∧ State.reset.nodeCount = 0 ∧ State.reset.root = 0 ∧
  ∀ addr, memRead addr 4 State.reset = if addr = 0x10 then State.reset.params.huffTag else 0

/-- R270, R272, R273: reset at any time. The contents of FREQ, NODE and CODE that it leaves are the model's choice (log 2), and so are
the free values it takes after cutting off a command (log 5). -/
def Obligations.ResetMove : Prop :=
  ∀ s : State, nextAgent s = .reset →
    ∃ out pos draws,
      step s = .next { State.reset with
        params := s.params, inBytes := s.inBytes, inPos := pos, out := out, host := s.host, reads := s.reads,
        schedule := s.schedule.tail, draws := draws } ∧
      (s.busy = false → out = s.out ∧ pos = s.inPos) ∧
      (s.busy = true → pos ≤ 8 * s.inBytes.length ∧ s.out <+: out ∧
        ∀ t, blockMove { s with schedule := s.schedule.tail } = .next t → out <+: t.out)

/-! ### The streams -/

/-- R71, R72, R76: the first bit of a byte is its bit 7, on both streams. -/
def Obligations.StreamPacking : Prop :=
  (∀ s : State, inBits s = s.inBytes.flatMap (bin 8)) ∧
  (∀ (bits : List Bool) (j : Nat), j < bits.length / 8 → bin 8 (outByte bits j) = (bits.drop (8 * j)).take 8) ∧
  (∀ bits : List Bool, (outBytes bits).length = bits.length / 8) ∧
  (∀ bytes : List Byte, outBytes (bytes.flatMap (bin 8)) = bytes)

/-- R74: `InRead(n)`. After `NO_DATA` the position is a free value between `p` and `8·|B|` (log 4). -/
def Obligations.InReadRule : Prop :=
  ∀ (n : Nat) (s : State), 1 ≤ n → n ≤ 32 → s.inPos ≤ 8 * s.inBytes.length →
    (8 * s.inBytes.length < s.inPos + n →
      ∃ pos draws, inRead n s = (none, { s with inPos := pos, draws := draws }) ∧ s.inPos ≤ pos ∧ pos ≤ 8 * s.inBytes.length) ∧
    (s.inPos + n ≤ 8 * s.inBytes.length →
      ∃ v : BitVec n, bin n v = ((inBits s).drop s.inPos).take n ∧ inRead n s = (some v, { s with inPos := s.inPos + n }))

/-- R77, R78: `OutWrite` and `OutFlush`. -/
def Obligations.OutRules : Prop :=
  (∀ (n : Nat) (v : BitVec n) (s : State),
    outWrite n v s = { s with out := s.out ++ bin n v, outBits := s.outBits + BitVec.ofNat 32 n }) ∧
  (∀ s : State, outFlush s = { s with out := s.out ++ padTo8 s.out.length } ∧ (outFlush s).out.length % 8 = 0)

/-! ### Preconditions and the control commands -/

/-- R133, R235: SEQUENCE with the missing mask and nothing else changed, and SEQUENCE in no other case. -/
def Obligations.SequenceErrors : Prop :=
  ∀ s : State,
    (s.freqV = false → exec .build s = .next (State.failedWith 9 0x01 0x3 s)) ∧
    (s.treeV = false → s.treeSrc = false → exec .gencode s = .next (State.failedWith 9 0x02 0x4 s)) ∧
    (s.treeV = true → s.treeSrc = true → exec .gencode s = .next (State.failedWith 9 0x10 0x4 s)) ∧
    (s.treeV = false → s.treeSrc = true → exec .gencode s = .next (State.failedWith 9 0x12 0x4 s)) ∧
    (s.treeV = false → exec .writeHeader s = .next (State.failedWith 9 0x02 0x5 s)) ∧
    (s.codeV = false → exec .encode s = .next (State.failedWith 9 0x04 0x6 s)) ∧
    (s.treeV = false → exec .decodeBody s = .next (State.failedWith 9 0x02 0x9 s)) ∧
    (∀ i t, exec i s = .next t → t.err = true → t.errCode = 9 →
      (i = .build ∧ s.freqV = false) ∨ (i = .gencode ∧ (s.treeV = false ∨ s.treeSrc = true)) ∨
      ((i = .writeHeader ∨ i = .decodeBody) ∧ s.treeV = false) ∨ (i = .encode ∧ s.codeV = false))

/-- R135: NOP writes the completion fields and nothing else. -/
def Obligations.NopResult : Prop := ∀ s : State, exec .nop s = .next s.completed

/-- R136: CLEAR. -/
def Obligations.ClearResult : Prop :=
  ∀ s : State, exec .clear s = .next (State.completed
    { s with freqV := false, treeV := false, codeV := false, hdrV := false, treeSrc := false, nodeCount := 0, root := 0,
             inCount := 0, encCount := 0, decCount := 0, outBits := 0, hdrBits := 0 })

/-! ### The encoder -/

/-- R150: COUNT, on an IN of at most `COUNT_MAX` = 2^32 − 2 bytes, and on a longer one. That NODE and CODE keep
their contents after that error is the model's choice (log 16). -/
def Obligations.CountResult : Prop :=
  ∀ s : State,
    (s.inBytes.length ≤ 2 ^ 32 - 2 →
      ∃ f, exec .count s = .next (State.completed
          { s with freq := f, inCount := BitVec.ofNat 32 s.inBytes.length, inPos := 8 * s.inBytes.length,
                   freqV := true, treeV := false, codeV := false, hdrV := false, treeSrc := false }) ∧
        (∀ k, k ≤ 255 → (memGet freqDefault f k).toNat = (s.inBytes.map BitVec.toNat).count k) ∧
        memGet freqDefault f 256 = 1 ∧ memWf freqDefault 257 f = true) ∧
    (2 ^ 32 - 2 < s.inBytes.length →
      ∃ f, exec .count s = .next (State.failedWith 5 0xFFFFFFFE 0x2 (State.flagless
        { s with freq := f, inCount := 0xFFFFFFFE, inPos := 8 * (2 ^ 32 - 1) })))

/-- R152, R153, R155, R156: BUILD over L ≥ 2 counted symbols: their leaves first, in symbol order, then L − 1 joins, each of the two
first nodes of the active set; and over one counted symbol, whose leaf is wrapped. In the states of a run L is not 0 and no sum of
counts overflows. The entries from `node_count` on are UnallocatedNodesKept's (log 16). -/
def Obligations.BuildResult : Prop :=
  ∀ s : State, s.freqV = true →
    (2 ≤ (countedSyms s).length →
      ∃ ns t, exec .build s = .next t ∧
        t = State.completed { s with
          nodes := ns, nodeCount := BitVec.ofNat 10 (2 * (countedSyms s).length - 1),
          root := BitVec.ofNat 10 (2 * (countedSyms s).length - 2), treeV := true, treeSrc := false, codeV := false, hdrV := false } ∧
        (∀ j sym, (countedSyms s)[j]? = some sym →
          nodeAt t (BitVec.ofNat 10 j) = .leaf (BitVec.ofNat 9 sym) (freqAt s sym)) ∧
        (∀ k : NodeIx, (countedSyms s).length ≤ k.toNat → k.toNat < 2 * (countedSyms s).length - 1 →
          JoinsFirstTwo t (countedSyms s).length k)) ∧
    (∀ sym, countedSyms s = [sym] →
      ∃ ns t, exec .build s = .next t ∧
        t = State.completed { s with
          nodes := ns, nodeCount := 3, root := 2, treeV := true, treeSrc := false, codeV := false, hdrV := false } ∧
        nodeAt t 0 = .leaf (BitVec.ofNat 9 sym) (freqAt s sym) ∧ nodeAt t 1 = .leaf (if sym = 0 then 1 else 0) 0 ∧
        nodeAt t 2 = .internal (freqAt s sym) 0 1) ∧
    (Inv s → countedSyms s ≠ [] ∧ freqTotal s = s.inCount.toNat + 1 ∧ freqTotal s ≤ 2 ^ 32 - 1)

/-- R154, R8: what BUILD leaves is one full binary tree over all allocated nodes, within the bounds. -/
def Obligations.BuildTree : Prop :=
  ∀ s : State, s.freqV = true → countedSyms s ≠ [] →
    ∃ u t, exec .build s = .next u ∧ storedTree u = some t ∧ BuiltFor u t ∧ t.size = u.nodeCount.toNat ∧
      t.size ≤ 513 ∧ t.depth ≤ 256 ∧ (2 ≤ (countedSyms s).length →
        t.size = 2 * (countedSyms s).length - 1 ∧ t.depth ≤ (countedSyms s).length - 1) ∧
      ((countedSyms s).length = 1 → t.size = 3 ∧ t.depth = 1)

/-- R152, R13: in every state of a run "weights cannot overflow": the root's weight is IN_COUNT + 1, exactly. -/
def Obligations.WeightsExact : Prop :=
  ∀ s : State, Inv s → s.freqV = true →
    ∃ t, exec .build s = .next t ∧ (nodeAt t t.root).weight.toNat = s.inCount.toNat + 1

/-- R157: BUILD is a function of FREQ alone, COUNT of the bytes of IN alone, and a container of the bytes of IN (and of the tag). -/
def Obligations.BuildDeterminism : Prop :=
  (∀ s u t v : State, s.freqV = true → u.freqV = true → s.freq = u.freq → exec .build s = .next t → exec .build u = .next v →
    t.nodeCount = v.nodeCount ∧ t.root = v.root ∧ ∀ i : NodeIx, i < t.nodeCount → nodeAt t i = nodeAt v i) ∧
  (∀ s u t v : State, s.inBytes = u.inBytes → s.inBytes.length ≤ 2 ^ 32 - 2 → exec .count s = .next t → exec .count u = .next v →
    t.freq = v.freq ∧ t.inCount = v.inCount) ∧
  (∀ s u t v : State, s.inBytes = u.inBytes → s.params = u.params → s.inBytes.length ≤ 2 ^ 32 - 2 →
    exec .compress s = .next t → exec .compress u = .next v →
    t.codes = v.codes ∧ storedTree t = storedTree v ∧
    ∃ bits, t.out = s.out ++ bits ++ padTo8 (s.out.length + bits.length) ∧
      v.out = u.out ++ bits ++ padTo8 (u.out.length + bits.length))

/-- R158, R110: GENCODE on a built tree: one entry for each leaf of weight at least 1, its path; no entry for any other symbol. -/
def Obligations.GencodeResult : Prop :=
  ∀ (s : State) (t : Tree), s.treeV = true → s.treeSrc = false → storedTree s = some t → BuiltFor s t →
    ∃ codes, exec .gencode s = .next (State.completed { s with codes := codes, codeV := true }) ∧
      (∀ c ∈ t.codes, c.weight ≠ 0 →
        memGet codeDefault codes c.sym.toNat =
          { valid := true, len := BitVec.ofNat 9 c.path.length, val := BitVec.ofNat 256 (ofBits 0 c.path) } ∧
        1 ≤ c.path.length ∧ c.path.length ≤ 256) ∧
      (∀ k, k ≤ 256 → freqAt s k = 0 → memGet codeDefault codes k = { valid := false, len := 0, val := 0 }) ∧
      memWf codeDefault 257 codes = true

/-- R159: every code GENCODE records is the path to a leaf of its symbol, and no code is a prefix of another. -/
def Obligations.PrefixFree : Prop :=
  ∀ s : State, Inv s → s.treeV = true → s.treeSrc = false →
    ∃ u t, exec .gencode s = .next u ∧ storedTree s = some t ∧
      (∀ k, k ≤ 256 → (codeAt u k).valid = true → ∃ c ∈ t.codes, c.sym.toNat = k ∧ codeString (codeAt u k) = c.path) ∧
      (∀ j k, j ≤ 256 → k ≤ 256 → j ≠ k → (codeAt u j).valid = true → (codeAt u k).valid = true →
        ¬ codeString (codeAt u j) <+: codeString (codeAt u k))

/-- R160, R161, R108: WRITE_HEADER appends the tag and the header of the stored tree, built or deserialized. -/
def Obligations.WriteHeaderResult : Prop :=
  ∀ (s : State) (t : Tree), s.treeV = true → storedTree s = some t →
    exec .writeHeader s = .next (State.completed
      { s with out := s.out ++ bin 32 s.params.huffTag ++ t.header, hdrV := true, hdrBits := BitVec.ofNat 32 t.header.length,
               outBits := s.outBits + BitVec.ofNat 32 (32 + t.header.length) }) ∧
    t.header.length = 11 * t.leaves.length - 1

/-- R163, R164, R166, R109: ENCODE, when IN holds `IN_COUNT` bytes and each has a code, appends the body and pads. -/
def Obligations.EncodeResult : Prop :=
  ∀ s : State, s.codeV = true → s.inBytes.length = s.inCount.toNat → AllCoded s s.inBytes →
    exec .encode s = .next (State.completed
      { s with out := s.out ++ bodyBits s s.inBytes ++ padTo8 (s.out.length + (bodyBits s s.inBytes).length),
               outBits := s.outBits + BitVec.ofNat 32 (bodyBits s s.inBytes).length, encCount := s.inCount,
               inPos := 8 * s.inBytes.length })

/-- R165, R234: the second-pass checks, the length check first; OUT holds the codes emitted so far, unflushed. That FREQ, NODE
and CODE keep their contents after these errors is the model's choice (log 16). -/
def Obligations.EncodeErrors : Prop :=
  ∀ (s : State) (pre post : List Byte) (b : Byte), s.codeV = true → AllCoded s pre →
    (s.inBytes = pre ++ b :: post → pre.length = s.inCount.toNat →
      exec .encode s = .next (State.failedWith 7 (s.inCount + 1) 0x6 (State.flagless
        { s with out := s.out ++ codesOf s pre, outBits := s.outBits + BitVec.ofNat 32 (codesOf s pre).length,
                 encCount := s.inCount, inPos := 8 * (pre.length + 1) }))) ∧
    (s.inBytes = pre → pre.length < s.inCount.toNat →
      exec .encode s = .next (State.failedWith 7 (BitVec.ofNat 32 pre.length) 0x6 (State.flagless
        { s with out := s.out ++ codesOf s pre, outBits := s.outBits + BitVec.ofNat 32 (codesOf s pre).length,
                 encCount := BitVec.ofNat 32 pre.length, inPos := 8 * pre.length }))) ∧
    (s.inBytes = pre ++ b :: post → pre.length < s.inCount.toNat → (codeAt s b.toNat).valid = false →
      exec .encode s = .next (State.failedWith 6 (BitVec.setWidth 32 b) 0x6 (State.flagless
        { s with out := s.out ++ codesOf s pre, outBits := s.outBits + BitVec.ofNat 32 (codesOf s pre).length,
                 encCount := BitVec.ofNat 32 pre.length, inPos := 8 * (pre.length + 1) })))

/-- R167, R168, R104: COMPRESS appends one container, padded, and the memories are as BUILD and GENCODE leave them over the counts of
IN (R152, R158); on an IN that COUNT cannot count it stops at step 0x2. -/
def Obligations.CompressResult : Prop :=
  ∀ s : State,
    (s.inBytes.length ≤ 2 ^ 32 - 2 →
      ∃ f ns n root codes t u, exec .compress s = .next u ∧
        u = State.completed { s with
          freqV := true, treeV := true, codeV := true, hdrV := true, treeSrc := false, freq := f, nodes := ns, nodeCount := n,
          root := root, codes := codes, inCount := BitVec.ofNat 32 s.inBytes.length, encCount := BitVec.ofNat 32 s.inBytes.length,
          decCount := 0, hdrBits := BitVec.ofNat 32 t.header.length,
          outBits := BitVec.ofNat 32 (container s.params.huffTag t (bodyBits u s.inBytes)).length,
          inPos := 8 * s.inBytes.length,
          out := s.out ++ container s.params.huffTag t (bodyBits u s.inBytes) ++
            padTo8 (s.out.length + (container s.params.huffTag t (bodyBits u s.inBytes)).length) } ∧
        (∀ k, k ≤ 255 → (memGet freqDefault f k).toNat = (s.inBytes.map BitVec.toNat).count k) ∧ memGet freqDefault f 256 = 1 ∧
        n.toNat = (if (countedSyms u).length = 1 then 3 else 2 * (countedSyms u).length - 1) ∧ root.toNat = n.toNat - 1 ∧
        AllocatedAsBuilt u ∧ storedTree u = some t ∧ BuiltFor u t ∧ AllCoded u s.inBytes ∧ (codeAt u 256).valid = true ∧
        (∀ c ∈ t.codes, c.weight ≠ 0 → codeAt u c.sym.toNat = entryOf c.path) ∧
        (∀ k, k ≤ 256 → freqAt u k = 0 → codeAt u k = { valid := false, len := 0, val := 0 }) ∧
        memWf freqDefault 257 f = true ∧ memWf codeDefault 257 codes = true ∧
        (container s.params.huffTag t (bodyBits u s.inBytes)).length =
          32 + (11 * t.leaves.length - 1) + (s.inBytes.map fun b => (codeAt u b.toNat).len.toNat).sum + (codeAt u 256).len.toNat) ∧
    (2 ^ 32 - 2 < s.inBytes.length →
      ∃ u, exec .compress s = .next u ∧ u.err = true ∧ u.errCode = 5 ∧ u.errStep = 0x2 ∧ u.errInfo = 0xFFFFFFFE ∧
        u.inCount = 0xFFFFFFFE ∧ u.out = s.out ∧
        u.freqV = false ∧ u.treeV = false ∧ u.codeV = false ∧ u.hdrV = false ∧ u.treeSrc = false)

/-! ### The decoder -/

/-- R200, R202: READ_HEADER on the tag and a whole tree header; with fewer than 32 bits left; and on another tag. Where the first read
answers `NO_DATA` the IN position is a free value within R74's bounds (log 4). That FREQ, NODE and CODE keep their
contents after the two errors is the model's choice (log 16). -/
def Obligations.ReadHeaderResult : Prop :=
  ∀ s : State,
    (∀ (t : Tree) (rest : List Bool), unread s = bin 32 s.params.huffTag ++ (t.header ++ rest) → t.symsOk = true → t.size ≤ 513 →
      ∃ ns u, exec .readHeader s = .next u ∧
        u = State.completed { s with
          nodes := ns, nodeCount := BitVec.ofNat 10 t.size, root := 0, hdrBits := BitVec.ofNat 32 t.header.length,
          inPos := s.inPos + 32 + t.header.length, treeV := true, treeSrc := true, hdrV := true, codeV := false } ∧
        PlacedAt ns t 0 ∧ storedTree u = some t.shape) ∧
    ((unread s).length < 32 →
      ∃ pos draws, exec .readHeader s = .next (State.failedWith 1 0 0x8 (State.flagless
        { s with nodeCount := 0, hdrBits := 0, inPos := pos, draws := draws })) ∧
        s.inPos ≤ pos ∧ (s.inPos ≤ 8 * s.inBytes.length → pos ≤ 8 * s.inBytes.length)) ∧
    (∀ (v : Word) (rest : List Bool), unread s = bin 32 v ++ rest → v ≠ s.params.huffTag →
      exec .readHeader s = .next (State.failedWith 1 v 0x8 (State.flagless
        { s with nodeCount := 0, hdrBits := 0, inPos := s.inPos + 32 })))

/-- R201, R236: after the tag and some nodes of an unfinished header, as many as there is room for, each with a legal symbol field: no
bit left; a bit, but no room for a 514th node; a leaf's kind bit and fewer than 9 bits; a symbol field above 256. And READ_HEADER
raises an error in the tree header in no other case. HDR_BITS, node_count and the IN position are those of the raise; only where a
symbol field breaks off is the position a free value, within R74's bounds (log 4). That FREQ and CODE keep their contents
after these errors is the model's choice (log 16). -/
def Obligations.ReadHeaderErrors : Prop :=
  (∀ (s : State) (items : List HeaderItem) (tail : List Bool) (h : Nat),
    unread s = bin 32 s.params.huffTag ++ (itemBits items ++ tail) → (itemBits items).length = h →
    unfinished 1 items = true → items.all HeaderItem.legal = true → items.length ≤ 513 →
    (tail = [] →
      ∃ ns, exec .readHeader s = .next (State.failedWith 2 (BitVec.ofNat 32 h) 0x8 (State.flagless
        { s with nodes := ns, nodeCount := BitVec.ofNat 10 items.length, hdrBits := BitVec.ofNat 32 h, inPos := s.inPos + 32 + h }))) ∧
    (items.length = 513 → tail ≠ [] →
      ∃ ns, exec .readHeader s = .next (State.failedWith 4 513 0x8 (State.flagless
        { s with nodes := ns, nodeCount := 513, hdrBits := BitVec.ofNat 32 (h + 1), inPos := s.inPos + 32 + h + 1 }))) ∧
    (∀ rest, items.length < 513 → tail = true :: rest → rest.length < 9 →
      ∃ ns pos draws, exec .readHeader s = .next (State.failedWith 2 (BitVec.ofNat 32 (h + 1)) 0x8 (State.flagless
        { s with nodes := ns, nodeCount := BitVec.ofNat 10 (items.length + 1), hdrBits := BitVec.ofNat 32 (h + 1),
                 inPos := pos, draws := draws })) ∧
        s.inPos + 32 + h + 1 ≤ pos ∧ pos ≤ 8 * s.inBytes.length) ∧
    (∀ (v : Sym) (rest : List Bool), items.length < 513 → tail = true :: (bin 9 v ++ rest) → 256 < v.toNat →
      ∃ ns, exec .readHeader s = .next (State.failedWith 3 (BitVec.setWidth 32 v) 0x8 (State.flagless
        { s with nodes := ns, nodeCount := BitVec.ofNat 10 (items.length + 1), hdrBits := BitVec.ofNat 32 (h + 10),
                 inPos := s.inPos + 32 + h + 10 })))) ∧
  (∀ s u : State, exec .readHeader s = .next u → u.err = true → u.errCode ≠ 1 →
    ∃ items tail, unread s = bin 32 s.params.huffTag ++ (itemBits items ++ tail) ∧ unfinished 1 items = true ∧
      items.all HeaderItem.legal = true ∧ items.length ≤ 513 ∧ StopsAt items.length tail)

/-- R160, R202: a deserialized tree serializes back to the header it came from. -/
def Obligations.HeaderRoundTrip : Prop :=
  ∀ (s : State) (t : Tree) (rest : List Bool),
    unread s = bin 32 s.params.huffTag ++ (t.header ++ rest) → t.symsOk = true → t.size ≤ 513 →
    ∃ u v, exec .readHeader s = .next u ∧ exec .writeHeader u = .next v ∧ v.err = false ∧ v.hdrBits = u.hdrBits ∧
      v.out = s.out ++ bin 32 s.params.huffTag ++ t.header

/-- R204, R205: DECODE_BODY on whole codes of literals, then an EOF code, or bits with no whole code in them. That
FREQ, NODE and CODE keep their contents after that error is the model's choice (log 16). -/
def Obligations.DecodeBodyResult : Prop :=
  ∀ (s : State) (t : Tree) (cs : List LeafCode), s.treeV = true → storedTree s = some t → t.isFork = true → AllLiteral t cs →
    (∀ (e : LeafCode) (rest : List Bool), e ∈ t.codes → e.sym = 256 → unread s = pathBits cs ++ (e.path ++ rest) →
      exec .decodeBody s = .next (State.completed
        { s with out := s.out ++ (literals cs).flatMap (bin 8) ++ padTo8 (s.out.length + 8 * cs.length),
                 outBits := s.outBits + BitVec.ofNat 32 (8 * cs.length), decCount := BitVec.ofNat 32 cs.length,
                 inPos := s.inPos + (pathBits cs).length + e.path.length })) ∧
    (∀ rest : List Bool, unread s = pathBits cs ++ rest → (∀ c ∈ t.codes, ¬ c.path <+: rest) →
      exec .decodeBody s = .next (State.failedWith 2 (BitVec.ofNat 32 cs.length) 0x9 (State.flagless
        { s with out := s.out ++ (literals cs).flatMap (bin 8), outBits := s.outBits + BitVec.ofNat 32 (8 * cs.length),
                 decCount := BitVec.ofNat 32 cs.length, inPos := s.inPos + (pathBits cs).length + rest.length })))

/-- R206: root-leaf trees: one bit per symbol, its value ignored; with no bit left, TRUNCATED_STREAM (R204). That FREQ,
NODE and CODE keep their contents after that error is the model's choice (log 16). -/
def Obligations.DecodeBodyRootLeaf : Prop :=
  ∀ (s : State) (sym : Sym) (w : Word), s.treeV = true → storedTree s = some (.leaf sym w) →
    (sym = 256 → unread s ≠ [] →
      exec .decodeBody s = .next (State.completed
        { s with decCount := 0, inPos := s.inPos + 1, out := s.out ++ padTo8 s.out.length })) ∧
    (sym = 256 → unread s = [] →
      exec .decodeBody s = .next (State.failedWith 2 0 0x9 (State.flagless { s with decCount := 0 }))) ∧
    (sym ≠ 256 →
      exec .decodeBody s = .next (State.failedWith 2 (BitVec.ofNat 32 (unread s).length) 0x9 (State.flagless
        { s with out := s.out ++ (List.replicate (unread s).length (BitVec.setWidth 8 sym)).flatMap (bin 8),
                 outBits := s.outBits + BitVec.ofNat 32 (8 * (unread s).length),
                 decCount := BitVec.ofNat 32 (unread s).length, inPos := s.inPos + (unread s).length })))

/-- R207: DECOMPRESS of a container, whatever follows its EOF code; and an error of READ_HEADER stops it. -/
def Obligations.DecompressResult : Prop :=
  ∀ s : State,
    (∀ (t : Tree) (cs : List LeafCode) (e : LeafCode) (rest : List Bool), t.symsOk = true → t.size ≤ 513 → t.isFork = true →
      AllLiteral t cs → e ∈ t.codes → e.sym = 256 → unread s = container s.params.huffTag t (pathBits cs ++ (e.path ++ rest)) →
      ∃ ns, exec .decompress s = .next (State.completed
          { s with
            freqV := false, treeV := true, codeV := false, hdrV := true, treeSrc := true, nodes := ns,
            nodeCount := BitVec.ofNat 10 t.size, root := 0, inCount := 0, encCount := 0, decCount := BitVec.ofNat 32 cs.length,
            hdrBits := BitVec.ofNat 32 t.header.length, outBits := BitVec.ofNat 32 (8 * cs.length),
            inPos := s.inPos + 32 + t.header.length + (pathBits cs).length + e.path.length,
            out := s.out ++ (literals cs).flatMap (bin 8) ++ padTo8 (s.out.length + 8 * cs.length) }) ∧
        PlacedAt ns t 0) ∧
    (∀ u v, exec .clear s = .next u → exec .readHeader u = .next v → v.err = true →
      exec .decompress s = .next { v with errStep := 0x8 } ∧ v.errStep = 0x8)

/-! ### The macros as sequences -/

/-- R115: a macro ends as the sequence of its components, issued one by one and stopped at the first error, but for LAST_OP. -/
def Obligations.MacrosAreSequences : Prop :=
  ∀ s : State, s.busy = false →
    exec .compress (memWrite 0x00 4 0x00000007 s) =
      withLastOp 0x7 (runSequence [.clear, .count, .build, .gencode, .writeHeader, .encode] s) ∧
    exec .decompress (memWrite 0x00 4 0x0000000A s) = withLastOp 0xA (runSequence [.clear, .readHeader, .decodeBody] s)

/-! ### Rules over all commands -/

/-- R230: which errors a completion can report, from which component and with which detail. -/
def Obligations.ErrorTable : Prop :=
  ∀ (i : Instr) (s t : State), exec i s = .next t → t.err = true →
    (t.errCode = 1 ∧ t.errStep = 0x8 ∧ (t.errInfo = 0 ∨ t.errInfo ≠ s.params.huffTag)) ∨
    (t.errCode = 2 ∧ ((t.errStep = 0x8 ∧ t.errInfo = t.hdrBits) ∨ (t.errStep = 0x9 ∧ t.errInfo = t.decCount))) ∨
    (t.errCode = 3 ∧ t.errStep = 0x8 ∧ 257 ≤ t.errInfo.toNat ∧ t.errInfo.toNat ≤ 511) ∨
    (t.errCode = 4 ∧ t.errStep = 0x8 ∧ t.errInfo = 513) ∨
    (t.errCode = 5 ∧ t.errStep = 0x2 ∧ t.errInfo = 0xFFFFFFFE) ∨
    (t.errCode = 6 ∧ t.errStep = 0x6 ∧ t.errInfo.toNat < 256) ∨
    (t.errCode = 7 ∧ t.errStep = 0x6 ∧ (t.errInfo = t.inCount + 1 ∨ t.errInfo = t.encCount)) ∨
    (t.errCode = 9 ∧ t.errStep = (encode i).extractLsb' 0 4 ∧ t.errInfo = missing i s ∧ missing i s ≠ 0)

/-- R233, R235: an execution-time error leaves all five flags 0; a SEQUENCE error leaves everything but the completion fields. -/
def Obligations.ErrorEffects : Prop :=
  ∀ (i : Instr) (s t : State), exec i s = .next t → t.err = true →
    (t.errCode ≠ 9 → t.errCode.toNat ∈ [1, 2, 3, 4, 5, 6, 7] ∧
      t.freqV = false ∧ t.treeV = false ∧ t.codeV = false ∧ t.hdrV = false ∧ t.treeSrc = false) ∧
    (t.errCode = 9 → t = State.failedWith 9 t.errInfo t.errStep s)

/-- R131, R25, R62: what every completion writes, and what none does: IRQ_EN, IDX, LAST_OP, IGN, the bytes of IN, the parameters; OUT
only grows (R65); without an error the error fields stay as acceptance left them. -/
def Obligations.CompletionFrame : Prop :=
  ∀ (i : Instr) (s t : State), exec i s = .next t →
    t.done = true ∧ t.pending = none ∧ t.ie = s.ie ∧ t.index = s.index ∧ t.wsel = s.wsel ∧ t.lastOp = s.lastOp ∧ t.ign = s.ign ∧
    t.inBytes = s.inBytes ∧ t.params = s.params ∧ s.out <+: t.out ∧ t.host = s.host ∧ t.reads = s.reads ∧ t.schedule = s.schedule ∧
    (t.err = false → t.errCode = s.errCode ∧ t.errStep = s.errStep ∧ t.errInfo = s.errInfo)

/-- The frame of the memories, the count registers and the streams (R84, R86, R41 to R47, R79), command by command, whether the command
ends well or with an error. What the memories hold after an error is the model's choice (log 16). -/
def Obligations.MemoryFrame : Prop :=
  ∀ (i : Instr) (s t : State), exec i s = .next t →
    (i ∉ [Instr.count, .compress] → t.freq = s.freq) ∧
    (i ∉ [Instr.build, .compress, .readHeader, .decompress] → t.nodes = s.nodes) ∧
    (i ∉ [Instr.clear, .build, .compress, .readHeader, .decompress] → t.nodeCount = s.nodeCount ∧ t.root = s.root) ∧
    (i ∉ [Instr.gencode, .compress] → t.codes = s.codes) ∧
    (i ∉ [Instr.clear, .count, .compress, .decompress] → t.inCount = s.inCount) ∧
    (i ∉ [Instr.clear, .encode, .compress, .decompress] → t.encCount = s.encCount) ∧
    (i ∉ [Instr.clear, .decodeBody, .compress, .decompress] → t.decCount = s.decCount) ∧
    (i ∉ [Instr.clear, .writeHeader, .encode, .compress, .decodeBody, .decompress] → t.outBits = s.outBits) ∧
    (i ∉ [Instr.clear, .writeHeader, .compress, .readHeader, .decompress] → t.hdrBits = s.hdrBits) ∧
    (i ∉ [Instr.writeHeader, .encode, .compress, .decodeBody, .decompress] → t.out = s.out) ∧
    (i ∉ [Instr.count, .encode, .compress, .readHeader, .decodeBody, .decompress] → t.inPos = s.inPos)

/-! ### The invariant -/

/-- The state after reset meets the invariant. The contents of the memories and the streams there are the model's choice (logs 2, 3). -/
def Obligations.ResetInv : Prop := Inv State.reset

/-- Every step, the host's, the block's or reset's, keeps the invariant: R134's implications, R64's and R47's bounds, R27, R29, R24, and
what each valid flag says about the memories (R32 to R34, R151). -/
def Obligations.StepKeepsInv : Prop := ∀ s t : State, Inv s → step s = .next t → Inv t

/-- The block never stops in a state of a run: every command, and every illegal word, completes (R131, R284). -/
def Obligations.EveryCommandCompletes : Prop :=
  ∀ s : State, Inv s →
    (∀ i, ∃ t, exec i s = .next t ∧ t.done = true ∧ t.busy = false ∧ Inv t) ∧
    (nextAgent s = .block → ∃ t, step s = .next t) ∧
    (∀ f, step s ≠ .fault f)

/-! ### The headline properties of 42_decoder -/

/-- R208: COMPRESS, then DECOMPRESS of what it wrote, gives the bytes back. -/
def Obligations.RoundTrip : Prop :=
  ∀ s : State, s.inBytes.length ≤ 2 ^ 32 - 2 → s.out = [] →
    ∃ t, exec .compress s = .next t ∧ t.err = false ∧
      ∀ u : State, u.params = s.params → u.inBytes = outBytes t.out → u.inPos = 0 → u.out = [] →
        ∃ v, exec .decompress u = .next v ∧ v.err = false ∧ outBytes v.out = s.inBytes ∧ v.out.length = 8 * s.inBytes.length ∧
          v.decCount = BitVec.ofNat 32 s.inBytes.length

/-- R209: DECOMPRESS of a container cut off after at least 32 bits and before the last bit of the EOF code raises TRUNCATED_STREAM. -/
def Obligations.Truncation : Prop :=
  ∀ s : State, s.inBytes.length ≤ 2 ^ 32 - 2 → s.out = [] →
    ∃ t tree, exec .compress s = .next t ∧ t.err = false ∧ storedTree t = some tree ∧
      ∀ (m : Nat) (u : State), u.params = s.params → u.inBytes = (outBytes t.out).take m → u.inPos = 0 → 4 ≤ m →
        8 * m < (container s.params.huffTag tree (bodyBits t s.inBytes)).length →
        ∃ v, exec .decompress u = .next v ∧ v.err = true ∧ v.errCode = 2

/-! ### What the model chose -/

/-- The model's choice (log 16), not a rule of the spec: R60 calls the entries of NODE from `node_count` on unspecified. No command
writes them, whether it ends well or with an error, so they hold what they held. -/
def Obligations.UnallocatedNodesKept : Prop :=
  ∀ (i : Instr) (s t : State), exec i s = .next t →
    ∀ j, t.nodeCount.toNat ≤ j → memGet nodeDefault t.nodes j = memGet nodeDefault s.nodes j
end

