-- ==== Sys2Proof/Laws/State.lean ====
section
/-! SUPPORT. One lemma per field per update of State, true by rfl: what each plain update writes, and that it writes nothing else. -/

set_option autoImplicit false

namespace Sys2Proof.Machine

/-! ### inMove -/

@[simp] theorem inMove_params (p : Nat) (s : State) : (inMove p s).params = s.params := (rfl)
@[simp] theorem inMove_pending (p : Nat) (s : State) : (inMove p s).pending = s.pending := (rfl)
@[simp] theorem inMove_done (p : Nat) (s : State) : (inMove p s).done = s.done := (rfl)
@[simp] theorem inMove_err (p : Nat) (s : State) : (inMove p s).err = s.err := (rfl)
@[simp] theorem inMove_ign (p : Nat) (s : State) : (inMove p s).ign = s.ign := (rfl)
@[simp] theorem inMove_errCode (p : Nat) (s : State) : (inMove p s).errCode = s.errCode := (rfl)
@[simp] theorem inMove_lastOp (p : Nat) (s : State) : (inMove p s).lastOp = s.lastOp := (rfl)
@[simp] theorem inMove_errStep (p : Nat) (s : State) : (inMove p s).errStep = s.errStep := (rfl)
@[simp] theorem inMove_freqV (p : Nat) (s : State) : (inMove p s).freqV = s.freqV := (rfl)
@[simp] theorem inMove_treeV (p : Nat) (s : State) : (inMove p s).treeV = s.treeV := (rfl)
@[simp] theorem inMove_codeV (p : Nat) (s : State) : (inMove p s).codeV = s.codeV := (rfl)
@[simp] theorem inMove_hdrV (p : Nat) (s : State) : (inMove p s).hdrV = s.hdrV := (rfl)
@[simp] theorem inMove_treeSrc (p : Nat) (s : State) : (inMove p s).treeSrc = s.treeSrc := (rfl)
@[simp] theorem inMove_errInfo (p : Nat) (s : State) : (inMove p s).errInfo = s.errInfo := (rfl)
@[simp] theorem inMove_ie (p : Nat) (s : State) : (inMove p s).ie = s.ie := (rfl)
@[simp] theorem inMove_inCount (p : Nat) (s : State) : (inMove p s).inCount = s.inCount := (rfl)
@[simp] theorem inMove_encCount (p : Nat) (s : State) : (inMove p s).encCount = s.encCount := (rfl)
@[simp] theorem inMove_decCount (p : Nat) (s : State) : (inMove p s).decCount = s.decCount := (rfl)
@[simp] theorem inMove_outBits (p : Nat) (s : State) : (inMove p s).outBits = s.outBits := (rfl)
@[simp] theorem inMove_hdrBits (p : Nat) (s : State) : (inMove p s).hdrBits = s.hdrBits := (rfl)
@[simp] theorem inMove_index (p : Nat) (s : State) : (inMove p s).index = s.index := (rfl)
@[simp] theorem inMove_wsel (p : Nat) (s : State) : (inMove p s).wsel = s.wsel := (rfl)
@[simp] theorem inMove_freq (p : Nat) (s : State) : (inMove p s).freq = s.freq := (rfl)
@[simp] theorem inMove_nodes (p : Nat) (s : State) : (inMove p s).nodes = s.nodes := (rfl)
@[simp] theorem inMove_nodeCount (p : Nat) (s : State) : (inMove p s).nodeCount = s.nodeCount := (rfl)
@[simp] theorem inMove_root (p : Nat) (s : State) : (inMove p s).root = s.root := (rfl)
@[simp] theorem inMove_codes (p : Nat) (s : State) : (inMove p s).codes = s.codes := (rfl)
@[simp] theorem inMove_inBytes (p : Nat) (s : State) : (inMove p s).inBytes = s.inBytes := (rfl)
@[simp] theorem inMove_inPos (p : Nat) (s : State) : (inMove p s).inPos = p := (rfl)
@[simp] theorem inMove_out (p : Nat) (s : State) : (inMove p s).out = s.out := (rfl)
@[simp] theorem inMove_host (p : Nat) (s : State) : (inMove p s).host = s.host := (rfl)
@[simp] theorem inMove_reads (p : Nat) (s : State) : (inMove p s).reads = s.reads := (rfl)
@[simp] theorem inMove_schedule (p : Nat) (s : State) : (inMove p s).schedule = s.schedule := (rfl)
@[simp] theorem inMove_draws (p : Nat) (s : State) : (inMove p s).draws = s.draws := (rfl)

/-! ### draw -/

@[simp] theorem draw_params (s : State) : (draw s).params = s.params := (rfl)
@[simp] theorem draw_pending (s : State) : (draw s).pending = s.pending := (rfl)
@[simp] theorem draw_done (s : State) : (draw s).done = s.done := (rfl)
@[simp] theorem draw_err (s : State) : (draw s).err = s.err := (rfl)
@[simp] theorem draw_ign (s : State) : (draw s).ign = s.ign := (rfl)
@[simp] theorem draw_errCode (s : State) : (draw s).errCode = s.errCode := (rfl)
@[simp] theorem draw_lastOp (s : State) : (draw s).lastOp = s.lastOp := (rfl)
@[simp] theorem draw_errStep (s : State) : (draw s).errStep = s.errStep := (rfl)
@[simp] theorem draw_freqV (s : State) : (draw s).freqV = s.freqV := (rfl)
@[simp] theorem draw_treeV (s : State) : (draw s).treeV = s.treeV := (rfl)
@[simp] theorem draw_codeV (s : State) : (draw s).codeV = s.codeV := (rfl)
@[simp] theorem draw_hdrV (s : State) : (draw s).hdrV = s.hdrV := (rfl)
@[simp] theorem draw_treeSrc (s : State) : (draw s).treeSrc = s.treeSrc := (rfl)
@[simp] theorem draw_errInfo (s : State) : (draw s).errInfo = s.errInfo := (rfl)
@[simp] theorem draw_ie (s : State) : (draw s).ie = s.ie := (rfl)
@[simp] theorem draw_inCount (s : State) : (draw s).inCount = s.inCount := (rfl)
@[simp] theorem draw_encCount (s : State) : (draw s).encCount = s.encCount := (rfl)
@[simp] theorem draw_decCount (s : State) : (draw s).decCount = s.decCount := (rfl)
@[simp] theorem draw_outBits (s : State) : (draw s).outBits = s.outBits := (rfl)
@[simp] theorem draw_hdrBits (s : State) : (draw s).hdrBits = s.hdrBits := (rfl)
@[simp] theorem draw_index (s : State) : (draw s).index = s.index := (rfl)
@[simp] theorem draw_wsel (s : State) : (draw s).wsel = s.wsel := (rfl)
@[simp] theorem draw_freq (s : State) : (draw s).freq = s.freq := (rfl)
@[simp] theorem draw_nodes (s : State) : (draw s).nodes = s.nodes := (rfl)
@[simp] theorem draw_nodeCount (s : State) : (draw s).nodeCount = s.nodeCount := (rfl)
@[simp] theorem draw_root (s : State) : (draw s).root = s.root := (rfl)
@[simp] theorem draw_codes (s : State) : (draw s).codes = s.codes := (rfl)
@[simp] theorem draw_inBytes (s : State) : (draw s).inBytes = s.inBytes := (rfl)
@[simp] theorem draw_inPos (s : State) : (draw s).inPos = s.inPos := (rfl)
@[simp] theorem draw_out (s : State) : (draw s).out = s.out := (rfl)
@[simp] theorem draw_host (s : State) : (draw s).host = s.host := (rfl)
@[simp] theorem draw_reads (s : State) : (draw s).reads = s.reads := (rfl)
@[simp] theorem draw_schedule (s : State) : (draw s).schedule = s.schedule := (rfl)
@[simp] theorem draw_draws (s : State) : (draw s).draws = s.draws + 1 := (rfl)

/-! ### setRoot -/

@[simp] theorem setRoot_params (i : NodeIx) (s : State) : (setRoot i s).params = s.params := (rfl)
@[simp] theorem setRoot_pending (i : NodeIx) (s : State) : (setRoot i s).pending = s.pending := (rfl)
@[simp] theorem setRoot_done (i : NodeIx) (s : State) : (setRoot i s).done = s.done := (rfl)
@[simp] theorem setRoot_err (i : NodeIx) (s : State) : (setRoot i s).err = s.err := (rfl)
@[simp] theorem setRoot_ign (i : NodeIx) (s : State) : (setRoot i s).ign = s.ign := (rfl)
@[simp] theorem setRoot_errCode (i : NodeIx) (s : State) : (setRoot i s).errCode = s.errCode := (rfl)
@[simp] theorem setRoot_lastOp (i : NodeIx) (s : State) : (setRoot i s).lastOp = s.lastOp := (rfl)
@[simp] theorem setRoot_errStep (i : NodeIx) (s : State) : (setRoot i s).errStep = s.errStep := (rfl)
@[simp] theorem setRoot_freqV (i : NodeIx) (s : State) : (setRoot i s).freqV = s.freqV := (rfl)
@[simp] theorem setRoot_treeV (i : NodeIx) (s : State) : (setRoot i s).treeV = s.treeV := (rfl)
@[simp] theorem setRoot_codeV (i : NodeIx) (s : State) : (setRoot i s).codeV = s.codeV := (rfl)
@[simp] theorem setRoot_hdrV (i : NodeIx) (s : State) : (setRoot i s).hdrV = s.hdrV := (rfl)
@[simp] theorem setRoot_treeSrc (i : NodeIx) (s : State) : (setRoot i s).treeSrc = s.treeSrc := (rfl)
@[simp] theorem setRoot_errInfo (i : NodeIx) (s : State) : (setRoot i s).errInfo = s.errInfo := (rfl)
@[simp] theorem setRoot_ie (i : NodeIx) (s : State) : (setRoot i s).ie = s.ie := (rfl)
@[simp] theorem setRoot_inCount (i : NodeIx) (s : State) : (setRoot i s).inCount = s.inCount := (rfl)
@[simp] theorem setRoot_encCount (i : NodeIx) (s : State) : (setRoot i s).encCount = s.encCount := (rfl)
@[simp] theorem setRoot_decCount (i : NodeIx) (s : State) : (setRoot i s).decCount = s.decCount := (rfl)
@[simp] theorem setRoot_outBits (i : NodeIx) (s : State) : (setRoot i s).outBits = s.outBits := (rfl)
@[simp] theorem setRoot_hdrBits (i : NodeIx) (s : State) : (setRoot i s).hdrBits = s.hdrBits := (rfl)
@[simp] theorem setRoot_index (i : NodeIx) (s : State) : (setRoot i s).index = s.index := (rfl)
@[simp] theorem setRoot_wsel (i : NodeIx) (s : State) : (setRoot i s).wsel = s.wsel := (rfl)
@[simp] theorem setRoot_freq (i : NodeIx) (s : State) : (setRoot i s).freq = s.freq := (rfl)
@[simp] theorem setRoot_nodes (i : NodeIx) (s : State) : (setRoot i s).nodes = s.nodes := (rfl)
@[simp] theorem setRoot_nodeCount (i : NodeIx) (s : State) : (setRoot i s).nodeCount = s.nodeCount := (rfl)
@[simp] theorem setRoot_root (i : NodeIx) (s : State) : (setRoot i s).root = i := (rfl)
@[simp] theorem setRoot_codes (i : NodeIx) (s : State) : (setRoot i s).codes = s.codes := (rfl)
@[simp] theorem setRoot_inBytes (i : NodeIx) (s : State) : (setRoot i s).inBytes = s.inBytes := (rfl)
@[simp] theorem setRoot_inPos (i : NodeIx) (s : State) : (setRoot i s).inPos = s.inPos := (rfl)
@[simp] theorem setRoot_out (i : NodeIx) (s : State) : (setRoot i s).out = s.out := (rfl)
@[simp] theorem setRoot_host (i : NodeIx) (s : State) : (setRoot i s).host = s.host := (rfl)
@[simp] theorem setRoot_reads (i : NodeIx) (s : State) : (setRoot i s).reads = s.reads := (rfl)
@[simp] theorem setRoot_schedule (i : NodeIx) (s : State) : (setRoot i s).schedule = s.schedule := (rfl)
@[simp] theorem setRoot_draws (i : NodeIx) (s : State) : (setRoot i s).draws = s.draws := (rfl)

/-! ### buildStart -/

@[simp] theorem buildStart_params (s : State) : (buildStart s).params = s.params := (rfl)
@[simp] theorem buildStart_pending (s : State) : (buildStart s).pending = s.pending := (rfl)
@[simp] theorem buildStart_done (s : State) : (buildStart s).done = s.done := (rfl)
@[simp] theorem buildStart_err (s : State) : (buildStart s).err = s.err := (rfl)
@[simp] theorem buildStart_ign (s : State) : (buildStart s).ign = s.ign := (rfl)
@[simp] theorem buildStart_errCode (s : State) : (buildStart s).errCode = s.errCode := (rfl)
@[simp] theorem buildStart_lastOp (s : State) : (buildStart s).lastOp = s.lastOp := (rfl)
@[simp] theorem buildStart_errStep (s : State) : (buildStart s).errStep = s.errStep := (rfl)
@[simp] theorem buildStart_freqV (s : State) : (buildStart s).freqV = s.freqV := (rfl)
@[simp] theorem buildStart_treeV (s : State) : (buildStart s).treeV = s.treeV := (rfl)
@[simp] theorem buildStart_codeV (s : State) : (buildStart s).codeV = s.codeV := (rfl)
@[simp] theorem buildStart_hdrV (s : State) : (buildStart s).hdrV = s.hdrV := (rfl)
@[simp] theorem buildStart_treeSrc (s : State) : (buildStart s).treeSrc = s.treeSrc := (rfl)
@[simp] theorem buildStart_errInfo (s : State) : (buildStart s).errInfo = s.errInfo := (rfl)
@[simp] theorem buildStart_ie (s : State) : (buildStart s).ie = s.ie := (rfl)
@[simp] theorem buildStart_inCount (s : State) : (buildStart s).inCount = s.inCount := (rfl)
@[simp] theorem buildStart_encCount (s : State) : (buildStart s).encCount = s.encCount := (rfl)
@[simp] theorem buildStart_decCount (s : State) : (buildStart s).decCount = s.decCount := (rfl)
@[simp] theorem buildStart_outBits (s : State) : (buildStart s).outBits = s.outBits := (rfl)
@[simp] theorem buildStart_hdrBits (s : State) : (buildStart s).hdrBits = s.hdrBits := (rfl)
@[simp] theorem buildStart_index (s : State) : (buildStart s).index = s.index := (rfl)
@[simp] theorem buildStart_wsel (s : State) : (buildStart s).wsel = s.wsel := (rfl)
@[simp] theorem buildStart_freq (s : State) : (buildStart s).freq = s.freq := (rfl)
@[simp] theorem buildStart_nodes (s : State) : (buildStart s).nodes = s.nodes := (rfl)
@[simp] theorem buildStart_nodeCount (s : State) : (buildStart s).nodeCount = 0 := (rfl)
@[simp] theorem buildStart_root (s : State) : (buildStart s).root = s.root := (rfl)
@[simp] theorem buildStart_codes (s : State) : (buildStart s).codes = s.codes := (rfl)
@[simp] theorem buildStart_inBytes (s : State) : (buildStart s).inBytes = s.inBytes := (rfl)
@[simp] theorem buildStart_inPos (s : State) : (buildStart s).inPos = s.inPos := (rfl)
@[simp] theorem buildStart_out (s : State) : (buildStart s).out = s.out := (rfl)
@[simp] theorem buildStart_host (s : State) : (buildStart s).host = s.host := (rfl)
@[simp] theorem buildStart_reads (s : State) : (buildStart s).reads = s.reads := (rfl)
@[simp] theorem buildStart_schedule (s : State) : (buildStart s).schedule = s.schedule := (rfl)
@[simp] theorem buildStart_draws (s : State) : (buildStart s).draws = s.draws := (rfl)

/-! ### setCodes -/

@[simp] theorem setCodes_params (codes : List (Nat × CodeEntry)) (s : State) : (setCodes codes s).params = s.params := (rfl)
@[simp] theorem setCodes_pending (codes : List (Nat × CodeEntry)) (s : State) : (setCodes codes s).pending = s.pending := (rfl)
@[simp] theorem setCodes_done (codes : List (Nat × CodeEntry)) (s : State) : (setCodes codes s).done = s.done := (rfl)
@[simp] theorem setCodes_err (codes : List (Nat × CodeEntry)) (s : State) : (setCodes codes s).err = s.err := (rfl)
@[simp] theorem setCodes_ign (codes : List (Nat × CodeEntry)) (s : State) : (setCodes codes s).ign = s.ign := (rfl)
@[simp] theorem setCodes_errCode (codes : List (Nat × CodeEntry)) (s : State) : (setCodes codes s).errCode = s.errCode := (rfl)
@[simp] theorem setCodes_lastOp (codes : List (Nat × CodeEntry)) (s : State) : (setCodes codes s).lastOp = s.lastOp := (rfl)
@[simp] theorem setCodes_errStep (codes : List (Nat × CodeEntry)) (s : State) : (setCodes codes s).errStep = s.errStep := (rfl)
@[simp] theorem setCodes_freqV (codes : List (Nat × CodeEntry)) (s : State) : (setCodes codes s).freqV = s.freqV := (rfl)
@[simp] theorem setCodes_treeV (codes : List (Nat × CodeEntry)) (s : State) : (setCodes codes s).treeV = s.treeV := (rfl)
@[simp] theorem setCodes_codeV (codes : List (Nat × CodeEntry)) (s : State) : (setCodes codes s).codeV = s.codeV := (rfl)
@[simp] theorem setCodes_hdrV (codes : List (Nat × CodeEntry)) (s : State) : (setCodes codes s).hdrV = s.hdrV := (rfl)
@[simp] theorem setCodes_treeSrc (codes : List (Nat × CodeEntry)) (s : State) : (setCodes codes s).treeSrc = s.treeSrc := (rfl)
@[simp] theorem setCodes_errInfo (codes : List (Nat × CodeEntry)) (s : State) : (setCodes codes s).errInfo = s.errInfo := (rfl)
@[simp] theorem setCodes_ie (codes : List (Nat × CodeEntry)) (s : State) : (setCodes codes s).ie = s.ie := (rfl)
@[simp] theorem setCodes_inCount (codes : List (Nat × CodeEntry)) (s : State) : (setCodes codes s).inCount = s.inCount := (rfl)
@[simp] theorem setCodes_encCount (codes : List (Nat × CodeEntry)) (s : State) : (setCodes codes s).encCount = s.encCount := (rfl)
@[simp] theorem setCodes_decCount (codes : List (Nat × CodeEntry)) (s : State) : (setCodes codes s).decCount = s.decCount := (rfl)
@[simp] theorem setCodes_outBits (codes : List (Nat × CodeEntry)) (s : State) : (setCodes codes s).outBits = s.outBits := (rfl)
@[simp] theorem setCodes_hdrBits (codes : List (Nat × CodeEntry)) (s : State) : (setCodes codes s).hdrBits = s.hdrBits := (rfl)
@[simp] theorem setCodes_index (codes : List (Nat × CodeEntry)) (s : State) : (setCodes codes s).index = s.index := (rfl)
@[simp] theorem setCodes_wsel (codes : List (Nat × CodeEntry)) (s : State) : (setCodes codes s).wsel = s.wsel := (rfl)
@[simp] theorem setCodes_freq (codes : List (Nat × CodeEntry)) (s : State) : (setCodes codes s).freq = s.freq := (rfl)
@[simp] theorem setCodes_nodes (codes : List (Nat × CodeEntry)) (s : State) : (setCodes codes s).nodes = s.nodes := (rfl)
@[simp] theorem setCodes_nodeCount (codes : List (Nat × CodeEntry)) (s : State) : (setCodes codes s).nodeCount = s.nodeCount := (rfl)
@[simp] theorem setCodes_root (codes : List (Nat × CodeEntry)) (s : State) : (setCodes codes s).root = s.root := (rfl)
@[simp] theorem setCodes_codes (codes : List (Nat × CodeEntry)) (s : State) : (setCodes codes s).codes = codes := (rfl)
@[simp] theorem setCodes_inBytes (codes : List (Nat × CodeEntry)) (s : State) : (setCodes codes s).inBytes = s.inBytes := (rfl)
@[simp] theorem setCodes_inPos (codes : List (Nat × CodeEntry)) (s : State) : (setCodes codes s).inPos = s.inPos := (rfl)
@[simp] theorem setCodes_out (codes : List (Nat × CodeEntry)) (s : State) : (setCodes codes s).out = s.out := (rfl)
@[simp] theorem setCodes_host (codes : List (Nat × CodeEntry)) (s : State) : (setCodes codes s).host = s.host := (rfl)
@[simp] theorem setCodes_reads (codes : List (Nat × CodeEntry)) (s : State) : (setCodes codes s).reads = s.reads := (rfl)
@[simp] theorem setCodes_schedule (codes : List (Nat × CodeEntry)) (s : State) : (setCodes codes s).schedule = s.schedule := (rfl)
@[simp] theorem setCodes_draws (codes : List (Nat × CodeEntry)) (s : State) : (setCodes codes s).draws = s.draws := (rfl)

/-! ### setFreq -/

@[simp] theorem setFreq_params (freq : List (Nat × Word)) (s : State) : (setFreq freq s).params = s.params := (rfl)
@[simp] theorem setFreq_pending (freq : List (Nat × Word)) (s : State) : (setFreq freq s).pending = s.pending := (rfl)
@[simp] theorem setFreq_done (freq : List (Nat × Word)) (s : State) : (setFreq freq s).done = s.done := (rfl)
@[simp] theorem setFreq_err (freq : List (Nat × Word)) (s : State) : (setFreq freq s).err = s.err := (rfl)
@[simp] theorem setFreq_ign (freq : List (Nat × Word)) (s : State) : (setFreq freq s).ign = s.ign := (rfl)
@[simp] theorem setFreq_errCode (freq : List (Nat × Word)) (s : State) : (setFreq freq s).errCode = s.errCode := (rfl)
@[simp] theorem setFreq_lastOp (freq : List (Nat × Word)) (s : State) : (setFreq freq s).lastOp = s.lastOp := (rfl)
@[simp] theorem setFreq_errStep (freq : List (Nat × Word)) (s : State) : (setFreq freq s).errStep = s.errStep := (rfl)
@[simp] theorem setFreq_freqV (freq : List (Nat × Word)) (s : State) : (setFreq freq s).freqV = s.freqV := (rfl)
@[simp] theorem setFreq_treeV (freq : List (Nat × Word)) (s : State) : (setFreq freq s).treeV = s.treeV := (rfl)
@[simp] theorem setFreq_codeV (freq : List (Nat × Word)) (s : State) : (setFreq freq s).codeV = s.codeV := (rfl)
@[simp] theorem setFreq_hdrV (freq : List (Nat × Word)) (s : State) : (setFreq freq s).hdrV = s.hdrV := (rfl)
@[simp] theorem setFreq_treeSrc (freq : List (Nat × Word)) (s : State) : (setFreq freq s).treeSrc = s.treeSrc := (rfl)
@[simp] theorem setFreq_errInfo (freq : List (Nat × Word)) (s : State) : (setFreq freq s).errInfo = s.errInfo := (rfl)
@[simp] theorem setFreq_ie (freq : List (Nat × Word)) (s : State) : (setFreq freq s).ie = s.ie := (rfl)
@[simp] theorem setFreq_inCount (freq : List (Nat × Word)) (s : State) : (setFreq freq s).inCount = s.inCount := (rfl)
@[simp] theorem setFreq_encCount (freq : List (Nat × Word)) (s : State) : (setFreq freq s).encCount = s.encCount := (rfl)
@[simp] theorem setFreq_decCount (freq : List (Nat × Word)) (s : State) : (setFreq freq s).decCount = s.decCount := (rfl)
@[simp] theorem setFreq_outBits (freq : List (Nat × Word)) (s : State) : (setFreq freq s).outBits = s.outBits := (rfl)
@[simp] theorem setFreq_hdrBits (freq : List (Nat × Word)) (s : State) : (setFreq freq s).hdrBits = s.hdrBits := (rfl)
@[simp] theorem setFreq_index (freq : List (Nat × Word)) (s : State) : (setFreq freq s).index = s.index := (rfl)
@[simp] theorem setFreq_wsel (freq : List (Nat × Word)) (s : State) : (setFreq freq s).wsel = s.wsel := (rfl)
@[simp] theorem setFreq_freq (freq : List (Nat × Word)) (s : State) : (setFreq freq s).freq = freq := (rfl)
@[simp] theorem setFreq_nodes (freq : List (Nat × Word)) (s : State) : (setFreq freq s).nodes = s.nodes := (rfl)
@[simp] theorem setFreq_nodeCount (freq : List (Nat × Word)) (s : State) : (setFreq freq s).nodeCount = s.nodeCount := (rfl)
@[simp] theorem setFreq_root (freq : List (Nat × Word)) (s : State) : (setFreq freq s).root = s.root := (rfl)
@[simp] theorem setFreq_codes (freq : List (Nat × Word)) (s : State) : (setFreq freq s).codes = s.codes := (rfl)
@[simp] theorem setFreq_inBytes (freq : List (Nat × Word)) (s : State) : (setFreq freq s).inBytes = s.inBytes := (rfl)
@[simp] theorem setFreq_inPos (freq : List (Nat × Word)) (s : State) : (setFreq freq s).inPos = s.inPos := (rfl)
@[simp] theorem setFreq_out (freq : List (Nat × Word)) (s : State) : (setFreq freq s).out = s.out := (rfl)
@[simp] theorem setFreq_host (freq : List (Nat × Word)) (s : State) : (setFreq freq s).host = s.host := (rfl)
@[simp] theorem setFreq_reads (freq : List (Nat × Word)) (s : State) : (setFreq freq s).reads = s.reads := (rfl)
@[simp] theorem setFreq_schedule (freq : List (Nat × Word)) (s : State) : (setFreq freq s).schedule = s.schedule := (rfl)
@[simp] theorem setFreq_draws (freq : List (Nat × Word)) (s : State) : (setFreq freq s).draws = s.draws := (rfl)

/-! ### hdrBitsZero -/

@[simp] theorem hdrBitsZero_params (s : State) : (hdrBitsZero s).params = s.params := (rfl)
@[simp] theorem hdrBitsZero_pending (s : State) : (hdrBitsZero s).pending = s.pending := (rfl)
@[simp] theorem hdrBitsZero_done (s : State) : (hdrBitsZero s).done = s.done := (rfl)
@[simp] theorem hdrBitsZero_err (s : State) : (hdrBitsZero s).err = s.err := (rfl)
@[simp] theorem hdrBitsZero_ign (s : State) : (hdrBitsZero s).ign = s.ign := (rfl)
@[simp] theorem hdrBitsZero_errCode (s : State) : (hdrBitsZero s).errCode = s.errCode := (rfl)
@[simp] theorem hdrBitsZero_lastOp (s : State) : (hdrBitsZero s).lastOp = s.lastOp := (rfl)
@[simp] theorem hdrBitsZero_errStep (s : State) : (hdrBitsZero s).errStep = s.errStep := (rfl)
@[simp] theorem hdrBitsZero_freqV (s : State) : (hdrBitsZero s).freqV = s.freqV := (rfl)
@[simp] theorem hdrBitsZero_treeV (s : State) : (hdrBitsZero s).treeV = s.treeV := (rfl)
@[simp] theorem hdrBitsZero_codeV (s : State) : (hdrBitsZero s).codeV = s.codeV := (rfl)
@[simp] theorem hdrBitsZero_hdrV (s : State) : (hdrBitsZero s).hdrV = s.hdrV := (rfl)
@[simp] theorem hdrBitsZero_treeSrc (s : State) : (hdrBitsZero s).treeSrc = s.treeSrc := (rfl)
@[simp] theorem hdrBitsZero_errInfo (s : State) : (hdrBitsZero s).errInfo = s.errInfo := (rfl)
@[simp] theorem hdrBitsZero_ie (s : State) : (hdrBitsZero s).ie = s.ie := (rfl)
@[simp] theorem hdrBitsZero_inCount (s : State) : (hdrBitsZero s).inCount = s.inCount := (rfl)
@[simp] theorem hdrBitsZero_encCount (s : State) : (hdrBitsZero s).encCount = s.encCount := (rfl)
@[simp] theorem hdrBitsZero_decCount (s : State) : (hdrBitsZero s).decCount = s.decCount := (rfl)
@[simp] theorem hdrBitsZero_outBits (s : State) : (hdrBitsZero s).outBits = s.outBits := (rfl)
@[simp] theorem hdrBitsZero_hdrBits (s : State) : (hdrBitsZero s).hdrBits = 0 := (rfl)
@[simp] theorem hdrBitsZero_index (s : State) : (hdrBitsZero s).index = s.index := (rfl)
@[simp] theorem hdrBitsZero_wsel (s : State) : (hdrBitsZero s).wsel = s.wsel := (rfl)
@[simp] theorem hdrBitsZero_freq (s : State) : (hdrBitsZero s).freq = s.freq := (rfl)
@[simp] theorem hdrBitsZero_nodes (s : State) : (hdrBitsZero s).nodes = s.nodes := (rfl)
@[simp] theorem hdrBitsZero_nodeCount (s : State) : (hdrBitsZero s).nodeCount = s.nodeCount := (rfl)
@[simp] theorem hdrBitsZero_root (s : State) : (hdrBitsZero s).root = s.root := (rfl)
@[simp] theorem hdrBitsZero_codes (s : State) : (hdrBitsZero s).codes = s.codes := (rfl)
@[simp] theorem hdrBitsZero_inBytes (s : State) : (hdrBitsZero s).inBytes = s.inBytes := (rfl)
@[simp] theorem hdrBitsZero_inPos (s : State) : (hdrBitsZero s).inPos = s.inPos := (rfl)
@[simp] theorem hdrBitsZero_out (s : State) : (hdrBitsZero s).out = s.out := (rfl)
@[simp] theorem hdrBitsZero_host (s : State) : (hdrBitsZero s).host = s.host := (rfl)
@[simp] theorem hdrBitsZero_reads (s : State) : (hdrBitsZero s).reads = s.reads := (rfl)
@[simp] theorem hdrBitsZero_schedule (s : State) : (hdrBitsZero s).schedule = s.schedule := (rfl)
@[simp] theorem hdrBitsZero_draws (s : State) : (hdrBitsZero s).draws = s.draws := (rfl)

/-! ### encCountUp -/

@[simp] theorem encCountUp_params (s : State) : (encCountUp s).params = s.params := (rfl)
@[simp] theorem encCountUp_pending (s : State) : (encCountUp s).pending = s.pending := (rfl)
@[simp] theorem encCountUp_done (s : State) : (encCountUp s).done = s.done := (rfl)
@[simp] theorem encCountUp_err (s : State) : (encCountUp s).err = s.err := (rfl)
@[simp] theorem encCountUp_ign (s : State) : (encCountUp s).ign = s.ign := (rfl)
@[simp] theorem encCountUp_errCode (s : State) : (encCountUp s).errCode = s.errCode := (rfl)
@[simp] theorem encCountUp_lastOp (s : State) : (encCountUp s).lastOp = s.lastOp := (rfl)
@[simp] theorem encCountUp_errStep (s : State) : (encCountUp s).errStep = s.errStep := (rfl)
@[simp] theorem encCountUp_freqV (s : State) : (encCountUp s).freqV = s.freqV := (rfl)
@[simp] theorem encCountUp_treeV (s : State) : (encCountUp s).treeV = s.treeV := (rfl)
@[simp] theorem encCountUp_codeV (s : State) : (encCountUp s).codeV = s.codeV := (rfl)
@[simp] theorem encCountUp_hdrV (s : State) : (encCountUp s).hdrV = s.hdrV := (rfl)
@[simp] theorem encCountUp_treeSrc (s : State) : (encCountUp s).treeSrc = s.treeSrc := (rfl)
@[simp] theorem encCountUp_errInfo (s : State) : (encCountUp s).errInfo = s.errInfo := (rfl)
@[simp] theorem encCountUp_ie (s : State) : (encCountUp s).ie = s.ie := (rfl)
@[simp] theorem encCountUp_inCount (s : State) : (encCountUp s).inCount = s.inCount := (rfl)
@[simp] theorem encCountUp_encCount (s : State) : (encCountUp s).encCount = s.encCount + 1 := (rfl)
@[simp] theorem encCountUp_decCount (s : State) : (encCountUp s).decCount = s.decCount := (rfl)
@[simp] theorem encCountUp_outBits (s : State) : (encCountUp s).outBits = s.outBits := (rfl)
@[simp] theorem encCountUp_hdrBits (s : State) : (encCountUp s).hdrBits = s.hdrBits := (rfl)
@[simp] theorem encCountUp_index (s : State) : (encCountUp s).index = s.index := (rfl)
@[simp] theorem encCountUp_wsel (s : State) : (encCountUp s).wsel = s.wsel := (rfl)
@[simp] theorem encCountUp_freq (s : State) : (encCountUp s).freq = s.freq := (rfl)
@[simp] theorem encCountUp_nodes (s : State) : (encCountUp s).nodes = s.nodes := (rfl)
@[simp] theorem encCountUp_nodeCount (s : State) : (encCountUp s).nodeCount = s.nodeCount := (rfl)
@[simp] theorem encCountUp_root (s : State) : (encCountUp s).root = s.root := (rfl)
@[simp] theorem encCountUp_codes (s : State) : (encCountUp s).codes = s.codes := (rfl)
@[simp] theorem encCountUp_inBytes (s : State) : (encCountUp s).inBytes = s.inBytes := (rfl)
@[simp] theorem encCountUp_inPos (s : State) : (encCountUp s).inPos = s.inPos := (rfl)
@[simp] theorem encCountUp_out (s : State) : (encCountUp s).out = s.out := (rfl)
@[simp] theorem encCountUp_host (s : State) : (encCountUp s).host = s.host := (rfl)
@[simp] theorem encCountUp_reads (s : State) : (encCountUp s).reads = s.reads := (rfl)
@[simp] theorem encCountUp_schedule (s : State) : (encCountUp s).schedule = s.schedule := (rfl)
@[simp] theorem encCountUp_draws (s : State) : (encCountUp s).draws = s.draws := (rfl)

/-! ### encodeStart -/

@[simp] theorem encodeStart_params (s : State) : (encodeStart s).params = s.params := (rfl)
@[simp] theorem encodeStart_pending (s : State) : (encodeStart s).pending = s.pending := (rfl)
@[simp] theorem encodeStart_done (s : State) : (encodeStart s).done = s.done := (rfl)
@[simp] theorem encodeStart_err (s : State) : (encodeStart s).err = s.err := (rfl)
@[simp] theorem encodeStart_ign (s : State) : (encodeStart s).ign = s.ign := (rfl)
@[simp] theorem encodeStart_errCode (s : State) : (encodeStart s).errCode = s.errCode := (rfl)
@[simp] theorem encodeStart_lastOp (s : State) : (encodeStart s).lastOp = s.lastOp := (rfl)
@[simp] theorem encodeStart_errStep (s : State) : (encodeStart s).errStep = s.errStep := (rfl)
@[simp] theorem encodeStart_freqV (s : State) : (encodeStart s).freqV = s.freqV := (rfl)
@[simp] theorem encodeStart_treeV (s : State) : (encodeStart s).treeV = s.treeV := (rfl)
@[simp] theorem encodeStart_codeV (s : State) : (encodeStart s).codeV = s.codeV := (rfl)
@[simp] theorem encodeStart_hdrV (s : State) : (encodeStart s).hdrV = s.hdrV := (rfl)
@[simp] theorem encodeStart_treeSrc (s : State) : (encodeStart s).treeSrc = s.treeSrc := (rfl)
@[simp] theorem encodeStart_errInfo (s : State) : (encodeStart s).errInfo = s.errInfo := (rfl)
@[simp] theorem encodeStart_ie (s : State) : (encodeStart s).ie = s.ie := (rfl)
@[simp] theorem encodeStart_inCount (s : State) : (encodeStart s).inCount = s.inCount := (rfl)
@[simp] theorem encodeStart_encCount (s : State) : (encodeStart s).encCount = 0 := (rfl)
@[simp] theorem encodeStart_decCount (s : State) : (encodeStart s).decCount = s.decCount := (rfl)
@[simp] theorem encodeStart_outBits (s : State) : (encodeStart s).outBits = s.outBits := (rfl)
@[simp] theorem encodeStart_hdrBits (s : State) : (encodeStart s).hdrBits = s.hdrBits := (rfl)
@[simp] theorem encodeStart_index (s : State) : (encodeStart s).index = s.index := (rfl)
@[simp] theorem encodeStart_wsel (s : State) : (encodeStart s).wsel = s.wsel := (rfl)
@[simp] theorem encodeStart_freq (s : State) : (encodeStart s).freq = s.freq := (rfl)
@[simp] theorem encodeStart_nodes (s : State) : (encodeStart s).nodes = s.nodes := (rfl)
@[simp] theorem encodeStart_nodeCount (s : State) : (encodeStart s).nodeCount = s.nodeCount := (rfl)
@[simp] theorem encodeStart_root (s : State) : (encodeStart s).root = s.root := (rfl)
@[simp] theorem encodeStart_codes (s : State) : (encodeStart s).codes = s.codes := (rfl)
@[simp] theorem encodeStart_inBytes (s : State) : (encodeStart s).inBytes = s.inBytes := (rfl)
@[simp] theorem encodeStart_inPos (s : State) : (encodeStart s).inPos = 0 := (rfl)
@[simp] theorem encodeStart_out (s : State) : (encodeStart s).out = s.out := (rfl)
@[simp] theorem encodeStart_host (s : State) : (encodeStart s).host = s.host := (rfl)
@[simp] theorem encodeStart_reads (s : State) : (encodeStart s).reads = s.reads := (rfl)
@[simp] theorem encodeStart_schedule (s : State) : (encodeStart s).schedule = s.schedule := (rfl)
@[simp] theorem encodeStart_draws (s : State) : (encodeStart s).draws = s.draws := (rfl)

/-! ### headerStart -/

@[simp] theorem headerStart_params (s : State) : (headerStart s).params = s.params := (rfl)
@[simp] theorem headerStart_pending (s : State) : (headerStart s).pending = s.pending := (rfl)
@[simp] theorem headerStart_done (s : State) : (headerStart s).done = s.done := (rfl)
@[simp] theorem headerStart_err (s : State) : (headerStart s).err = s.err := (rfl)
@[simp] theorem headerStart_ign (s : State) : (headerStart s).ign = s.ign := (rfl)
@[simp] theorem headerStart_errCode (s : State) : (headerStart s).errCode = s.errCode := (rfl)
@[simp] theorem headerStart_lastOp (s : State) : (headerStart s).lastOp = s.lastOp := (rfl)
@[simp] theorem headerStart_errStep (s : State) : (headerStart s).errStep = s.errStep := (rfl)
@[simp] theorem headerStart_freqV (s : State) : (headerStart s).freqV = s.freqV := (rfl)
@[simp] theorem headerStart_treeV (s : State) : (headerStart s).treeV = s.treeV := (rfl)
@[simp] theorem headerStart_codeV (s : State) : (headerStart s).codeV = s.codeV := (rfl)
@[simp] theorem headerStart_hdrV (s : State) : (headerStart s).hdrV = s.hdrV := (rfl)
@[simp] theorem headerStart_treeSrc (s : State) : (headerStart s).treeSrc = s.treeSrc := (rfl)
@[simp] theorem headerStart_errInfo (s : State) : (headerStart s).errInfo = s.errInfo := (rfl)
@[simp] theorem headerStart_ie (s : State) : (headerStart s).ie = s.ie := (rfl)
@[simp] theorem headerStart_inCount (s : State) : (headerStart s).inCount = s.inCount := (rfl)
@[simp] theorem headerStart_encCount (s : State) : (headerStart s).encCount = s.encCount := (rfl)
@[simp] theorem headerStart_decCount (s : State) : (headerStart s).decCount = s.decCount := (rfl)
@[simp] theorem headerStart_outBits (s : State) : (headerStart s).outBits = s.outBits := (rfl)
@[simp] theorem headerStart_hdrBits (s : State) : (headerStart s).hdrBits = 0 := (rfl)
@[simp] theorem headerStart_index (s : State) : (headerStart s).index = s.index := (rfl)
@[simp] theorem headerStart_wsel (s : State) : (headerStart s).wsel = s.wsel := (rfl)
@[simp] theorem headerStart_freq (s : State) : (headerStart s).freq = s.freq := (rfl)
@[simp] theorem headerStart_nodes (s : State) : (headerStart s).nodes = s.nodes := (rfl)
@[simp] theorem headerStart_nodeCount (s : State) : (headerStart s).nodeCount = 0 := (rfl)
@[simp] theorem headerStart_root (s : State) : (headerStart s).root = s.root := (rfl)
@[simp] theorem headerStart_codes (s : State) : (headerStart s).codes = s.codes := (rfl)
@[simp] theorem headerStart_inBytes (s : State) : (headerStart s).inBytes = s.inBytes := (rfl)
@[simp] theorem headerStart_inPos (s : State) : (headerStart s).inPos = s.inPos := (rfl)
@[simp] theorem headerStart_out (s : State) : (headerStart s).out = s.out := (rfl)
@[simp] theorem headerStart_host (s : State) : (headerStart s).host = s.host := (rfl)
@[simp] theorem headerStart_reads (s : State) : (headerStart s).reads = s.reads := (rfl)
@[simp] theorem headerStart_schedule (s : State) : (headerStart s).schedule = s.schedule := (rfl)
@[simp] theorem headerStart_draws (s : State) : (headerStart s).draws = s.draws := (rfl)

/-! ### decCountUp -/

@[simp] theorem decCountUp_params (s : State) : (decCountUp s).params = s.params := (rfl)
@[simp] theorem decCountUp_pending (s : State) : (decCountUp s).pending = s.pending := (rfl)
@[simp] theorem decCountUp_done (s : State) : (decCountUp s).done = s.done := (rfl)
@[simp] theorem decCountUp_err (s : State) : (decCountUp s).err = s.err := (rfl)
@[simp] theorem decCountUp_ign (s : State) : (decCountUp s).ign = s.ign := (rfl)
@[simp] theorem decCountUp_errCode (s : State) : (decCountUp s).errCode = s.errCode := (rfl)
@[simp] theorem decCountUp_lastOp (s : State) : (decCountUp s).lastOp = s.lastOp := (rfl)
@[simp] theorem decCountUp_errStep (s : State) : (decCountUp s).errStep = s.errStep := (rfl)
@[simp] theorem decCountUp_freqV (s : State) : (decCountUp s).freqV = s.freqV := (rfl)
@[simp] theorem decCountUp_treeV (s : State) : (decCountUp s).treeV = s.treeV := (rfl)
@[simp] theorem decCountUp_codeV (s : State) : (decCountUp s).codeV = s.codeV := (rfl)
@[simp] theorem decCountUp_hdrV (s : State) : (decCountUp s).hdrV = s.hdrV := (rfl)
@[simp] theorem decCountUp_treeSrc (s : State) : (decCountUp s).treeSrc = s.treeSrc := (rfl)
@[simp] theorem decCountUp_errInfo (s : State) : (decCountUp s).errInfo = s.errInfo := (rfl)
@[simp] theorem decCountUp_ie (s : State) : (decCountUp s).ie = s.ie := (rfl)
@[simp] theorem decCountUp_inCount (s : State) : (decCountUp s).inCount = s.inCount := (rfl)
@[simp] theorem decCountUp_encCount (s : State) : (decCountUp s).encCount = s.encCount := (rfl)
@[simp] theorem decCountUp_decCount (s : State) : (decCountUp s).decCount = s.decCount + 1 := (rfl)
@[simp] theorem decCountUp_outBits (s : State) : (decCountUp s).outBits = s.outBits := (rfl)
@[simp] theorem decCountUp_hdrBits (s : State) : (decCountUp s).hdrBits = s.hdrBits := (rfl)
@[simp] theorem decCountUp_index (s : State) : (decCountUp s).index = s.index := (rfl)
@[simp] theorem decCountUp_wsel (s : State) : (decCountUp s).wsel = s.wsel := (rfl)
@[simp] theorem decCountUp_freq (s : State) : (decCountUp s).freq = s.freq := (rfl)
@[simp] theorem decCountUp_nodes (s : State) : (decCountUp s).nodes = s.nodes := (rfl)
@[simp] theorem decCountUp_nodeCount (s : State) : (decCountUp s).nodeCount = s.nodeCount := (rfl)
@[simp] theorem decCountUp_root (s : State) : (decCountUp s).root = s.root := (rfl)
@[simp] theorem decCountUp_codes (s : State) : (decCountUp s).codes = s.codes := (rfl)
@[simp] theorem decCountUp_inBytes (s : State) : (decCountUp s).inBytes = s.inBytes := (rfl)
@[simp] theorem decCountUp_inPos (s : State) : (decCountUp s).inPos = s.inPos := (rfl)
@[simp] theorem decCountUp_out (s : State) : (decCountUp s).out = s.out := (rfl)
@[simp] theorem decCountUp_host (s : State) : (decCountUp s).host = s.host := (rfl)
@[simp] theorem decCountUp_reads (s : State) : (decCountUp s).reads = s.reads := (rfl)
@[simp] theorem decCountUp_schedule (s : State) : (decCountUp s).schedule = s.schedule := (rfl)
@[simp] theorem decCountUp_draws (s : State) : (decCountUp s).draws = s.draws := (rfl)

/-! ### decodeStart -/

@[simp] theorem decodeStart_params (s : State) : (decodeStart s).params = s.params := (rfl)
@[simp] theorem decodeStart_pending (s : State) : (decodeStart s).pending = s.pending := (rfl)
@[simp] theorem decodeStart_done (s : State) : (decodeStart s).done = s.done := (rfl)
@[simp] theorem decodeStart_err (s : State) : (decodeStart s).err = s.err := (rfl)
@[simp] theorem decodeStart_ign (s : State) : (decodeStart s).ign = s.ign := (rfl)
@[simp] theorem decodeStart_errCode (s : State) : (decodeStart s).errCode = s.errCode := (rfl)
@[simp] theorem decodeStart_lastOp (s : State) : (decodeStart s).lastOp = s.lastOp := (rfl)
@[simp] theorem decodeStart_errStep (s : State) : (decodeStart s).errStep = s.errStep := (rfl)
@[simp] theorem decodeStart_freqV (s : State) : (decodeStart s).freqV = s.freqV := (rfl)
@[simp] theorem decodeStart_treeV (s : State) : (decodeStart s).treeV = s.treeV := (rfl)
@[simp] theorem decodeStart_codeV (s : State) : (decodeStart s).codeV = s.codeV := (rfl)
@[simp] theorem decodeStart_hdrV (s : State) : (decodeStart s).hdrV = s.hdrV := (rfl)
@[simp] theorem decodeStart_treeSrc (s : State) : (decodeStart s).treeSrc = s.treeSrc := (rfl)
@[simp] theorem decodeStart_errInfo (s : State) : (decodeStart s).errInfo = s.errInfo := (rfl)
@[simp] theorem decodeStart_ie (s : State) : (decodeStart s).ie = s.ie := (rfl)
@[simp] theorem decodeStart_inCount (s : State) : (decodeStart s).inCount = s.inCount := (rfl)
@[simp] theorem decodeStart_encCount (s : State) : (decodeStart s).encCount = s.encCount := (rfl)
@[simp] theorem decodeStart_decCount (s : State) : (decodeStart s).decCount = 0 := (rfl)
@[simp] theorem decodeStart_outBits (s : State) : (decodeStart s).outBits = s.outBits := (rfl)
@[simp] theorem decodeStart_hdrBits (s : State) : (decodeStart s).hdrBits = s.hdrBits := (rfl)
@[simp] theorem decodeStart_index (s : State) : (decodeStart s).index = s.index := (rfl)
@[simp] theorem decodeStart_wsel (s : State) : (decodeStart s).wsel = s.wsel := (rfl)
@[simp] theorem decodeStart_freq (s : State) : (decodeStart s).freq = s.freq := (rfl)
@[simp] theorem decodeStart_nodes (s : State) : (decodeStart s).nodes = s.nodes := (rfl)
@[simp] theorem decodeStart_nodeCount (s : State) : (decodeStart s).nodeCount = s.nodeCount := (rfl)
@[simp] theorem decodeStart_root (s : State) : (decodeStart s).root = s.root := (rfl)
@[simp] theorem decodeStart_codes (s : State) : (decodeStart s).codes = s.codes := (rfl)
@[simp] theorem decodeStart_inBytes (s : State) : (decodeStart s).inBytes = s.inBytes := (rfl)
@[simp] theorem decodeStart_inPos (s : State) : (decodeStart s).inPos = s.inPos := (rfl)
@[simp] theorem decodeStart_out (s : State) : (decodeStart s).out = s.out := (rfl)
@[simp] theorem decodeStart_host (s : State) : (decodeStart s).host = s.host := (rfl)
@[simp] theorem decodeStart_reads (s : State) : (decodeStart s).reads = s.reads := (rfl)
@[simp] theorem decodeStart_schedule (s : State) : (decodeStart s).schedule = s.schedule := (rfl)
@[simp] theorem decodeStart_draws (s : State) : (decodeStart s).draws = s.draws := (rfl)

/-! ### inRewind -/

@[simp] theorem inRewind_params (s : State) : (inRewind s).params = s.params := (rfl)
@[simp] theorem inRewind_pending (s : State) : (inRewind s).pending = s.pending := (rfl)
@[simp] theorem inRewind_done (s : State) : (inRewind s).done = s.done := (rfl)
@[simp] theorem inRewind_err (s : State) : (inRewind s).err = s.err := (rfl)
@[simp] theorem inRewind_ign (s : State) : (inRewind s).ign = s.ign := (rfl)
@[simp] theorem inRewind_errCode (s : State) : (inRewind s).errCode = s.errCode := (rfl)
@[simp] theorem inRewind_lastOp (s : State) : (inRewind s).lastOp = s.lastOp := (rfl)
@[simp] theorem inRewind_errStep (s : State) : (inRewind s).errStep = s.errStep := (rfl)
@[simp] theorem inRewind_freqV (s : State) : (inRewind s).freqV = s.freqV := (rfl)
@[simp] theorem inRewind_treeV (s : State) : (inRewind s).treeV = s.treeV := (rfl)
@[simp] theorem inRewind_codeV (s : State) : (inRewind s).codeV = s.codeV := (rfl)
@[simp] theorem inRewind_hdrV (s : State) : (inRewind s).hdrV = s.hdrV := (rfl)
@[simp] theorem inRewind_treeSrc (s : State) : (inRewind s).treeSrc = s.treeSrc := (rfl)
@[simp] theorem inRewind_errInfo (s : State) : (inRewind s).errInfo = s.errInfo := (rfl)
@[simp] theorem inRewind_ie (s : State) : (inRewind s).ie = s.ie := (rfl)
@[simp] theorem inRewind_inCount (s : State) : (inRewind s).inCount = s.inCount := (rfl)
@[simp] theorem inRewind_encCount (s : State) : (inRewind s).encCount = s.encCount := (rfl)
@[simp] theorem inRewind_decCount (s : State) : (inRewind s).decCount = s.decCount := (rfl)
@[simp] theorem inRewind_outBits (s : State) : (inRewind s).outBits = s.outBits := (rfl)
@[simp] theorem inRewind_hdrBits (s : State) : (inRewind s).hdrBits = s.hdrBits := (rfl)
@[simp] theorem inRewind_index (s : State) : (inRewind s).index = s.index := (rfl)
@[simp] theorem inRewind_wsel (s : State) : (inRewind s).wsel = s.wsel := (rfl)
@[simp] theorem inRewind_freq (s : State) : (inRewind s).freq = s.freq := (rfl)
@[simp] theorem inRewind_nodes (s : State) : (inRewind s).nodes = s.nodes := (rfl)
@[simp] theorem inRewind_nodeCount (s : State) : (inRewind s).nodeCount = s.nodeCount := (rfl)
@[simp] theorem inRewind_root (s : State) : (inRewind s).root = s.root := (rfl)
@[simp] theorem inRewind_codes (s : State) : (inRewind s).codes = s.codes := (rfl)
@[simp] theorem inRewind_inBytes (s : State) : (inRewind s).inBytes = s.inBytes := (rfl)
@[simp] theorem inRewind_inPos (s : State) : (inRewind s).inPos = 0 := (rfl)
@[simp] theorem inRewind_out (s : State) : (inRewind s).out = s.out := (rfl)
@[simp] theorem inRewind_host (s : State) : (inRewind s).host = s.host := (rfl)
@[simp] theorem inRewind_reads (s : State) : (inRewind s).reads = s.reads := (rfl)
@[simp] theorem inRewind_schedule (s : State) : (inRewind s).schedule = s.schedule := (rfl)
@[simp] theorem inRewind_draws (s : State) : (inRewind s).draws = s.draws := (rfl)

/-! ### outWrite -/

@[simp] theorem outWrite_params (n : Nat) (v : BitVec n) (s : State) : (outWrite n v s).params = s.params := (rfl)
@[simp] theorem outWrite_pending (n : Nat) (v : BitVec n) (s : State) : (outWrite n v s).pending = s.pending := (rfl)
@[simp] theorem outWrite_done (n : Nat) (v : BitVec n) (s : State) : (outWrite n v s).done = s.done := (rfl)
@[simp] theorem outWrite_err (n : Nat) (v : BitVec n) (s : State) : (outWrite n v s).err = s.err := (rfl)
@[simp] theorem outWrite_ign (n : Nat) (v : BitVec n) (s : State) : (outWrite n v s).ign = s.ign := (rfl)
@[simp] theorem outWrite_errCode (n : Nat) (v : BitVec n) (s : State) : (outWrite n v s).errCode = s.errCode := (rfl)
@[simp] theorem outWrite_lastOp (n : Nat) (v : BitVec n) (s : State) : (outWrite n v s).lastOp = s.lastOp := (rfl)
@[simp] theorem outWrite_errStep (n : Nat) (v : BitVec n) (s : State) : (outWrite n v s).errStep = s.errStep := (rfl)
@[simp] theorem outWrite_freqV (n : Nat) (v : BitVec n) (s : State) : (outWrite n v s).freqV = s.freqV := (rfl)
@[simp] theorem outWrite_treeV (n : Nat) (v : BitVec n) (s : State) : (outWrite n v s).treeV = s.treeV := (rfl)
@[simp] theorem outWrite_codeV (n : Nat) (v : BitVec n) (s : State) : (outWrite n v s).codeV = s.codeV := (rfl)
@[simp] theorem outWrite_hdrV (n : Nat) (v : BitVec n) (s : State) : (outWrite n v s).hdrV = s.hdrV := (rfl)
@[simp] theorem outWrite_treeSrc (n : Nat) (v : BitVec n) (s : State) : (outWrite n v s).treeSrc = s.treeSrc := (rfl)
@[simp] theorem outWrite_errInfo (n : Nat) (v : BitVec n) (s : State) : (outWrite n v s).errInfo = s.errInfo := (rfl)
@[simp] theorem outWrite_ie (n : Nat) (v : BitVec n) (s : State) : (outWrite n v s).ie = s.ie := (rfl)
@[simp] theorem outWrite_inCount (n : Nat) (v : BitVec n) (s : State) : (outWrite n v s).inCount = s.inCount := (rfl)
@[simp] theorem outWrite_encCount (n : Nat) (v : BitVec n) (s : State) : (outWrite n v s).encCount = s.encCount := (rfl)
@[simp] theorem outWrite_decCount (n : Nat) (v : BitVec n) (s : State) : (outWrite n v s).decCount = s.decCount := (rfl)
@[simp] theorem outWrite_outBits (n : Nat) (v : BitVec n) (s : State) : (outWrite n v s).outBits = s.outBits + BitVec.ofNat 32 n := (rfl)
@[simp] theorem outWrite_hdrBits (n : Nat) (v : BitVec n) (s : State) : (outWrite n v s).hdrBits = s.hdrBits := (rfl)
@[simp] theorem outWrite_index (n : Nat) (v : BitVec n) (s : State) : (outWrite n v s).index = s.index := (rfl)
@[simp] theorem outWrite_wsel (n : Nat) (v : BitVec n) (s : State) : (outWrite n v s).wsel = s.wsel := (rfl)
@[simp] theorem outWrite_freq (n : Nat) (v : BitVec n) (s : State) : (outWrite n v s).freq = s.freq := (rfl)
@[simp] theorem outWrite_nodes (n : Nat) (v : BitVec n) (s : State) : (outWrite n v s).nodes = s.nodes := (rfl)
@[simp] theorem outWrite_nodeCount (n : Nat) (v : BitVec n) (s : State) : (outWrite n v s).nodeCount = s.nodeCount := (rfl)
@[simp] theorem outWrite_root (n : Nat) (v : BitVec n) (s : State) : (outWrite n v s).root = s.root := (rfl)
@[simp] theorem outWrite_codes (n : Nat) (v : BitVec n) (s : State) : (outWrite n v s).codes = s.codes := (rfl)
@[simp] theorem outWrite_inBytes (n : Nat) (v : BitVec n) (s : State) : (outWrite n v s).inBytes = s.inBytes := (rfl)
@[simp] theorem outWrite_inPos (n : Nat) (v : BitVec n) (s : State) : (outWrite n v s).inPos = s.inPos := (rfl)
@[simp] theorem outWrite_out (n : Nat) (v : BitVec n) (s : State) : (outWrite n v s).out = s.out ++ bin n v := (rfl)
@[simp] theorem outWrite_host (n : Nat) (v : BitVec n) (s : State) : (outWrite n v s).host = s.host := (rfl)
@[simp] theorem outWrite_reads (n : Nat) (v : BitVec n) (s : State) : (outWrite n v s).reads = s.reads := (rfl)
@[simp] theorem outWrite_schedule (n : Nat) (v : BitVec n) (s : State) : (outWrite n v s).schedule = s.schedule := (rfl)
@[simp] theorem outWrite_draws (n : Nat) (v : BitVec n) (s : State) : (outWrite n v s).draws = s.draws := (rfl)

/-! ### outFlush -/

@[simp] theorem outFlush_params (s : State) : (outFlush s).params = s.params := (rfl)
@[simp] theorem outFlush_pending (s : State) : (outFlush s).pending = s.pending := (rfl)
@[simp] theorem outFlush_done (s : State) : (outFlush s).done = s.done := (rfl)
@[simp] theorem outFlush_err (s : State) : (outFlush s).err = s.err := (rfl)
@[simp] theorem outFlush_ign (s : State) : (outFlush s).ign = s.ign := (rfl)
@[simp] theorem outFlush_errCode (s : State) : (outFlush s).errCode = s.errCode := (rfl)
@[simp] theorem outFlush_lastOp (s : State) : (outFlush s).lastOp = s.lastOp := (rfl)
@[simp] theorem outFlush_errStep (s : State) : (outFlush s).errStep = s.errStep := (rfl)
@[simp] theorem outFlush_freqV (s : State) : (outFlush s).freqV = s.freqV := (rfl)
@[simp] theorem outFlush_treeV (s : State) : (outFlush s).treeV = s.treeV := (rfl)
@[simp] theorem outFlush_codeV (s : State) : (outFlush s).codeV = s.codeV := (rfl)
@[simp] theorem outFlush_hdrV (s : State) : (outFlush s).hdrV = s.hdrV := (rfl)
@[simp] theorem outFlush_treeSrc (s : State) : (outFlush s).treeSrc = s.treeSrc := (rfl)
@[simp] theorem outFlush_errInfo (s : State) : (outFlush s).errInfo = s.errInfo := (rfl)
@[simp] theorem outFlush_ie (s : State) : (outFlush s).ie = s.ie := (rfl)
@[simp] theorem outFlush_inCount (s : State) : (outFlush s).inCount = s.inCount := (rfl)
@[simp] theorem outFlush_encCount (s : State) : (outFlush s).encCount = s.encCount := (rfl)
@[simp] theorem outFlush_decCount (s : State) : (outFlush s).decCount = s.decCount := (rfl)
@[simp] theorem outFlush_outBits (s : State) : (outFlush s).outBits = s.outBits := (rfl)
@[simp] theorem outFlush_hdrBits (s : State) : (outFlush s).hdrBits = s.hdrBits := (rfl)
@[simp] theorem outFlush_index (s : State) : (outFlush s).index = s.index := (rfl)
@[simp] theorem outFlush_wsel (s : State) : (outFlush s).wsel = s.wsel := (rfl)
@[simp] theorem outFlush_freq (s : State) : (outFlush s).freq = s.freq := (rfl)
@[simp] theorem outFlush_nodes (s : State) : (outFlush s).nodes = s.nodes := (rfl)
@[simp] theorem outFlush_nodeCount (s : State) : (outFlush s).nodeCount = s.nodeCount := (rfl)
@[simp] theorem outFlush_root (s : State) : (outFlush s).root = s.root := (rfl)
@[simp] theorem outFlush_codes (s : State) : (outFlush s).codes = s.codes := (rfl)
@[simp] theorem outFlush_inBytes (s : State) : (outFlush s).inBytes = s.inBytes := (rfl)
@[simp] theorem outFlush_inPos (s : State) : (outFlush s).inPos = s.inPos := (rfl)
@[simp] theorem outFlush_out (s : State) : (outFlush s).out = s.out ++ padding s.out.length := (rfl)
@[simp] theorem outFlush_host (s : State) : (outFlush s).host = s.host := (rfl)
@[simp] theorem outFlush_reads (s : State) : (outFlush s).reads = s.reads := (rfl)
@[simp] theorem outFlush_schedule (s : State) : (outFlush s).schedule = s.schedule := (rfl)
@[simp] theorem outFlush_draws (s : State) : (outFlush s).draws = s.draws := (rfl)

/-! ### alloc -/

@[simp] theorem alloc_params (n : Node) (s : State) : (alloc n s).params = s.params := (rfl)
@[simp] theorem alloc_pending (n : Node) (s : State) : (alloc n s).pending = s.pending := (rfl)
@[simp] theorem alloc_done (n : Node) (s : State) : (alloc n s).done = s.done := (rfl)
@[simp] theorem alloc_err (n : Node) (s : State) : (alloc n s).err = s.err := (rfl)
@[simp] theorem alloc_ign (n : Node) (s : State) : (alloc n s).ign = s.ign := (rfl)
@[simp] theorem alloc_errCode (n : Node) (s : State) : (alloc n s).errCode = s.errCode := (rfl)
@[simp] theorem alloc_lastOp (n : Node) (s : State) : (alloc n s).lastOp = s.lastOp := (rfl)
@[simp] theorem alloc_errStep (n : Node) (s : State) : (alloc n s).errStep = s.errStep := (rfl)
@[simp] theorem alloc_freqV (n : Node) (s : State) : (alloc n s).freqV = s.freqV := (rfl)
@[simp] theorem alloc_treeV (n : Node) (s : State) : (alloc n s).treeV = s.treeV := (rfl)
@[simp] theorem alloc_codeV (n : Node) (s : State) : (alloc n s).codeV = s.codeV := (rfl)
@[simp] theorem alloc_hdrV (n : Node) (s : State) : (alloc n s).hdrV = s.hdrV := (rfl)
@[simp] theorem alloc_treeSrc (n : Node) (s : State) : (alloc n s).treeSrc = s.treeSrc := (rfl)
@[simp] theorem alloc_errInfo (n : Node) (s : State) : (alloc n s).errInfo = s.errInfo := (rfl)
@[simp] theorem alloc_ie (n : Node) (s : State) : (alloc n s).ie = s.ie := (rfl)
@[simp] theorem alloc_inCount (n : Node) (s : State) : (alloc n s).inCount = s.inCount := (rfl)
@[simp] theorem alloc_encCount (n : Node) (s : State) : (alloc n s).encCount = s.encCount := (rfl)
@[simp] theorem alloc_decCount (n : Node) (s : State) : (alloc n s).decCount = s.decCount := (rfl)
@[simp] theorem alloc_outBits (n : Node) (s : State) : (alloc n s).outBits = s.outBits := (rfl)
@[simp] theorem alloc_hdrBits (n : Node) (s : State) : (alloc n s).hdrBits = s.hdrBits := (rfl)
@[simp] theorem alloc_index (n : Node) (s : State) : (alloc n s).index = s.index := (rfl)
@[simp] theorem alloc_wsel (n : Node) (s : State) : (alloc n s).wsel = s.wsel := (rfl)
@[simp] theorem alloc_freq (n : Node) (s : State) : (alloc n s).freq = s.freq := (rfl)
@[simp] theorem alloc_nodes (n : Node) (s : State) : (alloc n s).nodes = memSet nodeDefault s.nodes s.nodeCount.toNat n := (rfl)
@[simp] theorem alloc_nodeCount (n : Node) (s : State) : (alloc n s).nodeCount = s.nodeCount + 1 := (rfl)
@[simp] theorem alloc_root (n : Node) (s : State) : (alloc n s).root = s.root := (rfl)
@[simp] theorem alloc_codes (n : Node) (s : State) : (alloc n s).codes = s.codes := (rfl)
@[simp] theorem alloc_inBytes (n : Node) (s : State) : (alloc n s).inBytes = s.inBytes := (rfl)
@[simp] theorem alloc_inPos (n : Node) (s : State) : (alloc n s).inPos = s.inPos := (rfl)
@[simp] theorem alloc_out (n : Node) (s : State) : (alloc n s).out = s.out := (rfl)
@[simp] theorem alloc_host (n : Node) (s : State) : (alloc n s).host = s.host := (rfl)
@[simp] theorem alloc_reads (n : Node) (s : State) : (alloc n s).reads = s.reads := (rfl)
@[simp] theorem alloc_schedule (n : Node) (s : State) : (alloc n s).schedule = s.schedule := (rfl)
@[simp] theorem alloc_draws (n : Node) (s : State) : (alloc n s).draws = s.draws := (rfl)

/-! ### setNode -/

@[simp] theorem setNode_params (i : NodeIx) (n : Node) (s : State) : (setNode i n s).params = s.params := (rfl)
@[simp] theorem setNode_pending (i : NodeIx) (n : Node) (s : State) : (setNode i n s).pending = s.pending := (rfl)
@[simp] theorem setNode_done (i : NodeIx) (n : Node) (s : State) : (setNode i n s).done = s.done := (rfl)
@[simp] theorem setNode_err (i : NodeIx) (n : Node) (s : State) : (setNode i n s).err = s.err := (rfl)
@[simp] theorem setNode_ign (i : NodeIx) (n : Node) (s : State) : (setNode i n s).ign = s.ign := (rfl)
@[simp] theorem setNode_errCode (i : NodeIx) (n : Node) (s : State) : (setNode i n s).errCode = s.errCode := (rfl)
@[simp] theorem setNode_lastOp (i : NodeIx) (n : Node) (s : State) : (setNode i n s).lastOp = s.lastOp := (rfl)
@[simp] theorem setNode_errStep (i : NodeIx) (n : Node) (s : State) : (setNode i n s).errStep = s.errStep := (rfl)
@[simp] theorem setNode_freqV (i : NodeIx) (n : Node) (s : State) : (setNode i n s).freqV = s.freqV := (rfl)
@[simp] theorem setNode_treeV (i : NodeIx) (n : Node) (s : State) : (setNode i n s).treeV = s.treeV := (rfl)
@[simp] theorem setNode_codeV (i : NodeIx) (n : Node) (s : State) : (setNode i n s).codeV = s.codeV := (rfl)
@[simp] theorem setNode_hdrV (i : NodeIx) (n : Node) (s : State) : (setNode i n s).hdrV = s.hdrV := (rfl)
@[simp] theorem setNode_treeSrc (i : NodeIx) (n : Node) (s : State) : (setNode i n s).treeSrc = s.treeSrc := (rfl)
@[simp] theorem setNode_errInfo (i : NodeIx) (n : Node) (s : State) : (setNode i n s).errInfo = s.errInfo := (rfl)
@[simp] theorem setNode_ie (i : NodeIx) (n : Node) (s : State) : (setNode i n s).ie = s.ie := (rfl)
@[simp] theorem setNode_inCount (i : NodeIx) (n : Node) (s : State) : (setNode i n s).inCount = s.inCount := (rfl)
@[simp] theorem setNode_encCount (i : NodeIx) (n : Node) (s : State) : (setNode i n s).encCount = s.encCount := (rfl)
@[simp] theorem setNode_decCount (i : NodeIx) (n : Node) (s : State) : (setNode i n s).decCount = s.decCount := (rfl)
@[simp] theorem setNode_outBits (i : NodeIx) (n : Node) (s : State) : (setNode i n s).outBits = s.outBits := (rfl)
@[simp] theorem setNode_hdrBits (i : NodeIx) (n : Node) (s : State) : (setNode i n s).hdrBits = s.hdrBits := (rfl)
@[simp] theorem setNode_index (i : NodeIx) (n : Node) (s : State) : (setNode i n s).index = s.index := (rfl)
@[simp] theorem setNode_wsel (i : NodeIx) (n : Node) (s : State) : (setNode i n s).wsel = s.wsel := (rfl)
@[simp] theorem setNode_freq (i : NodeIx) (n : Node) (s : State) : (setNode i n s).freq = s.freq := (rfl)
@[simp] theorem setNode_nodes (i : NodeIx) (n : Node) (s : State) : (setNode i n s).nodes = memSet nodeDefault s.nodes i.toNat n := (rfl)
@[simp] theorem setNode_nodeCount (i : NodeIx) (n : Node) (s : State) : (setNode i n s).nodeCount = s.nodeCount := (rfl)
@[simp] theorem setNode_root (i : NodeIx) (n : Node) (s : State) : (setNode i n s).root = s.root := (rfl)
@[simp] theorem setNode_codes (i : NodeIx) (n : Node) (s : State) : (setNode i n s).codes = s.codes := (rfl)
@[simp] theorem setNode_inBytes (i : NodeIx) (n : Node) (s : State) : (setNode i n s).inBytes = s.inBytes := (rfl)
@[simp] theorem setNode_inPos (i : NodeIx) (n : Node) (s : State) : (setNode i n s).inPos = s.inPos := (rfl)
@[simp] theorem setNode_out (i : NodeIx) (n : Node) (s : State) : (setNode i n s).out = s.out := (rfl)
@[simp] theorem setNode_host (i : NodeIx) (n : Node) (s : State) : (setNode i n s).host = s.host := (rfl)
@[simp] theorem setNode_reads (i : NodeIx) (n : Node) (s : State) : (setNode i n s).reads = s.reads := (rfl)
@[simp] theorem setNode_schedule (i : NodeIx) (n : Node) (s : State) : (setNode i n s).schedule = s.schedule := (rfl)
@[simp] theorem setNode_draws (i : NodeIx) (n : Node) (s : State) : (setNode i n s).draws = s.draws := (rfl)

/-! ### addHdrBits -/

@[simp] theorem addHdrBits_params (n : Word) (s : State) : (addHdrBits n s).params = s.params := (rfl)
@[simp] theorem addHdrBits_pending (n : Word) (s : State) : (addHdrBits n s).pending = s.pending := (rfl)
@[simp] theorem addHdrBits_done (n : Word) (s : State) : (addHdrBits n s).done = s.done := (rfl)
@[simp] theorem addHdrBits_err (n : Word) (s : State) : (addHdrBits n s).err = s.err := (rfl)
@[simp] theorem addHdrBits_ign (n : Word) (s : State) : (addHdrBits n s).ign = s.ign := (rfl)
@[simp] theorem addHdrBits_errCode (n : Word) (s : State) : (addHdrBits n s).errCode = s.errCode := (rfl)
@[simp] theorem addHdrBits_lastOp (n : Word) (s : State) : (addHdrBits n s).lastOp = s.lastOp := (rfl)
@[simp] theorem addHdrBits_errStep (n : Word) (s : State) : (addHdrBits n s).errStep = s.errStep := (rfl)
@[simp] theorem addHdrBits_freqV (n : Word) (s : State) : (addHdrBits n s).freqV = s.freqV := (rfl)
@[simp] theorem addHdrBits_treeV (n : Word) (s : State) : (addHdrBits n s).treeV = s.treeV := (rfl)
@[simp] theorem addHdrBits_codeV (n : Word) (s : State) : (addHdrBits n s).codeV = s.codeV := (rfl)
@[simp] theorem addHdrBits_hdrV (n : Word) (s : State) : (addHdrBits n s).hdrV = s.hdrV := (rfl)
@[simp] theorem addHdrBits_treeSrc (n : Word) (s : State) : (addHdrBits n s).treeSrc = s.treeSrc := (rfl)
@[simp] theorem addHdrBits_errInfo (n : Word) (s : State) : (addHdrBits n s).errInfo = s.errInfo := (rfl)
@[simp] theorem addHdrBits_ie (n : Word) (s : State) : (addHdrBits n s).ie = s.ie := (rfl)
@[simp] theorem addHdrBits_inCount (n : Word) (s : State) : (addHdrBits n s).inCount = s.inCount := (rfl)
@[simp] theorem addHdrBits_encCount (n : Word) (s : State) : (addHdrBits n s).encCount = s.encCount := (rfl)
@[simp] theorem addHdrBits_decCount (n : Word) (s : State) : (addHdrBits n s).decCount = s.decCount := (rfl)
@[simp] theorem addHdrBits_outBits (n : Word) (s : State) : (addHdrBits n s).outBits = s.outBits := (rfl)
@[simp] theorem addHdrBits_hdrBits (n : Word) (s : State) : (addHdrBits n s).hdrBits = s.hdrBits + n := (rfl)
@[simp] theorem addHdrBits_index (n : Word) (s : State) : (addHdrBits n s).index = s.index := (rfl)
@[simp] theorem addHdrBits_wsel (n : Word) (s : State) : (addHdrBits n s).wsel = s.wsel := (rfl)
@[simp] theorem addHdrBits_freq (n : Word) (s : State) : (addHdrBits n s).freq = s.freq := (rfl)
@[simp] theorem addHdrBits_nodes (n : Word) (s : State) : (addHdrBits n s).nodes = s.nodes := (rfl)
@[simp] theorem addHdrBits_nodeCount (n : Word) (s : State) : (addHdrBits n s).nodeCount = s.nodeCount := (rfl)
@[simp] theorem addHdrBits_root (n : Word) (s : State) : (addHdrBits n s).root = s.root := (rfl)
@[simp] theorem addHdrBits_codes (n : Word) (s : State) : (addHdrBits n s).codes = s.codes := (rfl)
@[simp] theorem addHdrBits_inBytes (n : Word) (s : State) : (addHdrBits n s).inBytes = s.inBytes := (rfl)
@[simp] theorem addHdrBits_inPos (n : Word) (s : State) : (addHdrBits n s).inPos = s.inPos := (rfl)
@[simp] theorem addHdrBits_out (n : Word) (s : State) : (addHdrBits n s).out = s.out := (rfl)
@[simp] theorem addHdrBits_host (n : Word) (s : State) : (addHdrBits n s).host = s.host := (rfl)
@[simp] theorem addHdrBits_reads (n : Word) (s : State) : (addHdrBits n s).reads = s.reads := (rfl)
@[simp] theorem addHdrBits_schedule (n : Word) (s : State) : (addHdrBits n s).schedule = s.schedule := (rfl)
@[simp] theorem addHdrBits_draws (n : Word) (s : State) : (addHdrBits n s).draws = s.draws := (rfl)

/-! ### countHdrBits -/

@[simp] theorem countHdrBits_params (n : Word) (s : State) : (countHdrBits n s).params = s.params := (rfl)
@[simp] theorem countHdrBits_pending (n : Word) (s : State) : (countHdrBits n s).pending = s.pending := (rfl)
@[simp] theorem countHdrBits_done (n : Word) (s : State) : (countHdrBits n s).done = s.done := (rfl)
@[simp] theorem countHdrBits_err (n : Word) (s : State) : (countHdrBits n s).err = s.err := (rfl)
@[simp] theorem countHdrBits_ign (n : Word) (s : State) : (countHdrBits n s).ign = s.ign := (rfl)
@[simp] theorem countHdrBits_errCode (n : Word) (s : State) : (countHdrBits n s).errCode = s.errCode := (rfl)
@[simp] theorem countHdrBits_lastOp (n : Word) (s : State) : (countHdrBits n s).lastOp = s.lastOp := (rfl)
@[simp] theorem countHdrBits_errStep (n : Word) (s : State) : (countHdrBits n s).errStep = s.errStep := (rfl)
@[simp] theorem countHdrBits_freqV (n : Word) (s : State) : (countHdrBits n s).freqV = s.freqV := (rfl)
@[simp] theorem countHdrBits_treeV (n : Word) (s : State) : (countHdrBits n s).treeV = s.treeV := (rfl)
@[simp] theorem countHdrBits_codeV (n : Word) (s : State) : (countHdrBits n s).codeV = s.codeV := (rfl)
@[simp] theorem countHdrBits_hdrV (n : Word) (s : State) : (countHdrBits n s).hdrV = s.hdrV := (rfl)
@[simp] theorem countHdrBits_treeSrc (n : Word) (s : State) : (countHdrBits n s).treeSrc = s.treeSrc := (rfl)
@[simp] theorem countHdrBits_errInfo (n : Word) (s : State) : (countHdrBits n s).errInfo = s.errInfo := (rfl)
@[simp] theorem countHdrBits_ie (n : Word) (s : State) : (countHdrBits n s).ie = s.ie := (rfl)
@[simp] theorem countHdrBits_inCount (n : Word) (s : State) : (countHdrBits n s).inCount = s.inCount := (rfl)
@[simp] theorem countHdrBits_encCount (n : Word) (s : State) : (countHdrBits n s).encCount = s.encCount := (rfl)
@[simp] theorem countHdrBits_decCount (n : Word) (s : State) : (countHdrBits n s).decCount = s.decCount := (rfl)
@[simp] theorem countHdrBits_outBits (n : Word) (s : State) : (countHdrBits n s).outBits = s.outBits := (rfl)
@[simp] theorem countHdrBits_hdrBits (n : Word) (s : State) : (countHdrBits n s).hdrBits = s.hdrBits + n := (rfl)
@[simp] theorem countHdrBits_index (n : Word) (s : State) : (countHdrBits n s).index = s.index := (rfl)
@[simp] theorem countHdrBits_wsel (n : Word) (s : State) : (countHdrBits n s).wsel = s.wsel := (rfl)
@[simp] theorem countHdrBits_freq (n : Word) (s : State) : (countHdrBits n s).freq = s.freq := (rfl)
@[simp] theorem countHdrBits_nodes (n : Word) (s : State) : (countHdrBits n s).nodes = s.nodes := (rfl)
@[simp] theorem countHdrBits_nodeCount (n : Word) (s : State) : (countHdrBits n s).nodeCount = s.nodeCount := (rfl)
@[simp] theorem countHdrBits_root (n : Word) (s : State) : (countHdrBits n s).root = s.root := (rfl)
@[simp] theorem countHdrBits_codes (n : Word) (s : State) : (countHdrBits n s).codes = s.codes := (rfl)
@[simp] theorem countHdrBits_inBytes (n : Word) (s : State) : (countHdrBits n s).inBytes = s.inBytes := (rfl)
@[simp] theorem countHdrBits_inPos (n : Word) (s : State) : (countHdrBits n s).inPos = s.inPos := (rfl)
@[simp] theorem countHdrBits_out (n : Word) (s : State) : (countHdrBits n s).out = s.out := (rfl)
@[simp] theorem countHdrBits_host (n : Word) (s : State) : (countHdrBits n s).host = s.host := (rfl)
@[simp] theorem countHdrBits_reads (n : Word) (s : State) : (countHdrBits n s).reads = s.reads := (rfl)
@[simp] theorem countHdrBits_schedule (n : Word) (s : State) : (countHdrBits n s).schedule = s.schedule := (rfl)
@[simp] theorem countHdrBits_draws (n : Word) (s : State) : (countHdrBits n s).draws = s.draws := (rfl)

/-! ### flagsDropped -/

@[simp] theorem flagsDropped_params (s : State) : (flagsDropped s).params = s.params := (rfl)
@[simp] theorem flagsDropped_pending (s : State) : (flagsDropped s).pending = s.pending := (rfl)
@[simp] theorem flagsDropped_done (s : State) : (flagsDropped s).done = s.done := (rfl)
@[simp] theorem flagsDropped_err (s : State) : (flagsDropped s).err = s.err := (rfl)
@[simp] theorem flagsDropped_ign (s : State) : (flagsDropped s).ign = s.ign := (rfl)
@[simp] theorem flagsDropped_errCode (s : State) : (flagsDropped s).errCode = s.errCode := (rfl)
@[simp] theorem flagsDropped_lastOp (s : State) : (flagsDropped s).lastOp = s.lastOp := (rfl)
@[simp] theorem flagsDropped_errStep (s : State) : (flagsDropped s).errStep = s.errStep := (rfl)
@[simp] theorem flagsDropped_freqV (s : State) : (flagsDropped s).freqV = false := (rfl)
@[simp] theorem flagsDropped_treeV (s : State) : (flagsDropped s).treeV = false := (rfl)
@[simp] theorem flagsDropped_codeV (s : State) : (flagsDropped s).codeV = false := (rfl)
@[simp] theorem flagsDropped_hdrV (s : State) : (flagsDropped s).hdrV = false := (rfl)
@[simp] theorem flagsDropped_treeSrc (s : State) : (flagsDropped s).treeSrc = false := (rfl)
@[simp] theorem flagsDropped_errInfo (s : State) : (flagsDropped s).errInfo = s.errInfo := (rfl)
@[simp] theorem flagsDropped_ie (s : State) : (flagsDropped s).ie = s.ie := (rfl)
@[simp] theorem flagsDropped_inCount (s : State) : (flagsDropped s).inCount = s.inCount := (rfl)
@[simp] theorem flagsDropped_encCount (s : State) : (flagsDropped s).encCount = s.encCount := (rfl)
@[simp] theorem flagsDropped_decCount (s : State) : (flagsDropped s).decCount = s.decCount := (rfl)
@[simp] theorem flagsDropped_outBits (s : State) : (flagsDropped s).outBits = s.outBits := (rfl)
@[simp] theorem flagsDropped_hdrBits (s : State) : (flagsDropped s).hdrBits = s.hdrBits := (rfl)
@[simp] theorem flagsDropped_index (s : State) : (flagsDropped s).index = s.index := (rfl)
@[simp] theorem flagsDropped_wsel (s : State) : (flagsDropped s).wsel = s.wsel := (rfl)
@[simp] theorem flagsDropped_freq (s : State) : (flagsDropped s).freq = s.freq := (rfl)
@[simp] theorem flagsDropped_nodes (s : State) : (flagsDropped s).nodes = s.nodes := (rfl)
@[simp] theorem flagsDropped_nodeCount (s : State) : (flagsDropped s).nodeCount = s.nodeCount := (rfl)
@[simp] theorem flagsDropped_root (s : State) : (flagsDropped s).root = s.root := (rfl)
@[simp] theorem flagsDropped_codes (s : State) : (flagsDropped s).codes = s.codes := (rfl)
@[simp] theorem flagsDropped_inBytes (s : State) : (flagsDropped s).inBytes = s.inBytes := (rfl)
@[simp] theorem flagsDropped_inPos (s : State) : (flagsDropped s).inPos = s.inPos := (rfl)
@[simp] theorem flagsDropped_out (s : State) : (flagsDropped s).out = s.out := (rfl)
@[simp] theorem flagsDropped_host (s : State) : (flagsDropped s).host = s.host := (rfl)
@[simp] theorem flagsDropped_reads (s : State) : (flagsDropped s).reads = s.reads := (rfl)
@[simp] theorem flagsDropped_schedule (s : State) : (flagsDropped s).schedule = s.schedule := (rfl)
@[simp] theorem flagsDropped_draws (s : State) : (flagsDropped s).draws = s.draws := (rfl)

/-! ### flagsCounted -/

@[simp] theorem flagsCounted_params (s : State) : (flagsCounted s).params = s.params := (rfl)
@[simp] theorem flagsCounted_pending (s : State) : (flagsCounted s).pending = s.pending := (rfl)
@[simp] theorem flagsCounted_done (s : State) : (flagsCounted s).done = s.done := (rfl)
@[simp] theorem flagsCounted_err (s : State) : (flagsCounted s).err = s.err := (rfl)
@[simp] theorem flagsCounted_ign (s : State) : (flagsCounted s).ign = s.ign := (rfl)
@[simp] theorem flagsCounted_errCode (s : State) : (flagsCounted s).errCode = s.errCode := (rfl)
@[simp] theorem flagsCounted_lastOp (s : State) : (flagsCounted s).lastOp = s.lastOp := (rfl)
@[simp] theorem flagsCounted_errStep (s : State) : (flagsCounted s).errStep = s.errStep := (rfl)
@[simp] theorem flagsCounted_freqV (s : State) : (flagsCounted s).freqV = true := (rfl)
@[simp] theorem flagsCounted_treeV (s : State) : (flagsCounted s).treeV = false := (rfl)
@[simp] theorem flagsCounted_codeV (s : State) : (flagsCounted s).codeV = false := (rfl)
@[simp] theorem flagsCounted_hdrV (s : State) : (flagsCounted s).hdrV = false := (rfl)
@[simp] theorem flagsCounted_treeSrc (s : State) : (flagsCounted s).treeSrc = false := (rfl)
@[simp] theorem flagsCounted_errInfo (s : State) : (flagsCounted s).errInfo = s.errInfo := (rfl)
@[simp] theorem flagsCounted_ie (s : State) : (flagsCounted s).ie = s.ie := (rfl)
@[simp] theorem flagsCounted_inCount (s : State) : (flagsCounted s).inCount = s.inCount := (rfl)
@[simp] theorem flagsCounted_encCount (s : State) : (flagsCounted s).encCount = s.encCount := (rfl)
@[simp] theorem flagsCounted_decCount (s : State) : (flagsCounted s).decCount = s.decCount := (rfl)
@[simp] theorem flagsCounted_outBits (s : State) : (flagsCounted s).outBits = s.outBits := (rfl)
@[simp] theorem flagsCounted_hdrBits (s : State) : (flagsCounted s).hdrBits = s.hdrBits := (rfl)
@[simp] theorem flagsCounted_index (s : State) : (flagsCounted s).index = s.index := (rfl)
@[simp] theorem flagsCounted_wsel (s : State) : (flagsCounted s).wsel = s.wsel := (rfl)
@[simp] theorem flagsCounted_freq (s : State) : (flagsCounted s).freq = s.freq := (rfl)
@[simp] theorem flagsCounted_nodes (s : State) : (flagsCounted s).nodes = s.nodes := (rfl)
@[simp] theorem flagsCounted_nodeCount (s : State) : (flagsCounted s).nodeCount = s.nodeCount := (rfl)
@[simp] theorem flagsCounted_root (s : State) : (flagsCounted s).root = s.root := (rfl)
@[simp] theorem flagsCounted_codes (s : State) : (flagsCounted s).codes = s.codes := (rfl)
@[simp] theorem flagsCounted_inBytes (s : State) : (flagsCounted s).inBytes = s.inBytes := (rfl)
@[simp] theorem flagsCounted_inPos (s : State) : (flagsCounted s).inPos = s.inPos := (rfl)
@[simp] theorem flagsCounted_out (s : State) : (flagsCounted s).out = s.out := (rfl)
@[simp] theorem flagsCounted_host (s : State) : (flagsCounted s).host = s.host := (rfl)
@[simp] theorem flagsCounted_reads (s : State) : (flagsCounted s).reads = s.reads := (rfl)
@[simp] theorem flagsCounted_schedule (s : State) : (flagsCounted s).schedule = s.schedule := (rfl)
@[simp] theorem flagsCounted_draws (s : State) : (flagsCounted s).draws = s.draws := (rfl)

/-! ### flagsBuilt -/

@[simp] theorem flagsBuilt_params (s : State) : (flagsBuilt s).params = s.params := (rfl)
@[simp] theorem flagsBuilt_pending (s : State) : (flagsBuilt s).pending = s.pending := (rfl)
@[simp] theorem flagsBuilt_done (s : State) : (flagsBuilt s).done = s.done := (rfl)
@[simp] theorem flagsBuilt_err (s : State) : (flagsBuilt s).err = s.err := (rfl)
@[simp] theorem flagsBuilt_ign (s : State) : (flagsBuilt s).ign = s.ign := (rfl)
@[simp] theorem flagsBuilt_errCode (s : State) : (flagsBuilt s).errCode = s.errCode := (rfl)
@[simp] theorem flagsBuilt_lastOp (s : State) : (flagsBuilt s).lastOp = s.lastOp := (rfl)
@[simp] theorem flagsBuilt_errStep (s : State) : (flagsBuilt s).errStep = s.errStep := (rfl)
@[simp] theorem flagsBuilt_freqV (s : State) : (flagsBuilt s).freqV = s.freqV := (rfl)
@[simp] theorem flagsBuilt_treeV (s : State) : (flagsBuilt s).treeV = true := (rfl)
@[simp] theorem flagsBuilt_codeV (s : State) : (flagsBuilt s).codeV = false := (rfl)
@[simp] theorem flagsBuilt_hdrV (s : State) : (flagsBuilt s).hdrV = false := (rfl)
@[simp] theorem flagsBuilt_treeSrc (s : State) : (flagsBuilt s).treeSrc = false := (rfl)
@[simp] theorem flagsBuilt_errInfo (s : State) : (flagsBuilt s).errInfo = s.errInfo := (rfl)
@[simp] theorem flagsBuilt_ie (s : State) : (flagsBuilt s).ie = s.ie := (rfl)
@[simp] theorem flagsBuilt_inCount (s : State) : (flagsBuilt s).inCount = s.inCount := (rfl)
@[simp] theorem flagsBuilt_encCount (s : State) : (flagsBuilt s).encCount = s.encCount := (rfl)
@[simp] theorem flagsBuilt_decCount (s : State) : (flagsBuilt s).decCount = s.decCount := (rfl)
@[simp] theorem flagsBuilt_outBits (s : State) : (flagsBuilt s).outBits = s.outBits := (rfl)
@[simp] theorem flagsBuilt_hdrBits (s : State) : (flagsBuilt s).hdrBits = s.hdrBits := (rfl)
@[simp] theorem flagsBuilt_index (s : State) : (flagsBuilt s).index = s.index := (rfl)
@[simp] theorem flagsBuilt_wsel (s : State) : (flagsBuilt s).wsel = s.wsel := (rfl)
@[simp] theorem flagsBuilt_freq (s : State) : (flagsBuilt s).freq = s.freq := (rfl)
@[simp] theorem flagsBuilt_nodes (s : State) : (flagsBuilt s).nodes = s.nodes := (rfl)
@[simp] theorem flagsBuilt_nodeCount (s : State) : (flagsBuilt s).nodeCount = s.nodeCount := (rfl)
@[simp] theorem flagsBuilt_root (s : State) : (flagsBuilt s).root = s.root := (rfl)
@[simp] theorem flagsBuilt_codes (s : State) : (flagsBuilt s).codes = s.codes := (rfl)
@[simp] theorem flagsBuilt_inBytes (s : State) : (flagsBuilt s).inBytes = s.inBytes := (rfl)
@[simp] theorem flagsBuilt_inPos (s : State) : (flagsBuilt s).inPos = s.inPos := (rfl)
@[simp] theorem flagsBuilt_out (s : State) : (flagsBuilt s).out = s.out := (rfl)
@[simp] theorem flagsBuilt_host (s : State) : (flagsBuilt s).host = s.host := (rfl)
@[simp] theorem flagsBuilt_reads (s : State) : (flagsBuilt s).reads = s.reads := (rfl)
@[simp] theorem flagsBuilt_schedule (s : State) : (flagsBuilt s).schedule = s.schedule := (rfl)
@[simp] theorem flagsBuilt_draws (s : State) : (flagsBuilt s).draws = s.draws := (rfl)

/-! ### flagsCoded -/

@[simp] theorem flagsCoded_params (s : State) : (flagsCoded s).params = s.params := (rfl)
@[simp] theorem flagsCoded_pending (s : State) : (flagsCoded s).pending = s.pending := (rfl)
@[simp] theorem flagsCoded_done (s : State) : (flagsCoded s).done = s.done := (rfl)
@[simp] theorem flagsCoded_err (s : State) : (flagsCoded s).err = s.err := (rfl)
@[simp] theorem flagsCoded_ign (s : State) : (flagsCoded s).ign = s.ign := (rfl)
@[simp] theorem flagsCoded_errCode (s : State) : (flagsCoded s).errCode = s.errCode := (rfl)
@[simp] theorem flagsCoded_lastOp (s : State) : (flagsCoded s).lastOp = s.lastOp := (rfl)
@[simp] theorem flagsCoded_errStep (s : State) : (flagsCoded s).errStep = s.errStep := (rfl)
@[simp] theorem flagsCoded_freqV (s : State) : (flagsCoded s).freqV = s.freqV := (rfl)
@[simp] theorem flagsCoded_treeV (s : State) : (flagsCoded s).treeV = s.treeV := (rfl)
@[simp] theorem flagsCoded_codeV (s : State) : (flagsCoded s).codeV = true := (rfl)
@[simp] theorem flagsCoded_hdrV (s : State) : (flagsCoded s).hdrV = s.hdrV := (rfl)
@[simp] theorem flagsCoded_treeSrc (s : State) : (flagsCoded s).treeSrc = s.treeSrc := (rfl)
@[simp] theorem flagsCoded_errInfo (s : State) : (flagsCoded s).errInfo = s.errInfo := (rfl)
@[simp] theorem flagsCoded_ie (s : State) : (flagsCoded s).ie = s.ie := (rfl)
@[simp] theorem flagsCoded_inCount (s : State) : (flagsCoded s).inCount = s.inCount := (rfl)
@[simp] theorem flagsCoded_encCount (s : State) : (flagsCoded s).encCount = s.encCount := (rfl)
@[simp] theorem flagsCoded_decCount (s : State) : (flagsCoded s).decCount = s.decCount := (rfl)
@[simp] theorem flagsCoded_outBits (s : State) : (flagsCoded s).outBits = s.outBits := (rfl)
@[simp] theorem flagsCoded_hdrBits (s : State) : (flagsCoded s).hdrBits = s.hdrBits := (rfl)
@[simp] theorem flagsCoded_index (s : State) : (flagsCoded s).index = s.index := (rfl)
@[simp] theorem flagsCoded_wsel (s : State) : (flagsCoded s).wsel = s.wsel := (rfl)
@[simp] theorem flagsCoded_freq (s : State) : (flagsCoded s).freq = s.freq := (rfl)
@[simp] theorem flagsCoded_nodes (s : State) : (flagsCoded s).nodes = s.nodes := (rfl)
@[simp] theorem flagsCoded_nodeCount (s : State) : (flagsCoded s).nodeCount = s.nodeCount := (rfl)
@[simp] theorem flagsCoded_root (s : State) : (flagsCoded s).root = s.root := (rfl)
@[simp] theorem flagsCoded_codes (s : State) : (flagsCoded s).codes = s.codes := (rfl)
@[simp] theorem flagsCoded_inBytes (s : State) : (flagsCoded s).inBytes = s.inBytes := (rfl)
@[simp] theorem flagsCoded_inPos (s : State) : (flagsCoded s).inPos = s.inPos := (rfl)
@[simp] theorem flagsCoded_out (s : State) : (flagsCoded s).out = s.out := (rfl)
@[simp] theorem flagsCoded_host (s : State) : (flagsCoded s).host = s.host := (rfl)
@[simp] theorem flagsCoded_reads (s : State) : (flagsCoded s).reads = s.reads := (rfl)
@[simp] theorem flagsCoded_schedule (s : State) : (flagsCoded s).schedule = s.schedule := (rfl)
@[simp] theorem flagsCoded_draws (s : State) : (flagsCoded s).draws = s.draws := (rfl)

/-! ### flagsHeaderWritten -/

@[simp] theorem flagsHeaderWritten_params (s : State) : (flagsHeaderWritten s).params = s.params := (rfl)
@[simp] theorem flagsHeaderWritten_pending (s : State) : (flagsHeaderWritten s).pending = s.pending := (rfl)
@[simp] theorem flagsHeaderWritten_done (s : State) : (flagsHeaderWritten s).done = s.done := (rfl)
@[simp] theorem flagsHeaderWritten_err (s : State) : (flagsHeaderWritten s).err = s.err := (rfl)
@[simp] theorem flagsHeaderWritten_ign (s : State) : (flagsHeaderWritten s).ign = s.ign := (rfl)
@[simp] theorem flagsHeaderWritten_errCode (s : State) : (flagsHeaderWritten s).errCode = s.errCode := (rfl)
@[simp] theorem flagsHeaderWritten_lastOp (s : State) : (flagsHeaderWritten s).lastOp = s.lastOp := (rfl)
@[simp] theorem flagsHeaderWritten_errStep (s : State) : (flagsHeaderWritten s).errStep = s.errStep := (rfl)
@[simp] theorem flagsHeaderWritten_freqV (s : State) : (flagsHeaderWritten s).freqV = s.freqV := (rfl)
@[simp] theorem flagsHeaderWritten_treeV (s : State) : (flagsHeaderWritten s).treeV = s.treeV := (rfl)
@[simp] theorem flagsHeaderWritten_codeV (s : State) : (flagsHeaderWritten s).codeV = s.codeV := (rfl)
@[simp] theorem flagsHeaderWritten_hdrV (s : State) : (flagsHeaderWritten s).hdrV = true := (rfl)
@[simp] theorem flagsHeaderWritten_treeSrc (s : State) : (flagsHeaderWritten s).treeSrc = s.treeSrc := (rfl)
@[simp] theorem flagsHeaderWritten_errInfo (s : State) : (flagsHeaderWritten s).errInfo = s.errInfo := (rfl)
@[simp] theorem flagsHeaderWritten_ie (s : State) : (flagsHeaderWritten s).ie = s.ie := (rfl)
@[simp] theorem flagsHeaderWritten_inCount (s : State) : (flagsHeaderWritten s).inCount = s.inCount := (rfl)
@[simp] theorem flagsHeaderWritten_encCount (s : State) : (flagsHeaderWritten s).encCount = s.encCount := (rfl)
@[simp] theorem flagsHeaderWritten_decCount (s : State) : (flagsHeaderWritten s).decCount = s.decCount := (rfl)
@[simp] theorem flagsHeaderWritten_outBits (s : State) : (flagsHeaderWritten s).outBits = s.outBits := (rfl)
@[simp] theorem flagsHeaderWritten_hdrBits (s : State) : (flagsHeaderWritten s).hdrBits = s.hdrBits := (rfl)
@[simp] theorem flagsHeaderWritten_index (s : State) : (flagsHeaderWritten s).index = s.index := (rfl)
@[simp] theorem flagsHeaderWritten_wsel (s : State) : (flagsHeaderWritten s).wsel = s.wsel := (rfl)
@[simp] theorem flagsHeaderWritten_freq (s : State) : (flagsHeaderWritten s).freq = s.freq := (rfl)
@[simp] theorem flagsHeaderWritten_nodes (s : State) : (flagsHeaderWritten s).nodes = s.nodes := (rfl)
@[simp] theorem flagsHeaderWritten_nodeCount (s : State) : (flagsHeaderWritten s).nodeCount = s.nodeCount := (rfl)
@[simp] theorem flagsHeaderWritten_root (s : State) : (flagsHeaderWritten s).root = s.root := (rfl)
@[simp] theorem flagsHeaderWritten_codes (s : State) : (flagsHeaderWritten s).codes = s.codes := (rfl)
@[simp] theorem flagsHeaderWritten_inBytes (s : State) : (flagsHeaderWritten s).inBytes = s.inBytes := (rfl)
@[simp] theorem flagsHeaderWritten_inPos (s : State) : (flagsHeaderWritten s).inPos = s.inPos := (rfl)
@[simp] theorem flagsHeaderWritten_out (s : State) : (flagsHeaderWritten s).out = s.out := (rfl)
@[simp] theorem flagsHeaderWritten_host (s : State) : (flagsHeaderWritten s).host = s.host := (rfl)
@[simp] theorem flagsHeaderWritten_reads (s : State) : (flagsHeaderWritten s).reads = s.reads := (rfl)
@[simp] theorem flagsHeaderWritten_schedule (s : State) : (flagsHeaderWritten s).schedule = s.schedule := (rfl)
@[simp] theorem flagsHeaderWritten_draws (s : State) : (flagsHeaderWritten s).draws = s.draws := (rfl)

/-! ### flagsHeaderRead -/

@[simp] theorem flagsHeaderRead_params (s : State) : (flagsHeaderRead s).params = s.params := (rfl)
@[simp] theorem flagsHeaderRead_pending (s : State) : (flagsHeaderRead s).pending = s.pending := (rfl)
@[simp] theorem flagsHeaderRead_done (s : State) : (flagsHeaderRead s).done = s.done := (rfl)
@[simp] theorem flagsHeaderRead_err (s : State) : (flagsHeaderRead s).err = s.err := (rfl)
@[simp] theorem flagsHeaderRead_ign (s : State) : (flagsHeaderRead s).ign = s.ign := (rfl)
@[simp] theorem flagsHeaderRead_errCode (s : State) : (flagsHeaderRead s).errCode = s.errCode := (rfl)
@[simp] theorem flagsHeaderRead_lastOp (s : State) : (flagsHeaderRead s).lastOp = s.lastOp := (rfl)
@[simp] theorem flagsHeaderRead_errStep (s : State) : (flagsHeaderRead s).errStep = s.errStep := (rfl)
@[simp] theorem flagsHeaderRead_freqV (s : State) : (flagsHeaderRead s).freqV = s.freqV := (rfl)
@[simp] theorem flagsHeaderRead_treeV (s : State) : (flagsHeaderRead s).treeV = true := (rfl)
@[simp] theorem flagsHeaderRead_codeV (s : State) : (flagsHeaderRead s).codeV = false := (rfl)
@[simp] theorem flagsHeaderRead_hdrV (s : State) : (flagsHeaderRead s).hdrV = true := (rfl)
@[simp] theorem flagsHeaderRead_treeSrc (s : State) : (flagsHeaderRead s).treeSrc = true := (rfl)
@[simp] theorem flagsHeaderRead_errInfo (s : State) : (flagsHeaderRead s).errInfo = s.errInfo := (rfl)
@[simp] theorem flagsHeaderRead_ie (s : State) : (flagsHeaderRead s).ie = s.ie := (rfl)
@[simp] theorem flagsHeaderRead_inCount (s : State) : (flagsHeaderRead s).inCount = s.inCount := (rfl)
@[simp] theorem flagsHeaderRead_encCount (s : State) : (flagsHeaderRead s).encCount = s.encCount := (rfl)
@[simp] theorem flagsHeaderRead_decCount (s : State) : (flagsHeaderRead s).decCount = s.decCount := (rfl)
@[simp] theorem flagsHeaderRead_outBits (s : State) : (flagsHeaderRead s).outBits = s.outBits := (rfl)
@[simp] theorem flagsHeaderRead_hdrBits (s : State) : (flagsHeaderRead s).hdrBits = s.hdrBits := (rfl)
@[simp] theorem flagsHeaderRead_index (s : State) : (flagsHeaderRead s).index = s.index := (rfl)
@[simp] theorem flagsHeaderRead_wsel (s : State) : (flagsHeaderRead s).wsel = s.wsel := (rfl)
@[simp] theorem flagsHeaderRead_freq (s : State) : (flagsHeaderRead s).freq = s.freq := (rfl)
@[simp] theorem flagsHeaderRead_nodes (s : State) : (flagsHeaderRead s).nodes = s.nodes := (rfl)
@[simp] theorem flagsHeaderRead_nodeCount (s : State) : (flagsHeaderRead s).nodeCount = s.nodeCount := (rfl)
@[simp] theorem flagsHeaderRead_root (s : State) : (flagsHeaderRead s).root = s.root := (rfl)
@[simp] theorem flagsHeaderRead_codes (s : State) : (flagsHeaderRead s).codes = s.codes := (rfl)
@[simp] theorem flagsHeaderRead_inBytes (s : State) : (flagsHeaderRead s).inBytes = s.inBytes := (rfl)
@[simp] theorem flagsHeaderRead_inPos (s : State) : (flagsHeaderRead s).inPos = s.inPos := (rfl)
@[simp] theorem flagsHeaderRead_out (s : State) : (flagsHeaderRead s).out = s.out := (rfl)
@[simp] theorem flagsHeaderRead_host (s : State) : (flagsHeaderRead s).host = s.host := (rfl)
@[simp] theorem flagsHeaderRead_reads (s : State) : (flagsHeaderRead s).reads = s.reads := (rfl)
@[simp] theorem flagsHeaderRead_schedule (s : State) : (flagsHeaderRead s).schedule = s.schedule := (rfl)
@[simp] theorem flagsHeaderRead_draws (s : State) : (flagsHeaderRead s).draws = s.draws := (rfl)

/-! ### cleared -/

@[simp] theorem cleared_params (s : State) : (cleared s).params = s.params := (rfl)
@[simp] theorem cleared_pending (s : State) : (cleared s).pending = s.pending := (rfl)
@[simp] theorem cleared_done (s : State) : (cleared s).done = s.done := (rfl)
@[simp] theorem cleared_err (s : State) : (cleared s).err = s.err := (rfl)
@[simp] theorem cleared_ign (s : State) : (cleared s).ign = s.ign := (rfl)
@[simp] theorem cleared_errCode (s : State) : (cleared s).errCode = s.errCode := (rfl)
@[simp] theorem cleared_lastOp (s : State) : (cleared s).lastOp = s.lastOp := (rfl)
@[simp] theorem cleared_errStep (s : State) : (cleared s).errStep = s.errStep := (rfl)
@[simp] theorem cleared_freqV (s : State) : (cleared s).freqV = false := (rfl)
@[simp] theorem cleared_treeV (s : State) : (cleared s).treeV = false := (rfl)
@[simp] theorem cleared_codeV (s : State) : (cleared s).codeV = false := (rfl)
@[simp] theorem cleared_hdrV (s : State) : (cleared s).hdrV = false := (rfl)
@[simp] theorem cleared_treeSrc (s : State) : (cleared s).treeSrc = false := (rfl)
@[simp] theorem cleared_errInfo (s : State) : (cleared s).errInfo = s.errInfo := (rfl)
@[simp] theorem cleared_ie (s : State) : (cleared s).ie = s.ie := (rfl)
@[simp] theorem cleared_inCount (s : State) : (cleared s).inCount = 0 := (rfl)
@[simp] theorem cleared_encCount (s : State) : (cleared s).encCount = 0 := (rfl)
@[simp] theorem cleared_decCount (s : State) : (cleared s).decCount = 0 := (rfl)
@[simp] theorem cleared_outBits (s : State) : (cleared s).outBits = 0 := (rfl)
@[simp] theorem cleared_hdrBits (s : State) : (cleared s).hdrBits = 0 := (rfl)
@[simp] theorem cleared_index (s : State) : (cleared s).index = s.index := (rfl)
@[simp] theorem cleared_wsel (s : State) : (cleared s).wsel = s.wsel := (rfl)
@[simp] theorem cleared_freq (s : State) : (cleared s).freq = s.freq := (rfl)
@[simp] theorem cleared_nodes (s : State) : (cleared s).nodes = s.nodes := (rfl)
@[simp] theorem cleared_nodeCount (s : State) : (cleared s).nodeCount = 0 := (rfl)
@[simp] theorem cleared_root (s : State) : (cleared s).root = 0 := (rfl)
@[simp] theorem cleared_codes (s : State) : (cleared s).codes = s.codes := (rfl)
@[simp] theorem cleared_inBytes (s : State) : (cleared s).inBytes = s.inBytes := (rfl)
@[simp] theorem cleared_inPos (s : State) : (cleared s).inPos = s.inPos := (rfl)
@[simp] theorem cleared_out (s : State) : (cleared s).out = s.out := (rfl)
@[simp] theorem cleared_host (s : State) : (cleared s).host = s.host := (rfl)
@[simp] theorem cleared_reads (s : State) : (cleared s).reads = s.reads := (rfl)
@[simp] theorem cleared_schedule (s : State) : (cleared s).schedule = s.schedule := (rfl)
@[simp] theorem cleared_draws (s : State) : (cleared s).draws = s.draws := (rfl)

/-! ### countStart -/

@[simp] theorem countStart_params (s : State) : (countStart s).params = s.params := (rfl)
@[simp] theorem countStart_pending (s : State) : (countStart s).pending = s.pending := (rfl)
@[simp] theorem countStart_done (s : State) : (countStart s).done = s.done := (rfl)
@[simp] theorem countStart_err (s : State) : (countStart s).err = s.err := (rfl)
@[simp] theorem countStart_ign (s : State) : (countStart s).ign = s.ign := (rfl)
@[simp] theorem countStart_errCode (s : State) : (countStart s).errCode = s.errCode := (rfl)
@[simp] theorem countStart_lastOp (s : State) : (countStart s).lastOp = s.lastOp := (rfl)
@[simp] theorem countStart_errStep (s : State) : (countStart s).errStep = s.errStep := (rfl)
@[simp] theorem countStart_freqV (s : State) : (countStart s).freqV = s.freqV := (rfl)
@[simp] theorem countStart_treeV (s : State) : (countStart s).treeV = s.treeV := (rfl)
@[simp] theorem countStart_codeV (s : State) : (countStart s).codeV = s.codeV := (rfl)
@[simp] theorem countStart_hdrV (s : State) : (countStart s).hdrV = s.hdrV := (rfl)
@[simp] theorem countStart_treeSrc (s : State) : (countStart s).treeSrc = s.treeSrc := (rfl)
@[simp] theorem countStart_errInfo (s : State) : (countStart s).errInfo = s.errInfo := (rfl)
@[simp] theorem countStart_ie (s : State) : (countStart s).ie = s.ie := (rfl)
@[simp] theorem countStart_inCount (s : State) : (countStart s).inCount = 0 := (rfl)
@[simp] theorem countStart_encCount (s : State) : (countStart s).encCount = s.encCount := (rfl)
@[simp] theorem countStart_decCount (s : State) : (countStart s).decCount = s.decCount := (rfl)
@[simp] theorem countStart_outBits (s : State) : (countStart s).outBits = s.outBits := (rfl)
@[simp] theorem countStart_hdrBits (s : State) : (countStart s).hdrBits = s.hdrBits := (rfl)
@[simp] theorem countStart_index (s : State) : (countStart s).index = s.index := (rfl)
@[simp] theorem countStart_wsel (s : State) : (countStart s).wsel = s.wsel := (rfl)
@[simp] theorem countStart_freq (s : State) : (countStart s).freq = [] := (rfl)
@[simp] theorem countStart_nodes (s : State) : (countStart s).nodes = s.nodes := (rfl)
@[simp] theorem countStart_nodeCount (s : State) : (countStart s).nodeCount = s.nodeCount := (rfl)
@[simp] theorem countStart_root (s : State) : (countStart s).root = s.root := (rfl)
@[simp] theorem countStart_codes (s : State) : (countStart s).codes = s.codes := (rfl)
@[simp] theorem countStart_inBytes (s : State) : (countStart s).inBytes = s.inBytes := (rfl)
@[simp] theorem countStart_inPos (s : State) : (countStart s).inPos = 0 := (rfl)
@[simp] theorem countStart_out (s : State) : (countStart s).out = s.out := (rfl)
@[simp] theorem countStart_host (s : State) : (countStart s).host = s.host := (rfl)
@[simp] theorem countStart_reads (s : State) : (countStart s).reads = s.reads := (rfl)
@[simp] theorem countStart_schedule (s : State) : (countStart s).schedule = s.schedule := (rfl)
@[simp] theorem countStart_draws (s : State) : (countStart s).draws = s.draws := (rfl)

/-! ### countByte -/

@[simp] theorem countByte_params (r : Byte) (s : State) : (countByte r s).params = s.params := (rfl)
@[simp] theorem countByte_pending (r : Byte) (s : State) : (countByte r s).pending = s.pending := (rfl)
@[simp] theorem countByte_done (r : Byte) (s : State) : (countByte r s).done = s.done := (rfl)
@[simp] theorem countByte_err (r : Byte) (s : State) : (countByte r s).err = s.err := (rfl)
@[simp] theorem countByte_ign (r : Byte) (s : State) : (countByte r s).ign = s.ign := (rfl)
@[simp] theorem countByte_errCode (r : Byte) (s : State) : (countByte r s).errCode = s.errCode := (rfl)
@[simp] theorem countByte_lastOp (r : Byte) (s : State) : (countByte r s).lastOp = s.lastOp := (rfl)
@[simp] theorem countByte_errStep (r : Byte) (s : State) : (countByte r s).errStep = s.errStep := (rfl)
@[simp] theorem countByte_freqV (r : Byte) (s : State) : (countByte r s).freqV = s.freqV := (rfl)
@[simp] theorem countByte_treeV (r : Byte) (s : State) : (countByte r s).treeV = s.treeV := (rfl)
@[simp] theorem countByte_codeV (r : Byte) (s : State) : (countByte r s).codeV = s.codeV := (rfl)
@[simp] theorem countByte_hdrV (r : Byte) (s : State) : (countByte r s).hdrV = s.hdrV := (rfl)
@[simp] theorem countByte_treeSrc (r : Byte) (s : State) : (countByte r s).treeSrc = s.treeSrc := (rfl)
@[simp] theorem countByte_errInfo (r : Byte) (s : State) : (countByte r s).errInfo = s.errInfo := (rfl)
@[simp] theorem countByte_ie (r : Byte) (s : State) : (countByte r s).ie = s.ie := (rfl)
@[simp] theorem countByte_inCount (r : Byte) (s : State) : (countByte r s).inCount = s.inCount + 1 := (rfl)
@[simp] theorem countByte_encCount (r : Byte) (s : State) : (countByte r s).encCount = s.encCount := (rfl)
@[simp] theorem countByte_decCount (r : Byte) (s : State) : (countByte r s).decCount = s.decCount := (rfl)
@[simp] theorem countByte_outBits (r : Byte) (s : State) : (countByte r s).outBits = s.outBits := (rfl)
@[simp] theorem countByte_hdrBits (r : Byte) (s : State) : (countByte r s).hdrBits = s.hdrBits := (rfl)
@[simp] theorem countByte_index (r : Byte) (s : State) : (countByte r s).index = s.index := (rfl)
@[simp] theorem countByte_wsel (r : Byte) (s : State) : (countByte r s).wsel = s.wsel := (rfl)
@[simp] theorem countByte_freq (r : Byte) (s : State) : (countByte r s).freq = memSet freqDefault s.freq r.toNat (freqAt s r.toNat + 1) := (rfl)
@[simp] theorem countByte_nodes (r : Byte) (s : State) : (countByte r s).nodes = s.nodes := (rfl)
@[simp] theorem countByte_nodeCount (r : Byte) (s : State) : (countByte r s).nodeCount = s.nodeCount := (rfl)
@[simp] theorem countByte_root (r : Byte) (s : State) : (countByte r s).root = s.root := (rfl)
@[simp] theorem countByte_codes (r : Byte) (s : State) : (countByte r s).codes = s.codes := (rfl)
@[simp] theorem countByte_inBytes (r : Byte) (s : State) : (countByte r s).inBytes = s.inBytes := (rfl)
@[simp] theorem countByte_inPos (r : Byte) (s : State) : (countByte r s).inPos = s.inPos := (rfl)
@[simp] theorem countByte_out (r : Byte) (s : State) : (countByte r s).out = s.out := (rfl)
@[simp] theorem countByte_host (r : Byte) (s : State) : (countByte r s).host = s.host := (rfl)
@[simp] theorem countByte_reads (r : Byte) (s : State) : (countByte r s).reads = s.reads := (rfl)
@[simp] theorem countByte_schedule (r : Byte) (s : State) : (countByte r s).schedule = s.schedule := (rfl)
@[simp] theorem countByte_draws (r : Byte) (s : State) : (countByte r s).draws = s.draws := (rfl)

/-! ### accept -/

@[simp] theorem accept_params (w : Word) (s : State) : (accept w s).params = s.params := (rfl)
@[simp] theorem accept_pending (w : Word) (s : State) : (accept w s).pending = some w := (rfl)
@[simp] theorem accept_done (w : Word) (s : State) : (accept w s).done = false := (rfl)
@[simp] theorem accept_err (w : Word) (s : State) : (accept w s).err = false := (rfl)
@[simp] theorem accept_ign (w : Word) (s : State) : (accept w s).ign = false := (rfl)
@[simp] theorem accept_errCode (w : Word) (s : State) : (accept w s).errCode = 0 := (rfl)
@[simp] theorem accept_lastOp (w : Word) (s : State) : (accept w s).lastOp = opField w := (rfl)
@[simp] theorem accept_errStep (w : Word) (s : State) : (accept w s).errStep = 0 := (rfl)
@[simp] theorem accept_freqV (w : Word) (s : State) : (accept w s).freqV = s.freqV := (rfl)
@[simp] theorem accept_treeV (w : Word) (s : State) : (accept w s).treeV = s.treeV := (rfl)
@[simp] theorem accept_codeV (w : Word) (s : State) : (accept w s).codeV = s.codeV := (rfl)
@[simp] theorem accept_hdrV (w : Word) (s : State) : (accept w s).hdrV = s.hdrV := (rfl)
@[simp] theorem accept_treeSrc (w : Word) (s : State) : (accept w s).treeSrc = s.treeSrc := (rfl)
@[simp] theorem accept_errInfo (w : Word) (s : State) : (accept w s).errInfo = 0 := (rfl)
@[simp] theorem accept_ie (w : Word) (s : State) : (accept w s).ie = s.ie := (rfl)
@[simp] theorem accept_inCount (w : Word) (s : State) : (accept w s).inCount = s.inCount := (rfl)
@[simp] theorem accept_encCount (w : Word) (s : State) : (accept w s).encCount = s.encCount := (rfl)
@[simp] theorem accept_decCount (w : Word) (s : State) : (accept w s).decCount = s.decCount := (rfl)
@[simp] theorem accept_outBits (w : Word) (s : State) : (accept w s).outBits = s.outBits := (rfl)
@[simp] theorem accept_hdrBits (w : Word) (s : State) : (accept w s).hdrBits = s.hdrBits := (rfl)
@[simp] theorem accept_index (w : Word) (s : State) : (accept w s).index = s.index := (rfl)
@[simp] theorem accept_wsel (w : Word) (s : State) : (accept w s).wsel = s.wsel := (rfl)
@[simp] theorem accept_freq (w : Word) (s : State) : (accept w s).freq = s.freq := (rfl)
@[simp] theorem accept_nodes (w : Word) (s : State) : (accept w s).nodes = s.nodes := (rfl)
@[simp] theorem accept_nodeCount (w : Word) (s : State) : (accept w s).nodeCount = s.nodeCount := (rfl)
@[simp] theorem accept_root (w : Word) (s : State) : (accept w s).root = s.root := (rfl)
@[simp] theorem accept_codes (w : Word) (s : State) : (accept w s).codes = s.codes := (rfl)
@[simp] theorem accept_inBytes (w : Word) (s : State) : (accept w s).inBytes = s.inBytes := (rfl)
@[simp] theorem accept_inPos (w : Word) (s : State) : (accept w s).inPos = s.inPos := (rfl)
@[simp] theorem accept_out (w : Word) (s : State) : (accept w s).out = s.out := (rfl)
@[simp] theorem accept_host (w : Word) (s : State) : (accept w s).host = s.host := (rfl)
@[simp] theorem accept_reads (w : Word) (s : State) : (accept w s).reads = s.reads := (rfl)
@[simp] theorem accept_schedule (w : Word) (s : State) : (accept w s).schedule = s.schedule := (rfl)
@[simp] theorem accept_draws (w : Word) (s : State) : (accept w s).draws = s.draws := (rfl)

/-! ### retire -/

@[simp] theorem retire_params (s : State) : (retire s).params = s.params := (rfl)
@[simp] theorem retire_pending (s : State) : (retire s).pending = none := (rfl)
@[simp] theorem retire_done (s : State) : (retire s).done = true := (rfl)
@[simp] theorem retire_err (s : State) : (retire s).err = s.err := (rfl)
@[simp] theorem retire_ign (s : State) : (retire s).ign = s.ign := (rfl)
@[simp] theorem retire_errCode (s : State) : (retire s).errCode = s.errCode := (rfl)
@[simp] theorem retire_lastOp (s : State) : (retire s).lastOp = s.lastOp := (rfl)
@[simp] theorem retire_errStep (s : State) : (retire s).errStep = s.errStep := (rfl)
@[simp] theorem retire_freqV (s : State) : (retire s).freqV = s.freqV := (rfl)
@[simp] theorem retire_treeV (s : State) : (retire s).treeV = s.treeV := (rfl)
@[simp] theorem retire_codeV (s : State) : (retire s).codeV = s.codeV := (rfl)
@[simp] theorem retire_hdrV (s : State) : (retire s).hdrV = s.hdrV := (rfl)
@[simp] theorem retire_treeSrc (s : State) : (retire s).treeSrc = s.treeSrc := (rfl)
@[simp] theorem retire_errInfo (s : State) : (retire s).errInfo = s.errInfo := (rfl)
@[simp] theorem retire_ie (s : State) : (retire s).ie = s.ie := (rfl)
@[simp] theorem retire_inCount (s : State) : (retire s).inCount = s.inCount := (rfl)
@[simp] theorem retire_encCount (s : State) : (retire s).encCount = s.encCount := (rfl)
@[simp] theorem retire_decCount (s : State) : (retire s).decCount = s.decCount := (rfl)
@[simp] theorem retire_outBits (s : State) : (retire s).outBits = s.outBits := (rfl)
@[simp] theorem retire_hdrBits (s : State) : (retire s).hdrBits = s.hdrBits := (rfl)
@[simp] theorem retire_index (s : State) : (retire s).index = s.index := (rfl)
@[simp] theorem retire_wsel (s : State) : (retire s).wsel = s.wsel := (rfl)
@[simp] theorem retire_freq (s : State) : (retire s).freq = s.freq := (rfl)
@[simp] theorem retire_nodes (s : State) : (retire s).nodes = s.nodes := (rfl)
@[simp] theorem retire_nodeCount (s : State) : (retire s).nodeCount = s.nodeCount := (rfl)
@[simp] theorem retire_root (s : State) : (retire s).root = s.root := (rfl)
@[simp] theorem retire_codes (s : State) : (retire s).codes = s.codes := (rfl)
@[simp] theorem retire_inBytes (s : State) : (retire s).inBytes = s.inBytes := (rfl)
@[simp] theorem retire_inPos (s : State) : (retire s).inPos = s.inPos := (rfl)
@[simp] theorem retire_out (s : State) : (retire s).out = s.out := (rfl)
@[simp] theorem retire_host (s : State) : (retire s).host = s.host := (rfl)
@[simp] theorem retire_reads (s : State) : (retire s).reads = s.reads := (rfl)
@[simp] theorem retire_schedule (s : State) : (retire s).schedule = s.schedule := (rfl)
@[simp] theorem retire_draws (s : State) : (retire s).draws = s.draws := (rfl)

/-! ### ackStatus -/

@[simp] theorem ackStatus_params (w : Word) (s : State) : (ackStatus w s).params = s.params := (rfl)
@[simp] theorem ackStatus_pending (w : Word) (s : State) : (ackStatus w s).pending = s.pending := (rfl)
@[simp] theorem ackStatus_done (w : Word) (s : State) : (ackStatus w s).done = (s.done && !w.getLsbD 1) := (rfl)
@[simp] theorem ackStatus_err (w : Word) (s : State) : (ackStatus w s).err = (s.err && !w.getLsbD 1) := (rfl)
@[simp] theorem ackStatus_ign (w : Word) (s : State) : (ackStatus w s).ign = (s.ign && !w.getLsbD 3) := (rfl)
@[simp] theorem ackStatus_errCode (w : Word) (s : State) : (ackStatus w s).errCode = s.errCode := (rfl)
@[simp] theorem ackStatus_lastOp (w : Word) (s : State) : (ackStatus w s).lastOp = s.lastOp := (rfl)
@[simp] theorem ackStatus_errStep (w : Word) (s : State) : (ackStatus w s).errStep = s.errStep := (rfl)
@[simp] theorem ackStatus_freqV (w : Word) (s : State) : (ackStatus w s).freqV = s.freqV := (rfl)
@[simp] theorem ackStatus_treeV (w : Word) (s : State) : (ackStatus w s).treeV = s.treeV := (rfl)
@[simp] theorem ackStatus_codeV (w : Word) (s : State) : (ackStatus w s).codeV = s.codeV := (rfl)
@[simp] theorem ackStatus_hdrV (w : Word) (s : State) : (ackStatus w s).hdrV = s.hdrV := (rfl)
@[simp] theorem ackStatus_treeSrc (w : Word) (s : State) : (ackStatus w s).treeSrc = s.treeSrc := (rfl)
@[simp] theorem ackStatus_errInfo (w : Word) (s : State) : (ackStatus w s).errInfo = s.errInfo := (rfl)
@[simp] theorem ackStatus_ie (w : Word) (s : State) : (ackStatus w s).ie = s.ie := (rfl)
@[simp] theorem ackStatus_inCount (w : Word) (s : State) : (ackStatus w s).inCount = s.inCount := (rfl)
@[simp] theorem ackStatus_encCount (w : Word) (s : State) : (ackStatus w s).encCount = s.encCount := (rfl)
@[simp] theorem ackStatus_decCount (w : Word) (s : State) : (ackStatus w s).decCount = s.decCount := (rfl)
@[simp] theorem ackStatus_outBits (w : Word) (s : State) : (ackStatus w s).outBits = s.outBits := (rfl)
@[simp] theorem ackStatus_hdrBits (w : Word) (s : State) : (ackStatus w s).hdrBits = s.hdrBits := (rfl)
@[simp] theorem ackStatus_index (w : Word) (s : State) : (ackStatus w s).index = s.index := (rfl)
@[simp] theorem ackStatus_wsel (w : Word) (s : State) : (ackStatus w s).wsel = s.wsel := (rfl)
@[simp] theorem ackStatus_freq (w : Word) (s : State) : (ackStatus w s).freq = s.freq := (rfl)
@[simp] theorem ackStatus_nodes (w : Word) (s : State) : (ackStatus w s).nodes = s.nodes := (rfl)
@[simp] theorem ackStatus_nodeCount (w : Word) (s : State) : (ackStatus w s).nodeCount = s.nodeCount := (rfl)
@[simp] theorem ackStatus_root (w : Word) (s : State) : (ackStatus w s).root = s.root := (rfl)
@[simp] theorem ackStatus_codes (w : Word) (s : State) : (ackStatus w s).codes = s.codes := (rfl)
@[simp] theorem ackStatus_inBytes (w : Word) (s : State) : (ackStatus w s).inBytes = s.inBytes := (rfl)
@[simp] theorem ackStatus_inPos (w : Word) (s : State) : (ackStatus w s).inPos = s.inPos := (rfl)
@[simp] theorem ackStatus_out (w : Word) (s : State) : (ackStatus w s).out = s.out := (rfl)
@[simp] theorem ackStatus_host (w : Word) (s : State) : (ackStatus w s).host = s.host := (rfl)
@[simp] theorem ackStatus_reads (w : Word) (s : State) : (ackStatus w s).reads = s.reads := (rfl)
@[simp] theorem ackStatus_schedule (w : Word) (s : State) : (ackStatus w s).schedule = s.schedule := (rfl)
@[simp] theorem ackStatus_draws (w : Word) (s : State) : (ackStatus w s).draws = s.draws := (rfl)

/-! ### emitByte -/

@[simp] theorem emitByte_params (sym : Sym) (s : State) : (emitByte sym s).params = s.params := (rfl)
@[simp] theorem emitByte_pending (sym : Sym) (s : State) : (emitByte sym s).pending = s.pending := (rfl)
@[simp] theorem emitByte_done (sym : Sym) (s : State) : (emitByte sym s).done = s.done := (rfl)
@[simp] theorem emitByte_err (sym : Sym) (s : State) : (emitByte sym s).err = s.err := (rfl)
@[simp] theorem emitByte_ign (sym : Sym) (s : State) : (emitByte sym s).ign = s.ign := (rfl)
@[simp] theorem emitByte_errCode (sym : Sym) (s : State) : (emitByte sym s).errCode = s.errCode := (rfl)
@[simp] theorem emitByte_lastOp (sym : Sym) (s : State) : (emitByte sym s).lastOp = s.lastOp := (rfl)
@[simp] theorem emitByte_errStep (sym : Sym) (s : State) : (emitByte sym s).errStep = s.errStep := (rfl)
@[simp] theorem emitByte_freqV (sym : Sym) (s : State) : (emitByte sym s).freqV = s.freqV := (rfl)
@[simp] theorem emitByte_treeV (sym : Sym) (s : State) : (emitByte sym s).treeV = s.treeV := (rfl)
@[simp] theorem emitByte_codeV (sym : Sym) (s : State) : (emitByte sym s).codeV = s.codeV := (rfl)
@[simp] theorem emitByte_hdrV (sym : Sym) (s : State) : (emitByte sym s).hdrV = s.hdrV := (rfl)
@[simp] theorem emitByte_treeSrc (sym : Sym) (s : State) : (emitByte sym s).treeSrc = s.treeSrc := (rfl)
@[simp] theorem emitByte_errInfo (sym : Sym) (s : State) : (emitByte sym s).errInfo = s.errInfo := (rfl)
@[simp] theorem emitByte_ie (sym : Sym) (s : State) : (emitByte sym s).ie = s.ie := (rfl)
@[simp] theorem emitByte_inCount (sym : Sym) (s : State) : (emitByte sym s).inCount = s.inCount := (rfl)
@[simp] theorem emitByte_encCount (sym : Sym) (s : State) : (emitByte sym s).encCount = s.encCount := (rfl)
@[simp] theorem emitByte_decCount (sym : Sym) (s : State) : (emitByte sym s).decCount = s.decCount + 1 := (rfl)
@[simp] theorem emitByte_outBits (sym : Sym) (s : State) : (emitByte sym s).outBits = s.outBits + 8 := (rfl)
@[simp] theorem emitByte_hdrBits (sym : Sym) (s : State) : (emitByte sym s).hdrBits = s.hdrBits := (rfl)
@[simp] theorem emitByte_index (sym : Sym) (s : State) : (emitByte sym s).index = s.index := (rfl)
@[simp] theorem emitByte_wsel (sym : Sym) (s : State) : (emitByte sym s).wsel = s.wsel := (rfl)
@[simp] theorem emitByte_freq (sym : Sym) (s : State) : (emitByte sym s).freq = s.freq := (rfl)
@[simp] theorem emitByte_nodes (sym : Sym) (s : State) : (emitByte sym s).nodes = s.nodes := (rfl)
@[simp] theorem emitByte_nodeCount (sym : Sym) (s : State) : (emitByte sym s).nodeCount = s.nodeCount := (rfl)
@[simp] theorem emitByte_root (sym : Sym) (s : State) : (emitByte sym s).root = s.root := (rfl)
@[simp] theorem emitByte_codes (sym : Sym) (s : State) : (emitByte sym s).codes = s.codes := (rfl)
@[simp] theorem emitByte_inBytes (sym : Sym) (s : State) : (emitByte sym s).inBytes = s.inBytes := (rfl)
@[simp] theorem emitByte_inPos (sym : Sym) (s : State) : (emitByte sym s).inPos = s.inPos := (rfl)
@[simp] theorem emitByte_out (sym : Sym) (s : State) : (emitByte sym s).out = s.out ++ bin 8 (BitVec.setWidth 8 sym) := (rfl)
@[simp] theorem emitByte_host (sym : Sym) (s : State) : (emitByte sym s).host = s.host := (rfl)
@[simp] theorem emitByte_reads (sym : Sym) (s : State) : (emitByte sym s).reads = s.reads := (rfl)
@[simp] theorem emitByte_schedule (sym : Sym) (s : State) : (emitByte sym s).schedule = s.schedule := (rfl)
@[simp] theorem emitByte_draws (sym : Sym) (s : State) : (emitByte sym s).draws = s.draws := (rfl)

end Sys2Proof.Machine
end

