-- ==== Sys2Proof/Laws/Bits.lean ====
section
/-! SUPPORT. The memories (read after write, the canonical form), bit strings and numbers, and the streams as bit lists. -/

set_option autoImplicit false

namespace Sys2Proof.Machine

/-! ### Memories -/

theorem lookup_filter_of_true {α : Type} (p : Nat × α → Bool) (m : List (Nat × α)) (i : Nat)
    (h : ∀ c : Nat × α, c.1 = i → p c = true) : (m.filter p).lookup i = m.lookup i := by
  induction m with
  | nil => rfl
  | cons c m ih =>
    obtain ⟨k, x⟩ := c
    by_cases hk : k = i
    · subst hk; simp [h (k, x) rfl]
    · have hk' : (i == k) = false := by simpa using fun h => hk h.symm
      by_cases hp : p (k, x) = true
      · simp [hp, List.lookup_cons, hk', ih]
      · simp [hp, List.lookup_cons, hk', ih]

theorem lookup_filter_of_false {α : Type} (p : Nat × α → Bool) (m : List (Nat × α)) (i : Nat)
    (h : ∀ c : Nat × α, c.1 = i → p c = false) : (m.filter p).lookup i = none := by
  induction m with
  | nil => rfl
  | cons c m ih =>
    obtain ⟨k, x⟩ := c
    by_cases hk : k = i
    · subst hk; simp [h (k, x) rfl, ih]
    · have hk' : (i == k) = false := by simpa using fun h => hk h.symm
      by_cases hp : p (k, x) = true
      · simp [hp, List.lookup_cons, hk', ih]
      · simp [hp, ih]

theorem lookup_memSet {α : Type} [DecidableEq α] (d : α) (m : List (Nat × α)) (i j : Nat) (v : α) :
    (memSet d m i v).lookup j = if i = j then (if v = d then none else some v) else m.lookup j := by
  unfold memSet
  rw [List.lookup_append, List.lookup_append]
  rcases Nat.lt_trichotomy i j with h | h | h
  · rw [lookup_filter_of_false _ _ _ (by rintro ⟨k, x⟩ rfl; simpa using h.le),
      lookup_filter_of_true _ _ _ (by rintro ⟨k, x⟩ rfl; simpa using h)]
    have hb : (j == i) = false := by simp; omega
    by_cases hv : v = d <;> simp [hv, List.lookup_cons, hb, h.ne]
  · subst h
    rw [lookup_filter_of_false _ _ _ (by rintro ⟨k, x⟩ rfl; simp),
      lookup_filter_of_false _ _ _ (by rintro ⟨k, x⟩ rfl; simp)]
    by_cases hv : v = d <;> simp [hv]
  · rw [lookup_filter_of_true _ _ _ (by rintro ⟨k, x⟩ rfl; simpa using h),
      lookup_filter_of_false (fun c => decide (i < c.1)) _ _ (by rintro ⟨k, x⟩ rfl; simpa using h.le)]
    have hb : (j == i) = false := by simp; omega
    by_cases hv : v = d <;> simp [hv, List.lookup_cons, hb, h.ne']

/-- Read after write, at any index. -/
theorem memGet_memSet {α : Type} [DecidableEq α] (d : α) (m : List (Nat × α)) (i j : Nat) (v : α) :
    memGet d (memSet d m i v) j = if i = j then v else memGet d m j := by
  unfold memGet
  rw [lookup_memSet]
  by_cases h : i = j
  · by_cases hv : v = d <;> simp [h, hv]
  · simp [h]

@[simp] theorem memGet_memSet_same {α : Type} [DecidableEq α] (d : α) (m : List (Nat × α)) (i : Nat) (v : α) :
    memGet d (memSet d m i v) i = v := by simp [memGet_memSet]

theorem memGet_memSet_ne {α : Type} [DecidableEq α] (d : α) (m : List (Nat × α)) {i j : Nat} (h : i ≠ j) (v : α) :
    memGet d (memSet d m i v) j = memGet d m j := by simp [memGet_memSet, h]

@[simp] theorem memGet_nil {α : Type} (d : α) (i : Nat) : memGet d [] i = d := rfl

@[simp] theorem memWf_nil {α : Type} [DecidableEq α] (d : α) (n : Nat) : memWf d n [] = true := rfl

theorem memWf_iff {α : Type} [DecidableEq α] (d : α) (n : Nat) (m : List (Nat × α)) :
    memWf d n m = true ↔ m.Pairwise (fun a b => a.1 < b.1) ∧ ∀ c ∈ m, c.1 < n ∧ c.2 ≠ d := by
  simp [memWf]

/-- A write inside the memory keeps the canonical form. -/
theorem memWf_memSet {α : Type} [DecidableEq α] {d : α} {n : Nat} {m : List (Nat × α)} {i : Nat} (v : α)
    (hm : memWf d n m = true) (hi : i < n) : memWf d n (memSet d m i v) = true := by
  rw [memWf_iff] at hm ⊢
  obtain ⟨hp, ha⟩ := hm
  unfold memSet
  constructor
  · rw [List.pairwise_append, List.pairwise_append]
    refine ⟨⟨hp.filter _, ?_, ?_⟩, hp.filter _, ?_⟩
    · by_cases hv : v = d <;> simp [hv]
    · intro a ha b hb
      by_cases hv : v = d
      · simp [hv] at hb
      · simp [hv] at hb ha; subst hb; exact ha.2
    · intro a ha b hb
      simp only [List.mem_append, List.mem_filter, decide_eq_true_eq] at ha hb
      rcases ha with ha | ha
      · omega
      · by_cases hv : v = d
        · simp [hv] at ha
        · simp [hv] at ha; subst ha; exact hb.2
  · intro c hc
    simp only [List.mem_append, List.mem_filter, decide_eq_true_eq] at hc
    rcases hc with (hc | hc) | hc
    · exact ha c hc.1
    · by_cases hv : v = d
      · simp [hv] at hc
      · simp [hv] at hc; subst hc; exact ⟨hi, hv⟩
    · exact ha c hc.1

theorem lookup_eq_none_of_lt {α : Type} {m : List (Nat × α)} {i : Nat} (h : ∀ c ∈ m, i < c.1) : m.lookup i = none := by
  rw [List.lookup_eq_none_iff]
  intro c hc
  have := h c hc
  simp; omega

/-- Two memories in canonical form that read alike are the same data. -/
theorem memWf_ext {α : Type} [DecidableEq α] {d : α} {n : Nat} {m m' : List (Nat × α)}
    (hm : memWf d n m = true) (hm' : memWf d n m' = true) (h : ∀ i, memGet d m i = memGet d m' i) : m = m' := by
  rw [memWf_iff] at hm hm'
  induction m generalizing m' with
  | nil =>
    cases m' with
    | nil => rfl
    | cons c m' =>
      obtain ⟨k, x⟩ := c
      have h1 := h k
      simp only [memGet, List.lookup_nil, List.lookup_cons, beq_self_eq_true, Option.getD_none, Option.getD_some] at h1
      exact absurd h1.symm (hm'.2 (k, x) (by simp)).2
  | cons c m ih =>
    cases m' with
    | nil =>
      obtain ⟨k, x⟩ := c
      have h1 := h k
      simp only [memGet, List.lookup_nil, List.lookup_cons, beq_self_eq_true, Option.getD_none, Option.getD_some] at h1
      exact absurd h1 (hm.2 (k, x) (by simp)).2
    | cons c' m' =>
      obtain ⟨k, x⟩ := c
      obtain ⟨k', x'⟩ := c'
      obtain ⟨hp, ha⟩ := hm
      obtain ⟨hp', ha'⟩ := hm'
      rw [List.pairwise_cons] at hp hp'
      have hx := (ha (k, x) (by simp)).2
      have hx' := (ha' (k', x') (by simp)).2
      have hkk : k = k' := by
        rcases Nat.lt_trichotomy k k' with hlt | heq | hgt
        · have h1 := h k
          rw [memGet, memGet, lookup_eq_none_of_lt (m := (k', x') :: m') (i := k)] at h1
          · simp at h1; exact absurd h1 hx
          · intro c hc
            rcases List.mem_cons.1 hc with rfl | hc
            · exact hlt
            · exact hlt.trans (hp'.1 c hc)
        · exact heq
        · have h1 := h k'
          rw [memGet, memGet, lookup_eq_none_of_lt (m := (k, x) :: m) (i := k')] at h1
          · simp at h1; exact absurd h1.symm hx'
          · intro c hc
            rcases List.mem_cons.1 hc with rfl | hc
            · exact hgt
            · exact hgt.trans (hp.1 c hc)
      subst hkk
      have hxx : x = x' := by
        have h1 := h k
        simpa [memGet, List.lookup_cons] using h1
      subst hxx
      congr 1
      refine ih ⟨hp.2, fun c hc => ha c (by simp [hc])⟩ ⟨hp'.2, fun c hc => ha' c (by simp [hc])⟩ ?_
      intro i
      by_cases hik : i = k
      · subst hik
        rw [memGet, memGet, lookup_eq_none_of_lt (fun c hc => hp.1 c hc), lookup_eq_none_of_lt (fun c hc => hp'.1 c hc)]
      · have h1 := h i
        have hb : (i == k) = false := by simpa using hik
        simpa [memGet, List.lookup_cons, hb] using h1

/-! ### Bit strings and numbers -/

@[simp] theorem bin_length (n : Nat) (v : BitVec n) : (bin n v).length = n := by simp [bin]

theorem ofBits_append (v : Nat) (a b : List Bool) : ofBits v (a ++ b) = ofBits (ofBits v a) b := by
  simp [ofBits, List.foldl_append]

theorem ofBits_cons (v : Nat) (b : Bool) (bs : List Bool) : ofBits v (b :: bs) = ofBits (2 * v + b.toNat) bs := rfl

@[simp] theorem ofBits_nil (v : Nat) : ofBits v [] = v := rfl

theorem ofBits_eq (v : Nat) (bs : List Bool) : ofBits v bs = v * 2 ^ bs.length + ofBits 0 bs := by
  induction bs generalizing v with
  | nil => simp
  | cons b bs ih =>
    rw [ofBits_cons, ofBits_cons, ih, ih (2 * 0 + b.toNat), List.length_cons, pow_succ]
    ring

theorem ofBits_lt (bs : List Bool) : ofBits 0 bs < 2 ^ bs.length := by
  induction bs with
  | nil => simp
  | cons b bs ih =>
    rw [ofBits_cons, ofBits_eq, List.length_cons, pow_succ]
    cases b <;> simp <;> omega

theorem ofBits_inj {a b : List Bool} (hl : a.length = b.length) (h : ofBits 0 a = ofBits 0 b) : a = b := by
  induction a generalizing b with
  | nil => simpa using hl.symm
  | cons x a ih =>
    cases b with
    | nil => simp at hl
    | cons y b =>
      simp only [List.length_cons, Nat.succ.injEq] at hl
      rw [ofBits_cons, ofBits_cons, ofBits_eq, ofBits_eq _ b, hl] at h
      have h1 := ofBits_lt a
      have h2 := ofBits_lt b
      rw [hl] at h1
      cases x <;> cases y <;> simp at h
      · rw [ih hl h]
      · omega
      · omega
      · rw [ih hl h]

theorem ofBits_range_getMsbD (n : Nat) (v : BitVec n) (k : Nat) (hk : k ≤ n) :
    ofBits 0 ((List.range k).map v.getMsbD) = v.toNat / 2 ^ (n - k) := by
  induction k with
  | zero => simp [Nat.div_eq_of_lt v.isLt]
  | succ k ih =>
    rw [List.range_succ, List.map_append, ofBits_append, ih (by omega)]
    simp only [List.map_cons, List.map_nil, ofBits_cons, ofBits_nil]
    have h1 : n - k = (n - (k + 1)) + 1 := by omega
    have h2 : (v.getMsbD k).toNat = v.toNat / 2 ^ (n - (k + 1)) % 2 := by
      have hkn : k < n := by omega
      have : n - 1 - k = n - (k + 1) := by omega
      simp [BitVec.getMsbD, hkn, BitVec.getLsbD, Nat.testBit_eq_decide_div_mod_eq, this]
      have := Nat.mod_two_eq_zero_or_one (v.toNat / 2 ^ (n - (k + 1)))
      rcases this with h | h <;> simp [h]
    rw [h1, pow_succ, ← Nat.div_div_eq_div_mul, h2]
    omega

/-- The bits of a value, read as a number, are the value (R10, R72). -/
@[simp] theorem ofBits_bin (n : Nat) (v : BitVec n) : ofBits 0 (bin n v) = v.toNat := by
  have := ofBits_range_getMsbD n v n le_rfl
  simpa [bin] using this

/-- The other way round: a string of `n` bits is `bin_n` of the number it reads as. -/
theorem bin_ofBits (bs : List Bool) : bin bs.length (BitVec.ofNat bs.length (ofBits 0 bs)) = bs := by
  apply ofBits_inj (by simp)
  rw [ofBits_bin, BitVec.toNat_ofNat, Nat.mod_eq_of_lt (ofBits_lt bs)]

theorem bin_inj {n : Nat} {v w : BitVec n} (h : bin n v = bin n w) : v = w := by
  apply BitVec.eq_of_toNat_eq
  rw [← ofBits_bin, h, ofBits_bin]

@[simp] theorem ofNat_ofBits_bin (n : Nat) (v : BitVec n) : BitVec.ofNat n (ofBits 0 (bin n v)) = v := by simp

theorem bin_one (b : Bool) : bin 1 (BitVec.ofBool b) = [b] := by cases b <;> rfl

@[simp] theorem bin_one_zero : bin 1 0#1 = [false] := rfl
@[simp] theorem bin_one_one : bin 1 1#1 = [true] := rfl

/-- What the code string of an entry made from a path is: the path (R110). -/
theorem codeString_entryOf {path : List Bool} (h : path.length ≤ Config.maxCodeLen) : codeString (entryOf path) = path := by
  have hl : path.length < 2 ^ 9 := by simp [Config.maxCodeLen] at h; omega
  have hlen : (entryOf path).len.toNat = path.length := by
    simp only [entryOf, BitVec.toNat_ofNat]; exact Nat.mod_eq_of_lt hl
  apply ofBits_inj (by simp [codeString, hlen])
  rw [codeString, ofBits_bin, BitVec.toNat_setWidth, hlen]
  have h256 : 2 ^ path.length ≤ 2 ^ 256 := Nat.pow_le_pow_right (by omega) (by simpa [Config.maxCodeLen] using h)
  have := ofBits_lt path
  simp only [entryOf, BitVec.toNat_ofNat]
  rw [Nat.mod_eq_of_lt (by omega : ofBits 0 path < 2 ^ 256), Nat.mod_eq_of_lt this]

end Sys2Proof.Machine
end

