-- ==== Sys2Proof/Laws/Trees.lean ====
section
/-! SUPPORT. Trees: sizes, paths, prefix-freedom (00_scope R8, 30_encoding R108, 41_encoder R154, R159), and the tree a node store
holds. -/

set_option autoImplicit false

namespace Sys2Proof.Machine

/-! ### Sizes -/

theorem Tree.leaves_pos (t : Tree) : 0 < t.leaves.length := by
  induction t with
  | leaf => simp [Tree.leaves]
  | fork w l r ihl ihr => simp [Tree.leaves]; omega

/-- A full binary tree with L leaves has L − 1 internal nodes (R8). -/
theorem Tree.size_eq (t : Tree) : t.size + 1 = 2 * t.leaves.length := by
  induction t with
  | leaf => rfl
  | fork w l r ihl ihr => simp [Tree.size, Tree.leaves]; omega

/-- … and depth at most L − 1 (R8). -/
theorem Tree.depth_lt_leaves (t : Tree) : t.depth < t.leaves.length := by
  induction t with
  | leaf => simp [Tree.depth, Tree.leaves]
  | fork w l r ihl ihr =>
    have := l.leaves_pos
    have := r.leaves_pos
    simp [Tree.depth, Tree.leaves]; omega

/-- The header's length, `11·L − 1` (R108). -/
theorem Tree.header_length (t : Tree) : t.header.length + 1 = 11 * t.leaves.length := by
  induction t with
  | leaf => simp [Tree.header, Tree.leaves]
  | fork w l r ihl ihr => simp [Tree.header, Tree.leaves]; omega

@[simp] theorem Tree.header_shape (t : Tree) : t.shape.header = t.header := by
  induction t with
  | leaf => rfl
  | fork w l r ihl ihr => simp [Tree.shape, Tree.header, ihl, ihr]

@[simp] theorem Tree.size_shape (t : Tree) : t.shape.size = t.size := by
  induction t with
  | leaf => rfl
  | fork w l r ihl ihr => simp [Tree.shape, Tree.size, ihl, ihr]

@[simp] theorem Tree.depth_shape (t : Tree) : t.shape.depth = t.depth := by
  induction t with
  | leaf => rfl
  | fork w l r ihl ihr => simp [Tree.shape, Tree.depth, ihl, ihr]

@[simp] theorem Tree.shape_shape (t : Tree) : t.shape.shape = t.shape := by
  induction t with
  | leaf => rfl
  | fork w l r ihl ihr => simp [Tree.shape, ihl, ihr]

@[simp] theorem Tree.isFork_shape (t : Tree) : t.shape.isFork = t.isFork := by cases t <;> rfl

theorem Tree.leaves_shape_length (t : Tree) : t.shape.leaves.length = t.leaves.length := by
  have h1 := t.shape.size_eq
  have h2 := t.size_eq
  simp at h1; omega

/-! ### Paths -/

@[simp] theorem LeafCode.under_sym (b : Bool) (c : LeafCode) : (c.under b).sym = c.sym := rfl
@[simp] theorem LeafCode.under_weight (b : Bool) (c : LeafCode) : (c.under b).weight = c.weight := rfl
@[simp] theorem LeafCode.under_path (b : Bool) (c : LeafCode) : (c.under b).path = b :: c.path := rfl

theorem Tree.path_length_le (t : Tree) (c : LeafCode) (h : c ∈ t.codes) : c.path.length ≤ t.depth := by
  induction t generalizing c with
  | leaf => simp [Tree.codes] at h; subst h; simp
  | fork w l r ihl ihr =>
    simp only [Tree.codes, List.mem_append, List.mem_map] at h
    rcases h with ⟨d, hd, rfl⟩ | ⟨d, hd, rfl⟩
    · have := ihl d hd; simp [Tree.depth]; omega
    · have := ihr d hd; simp [Tree.depth]; omega

theorem Tree.path_pos (t : Tree) (hf : t.isFork = true) (c : LeafCode) (h : c ∈ t.codes) : 0 < c.path.length := by
  cases t with
  | leaf => simp [Tree.isFork] at hf
  | fork w l r =>
    simp only [Tree.codes, List.mem_append, List.mem_map] at h
    rcases h with ⟨d, hd, rfl⟩ | ⟨d, hd, rfl⟩ <;> simp

/-- The leaves with their paths are the leaves, in order. -/
theorem Tree.codes_map_node (t : Tree) : t.codes.map (fun c => Node.leaf c.sym c.weight) = t.leaves := by
  induction t with
  | leaf => rfl
  | fork w l r ihl ihr => simp [Tree.codes, Tree.leaves, Function.comp_def, ihl, ihr]

/-- The paths of a tree without its weights are the same. -/
theorem Tree.codes_shape (t : Tree) : t.shape.codes = t.codes.map (fun c => { c with weight := 0 }) := by
  induction t with
  | leaf => rfl
  | fork w l r ihl ihr => simp [Tree.shape, Tree.codes, ihl, ihr, Function.comp_def, LeafCode.under]

/-- "Every code GENCODE records is the path to a distinct leaf, and a leaf has no descendants" (R159): two leaves of which one's path
begins with the other's are one leaf. -/
theorem Tree.codes_pairwise (t : Tree) : t.codes.Pairwise fun c d => ¬ c.path <+: d.path ∧ ¬ d.path <+: c.path := by
  induction t with
  | leaf => simp [Tree.codes]
  | fork w l r ihl ihr =>
    rw [Tree.codes, List.pairwise_append, List.pairwise_map, List.pairwise_map]
    refine ⟨ihl.imp ?_, ihr.imp ?_, ?_⟩
    · intro a b h; simpa [List.cons_prefix_cons] using h
    · intro a b h; simpa [List.cons_prefix_cons] using h
    · intro a ha b hb
      simp only [List.mem_map] at ha hb
      obtain ⟨a, _, rfl⟩ := ha
      obtain ⟨b, _, rfl⟩ := hb
      simp [List.cons_prefix_cons]

theorem Tree.prefix_free (t : Tree) {c d : LeafCode} (hc : c ∈ t.codes) (hd : d ∈ t.codes) (h : c.path <+: d.path) : c = d := by
  by_contra hne
  rcases (List.pairwise_iff_getElem.1 t.codes_pairwise) with hp
  obtain ⟨i, hi, rfl⟩ := List.getElem_of_mem hc
  obtain ⟨j, hj, rfl⟩ := List.getElem_of_mem hd
  rcases Nat.lt_trichotomy i j with hij | hij | hij
  · exact (hp i j hi hj hij).1 h
  · subst hij; exact hne rfl
  · exact (hp j i hj hi hij).2 h

/-! ### The tree a node store holds -/

/-- The node store holds the tree `t` at `i`. -/
inductive Holds (s : State) : NodeIx → Tree → Prop
  | leaf {i : NodeIx} {sym : Sym} {w : Word} (h : walkNode s i = some (.leaf sym w)) : Holds s i (.leaf sym w)
  | fork {i l r : NodeIx} {w : Word} {a b : Tree} (h : walkNode s i = some (.internal w l r)) (ha : Holds s l a)
      (hb : Holds s r b) : Holds s i (.fork w a b)

theorem Holds.treeAt {s : State} {i : NodeIx} {t : Tree} (h : Holds s i t) {d : Nat} (hd : t.depth < d) :
    treeAt s d i = some t := by
  induction h generalizing d with
  | leaf h =>
    cases d with
    | zero => omega
    | succ d => simp [Machine.treeAt, h]
  | fork h ha hb iha ihb =>
    cases d with
    | zero => omega
    | succ d =>
      simp only [Tree.depth] at hd
      simp [Machine.treeAt, h, iha (d := d) (by omega), ihb (d := d) (by omega)]

theorem holds_of_treeAt {s : State} {d : Nat} {i : NodeIx} {t : Tree} (h : treeAt s d i = some t) :
    Holds s i t ∧ t.depth < d := by
  induction d generalizing i t with
  | zero => simp [treeAt] at h
  | succ d ih =>
    rw [treeAt] at h
    split at h
    · simp at h
    · rename_i sym w hw
      simp only [Option.some.injEq] at h; subst h
      exact ⟨.leaf hw, by simp [Tree.depth]⟩
    · rename_i w l r hw
      split at h
      · rename_i a b ha hb
        simp only [Option.some.injEq] at h; subst h
        obtain ⟨h1, h2⟩ := ih ha
        obtain ⟨h3, h4⟩ := ih hb
        exact ⟨.fork hw h1 h3, by simp [Tree.depth]; omega⟩
      · simp at h

/-- `storedTree` is `Holds` at `root`, with no path longer than `MAX_CODE_LEN`. -/
theorem storedTree_iff (s : State) (t : Tree) :
    storedTree s = some t ↔ Holds s s.root t ∧ t.depth ≤ Config.maxCodeLen := by
  constructor
  · intro h
    obtain ⟨h1, h2⟩ := holds_of_treeAt h
    exact ⟨h1, by omega⟩
  · rintro ⟨h1, h2⟩
    exact h1.treeAt (by omega)

/-- A tree stays where it is when the nodes a walk can visit stay. -/
theorem Holds.mono {s s1 : State} (hw : ∀ j n, walkNode s j = some n → walkNode s1 j = some n) {i : NodeIx} {t : Tree}
    (h : Holds s i t) : Holds s1 i t := by
  induction h with
  | leaf h => exact .leaf (hw _ _ h)
  | fork h _ _ iha ihb => exact .fork (hw _ _ h) iha ihb

theorem walkNode_congr {s s1 : State} (hn : s1.nodes = s.nodes) (hc : s1.nodeCount = s.nodeCount) (i : NodeIx) :
    walkNode s1 i = walkNode s i := by
  simp [walkNode, nodeAt, hn, hc]

theorem treeAt_congr {s s1 : State} (hn : s1.nodes = s.nodes) (hc : s1.nodeCount = s.nodeCount) (d : Nat) (i : NodeIx) :
    treeAt s1 d i = treeAt s d i := by
  induction d generalizing i with
  | zero => rfl
  | succ d ih => simp only [treeAt, walkNode_congr hn hc, ih]

theorem storedTree_congr {s s1 : State} (hn : s1.nodes = s.nodes) (hc : s1.nodeCount = s.nodeCount) (hr : s1.root = s.root) :
    storedTree s1 = storedTree s := by
  rw [storedTree, storedTree, hr, treeAt_congr hn hc]

/-- What `walkNode` answers is the node stored there, at an allocated index. -/
theorem walkNode_eq_some {s : State} {i : NodeIx} {n : Node} (h : walkNode s i = some n) :
    i < s.nodeCount ∧ nodeAt s i = n := by
  unfold walkNode at h
  split at h
  · rename_i hc
    refine ⟨hc.1, ?_⟩
    split at h
    · split at h <;> simp_all
    · simp_all
  · simp at h

/-- When a node can be walked to. -/
theorem walkNode_of {s : State} {i : NodeIx} {n : Node} (hi : i < s.nodeCount) (hc : s.nodeCount.toNat ≤ Config.nodeCap)
    (hn : nodeAt s i = n) (hsym : ∀ sym w, n = .leaf sym w → sym.toNat ≤ Config.pseudoEof) : walkNode s i = some n := by
  have : i.toNat < s.nodeCount.toNat := hi
  unfold walkNode
  rw [if_pos ⟨hi, by omega⟩, hn]
  cases n with
  | leaf sym w => simp [hsym sym w rfl]
  | internal w l r => rfl

end Sys2Proof.Machine
end

