-- ==== Sys2Proof/Laws/Build.lean ====
section
/-! SUPPORT. BUILD (41_encoder R152 to R157): the active set, the order PopMin takes nodes in, and the tree the merges leave. -/

set_option autoImplicit false

namespace Sys2Proof.Machine

/-! ### PopMin (R153) -/

/-- The pair (weight, index) as one number. -/
def orderKey (s : State) (i : NodeIx) : Nat := (nodeAt s i).weight.toNat * 1024 + i.toNat

theorem goesBefore_iff (s : State) (i j : NodeIx) : goesBefore s i j = true ↔ orderKey s i < orderKey s j := by
  have hi := i.isLt
  have hj := j.isLt
  simp only [goesBefore, orderKey, Bool.or_eq_true, decide_eq_true_eq, Bool.and_eq_true, beq_iff_eq, BitVec.lt_def,
    ← BitVec.toNat_inj (x := (nodeAt s i).weight)]
  constructor
  · rintro (h | ⟨h1, h2⟩) <;> omega
  · intro h; by_cases h1 : (nodeAt s i).weight.toNat < (nodeAt s j).weight.toNat
    · exact .inl h1
    · exact .inr (by omega)

theorem orderKey_inj {s : State} {i j : NodeIx} (h : orderKey s i = orderKey s j) : i = j := by
  have hi := i.isLt
  have hj := j.isLt
  simp only [orderKey] at h
  exact BitVec.eq_of_toNat_eq (by omega)

theorem minIx_spec (s : State) (i : NodeIx) (rest : List NodeIx) :
    minIx s i rest ∈ i :: rest ∧ ∀ j ∈ i :: rest, orderKey s (minIx s i rest) ≤ orderKey s j := by
  induction rest generalizing i with
  | nil => simp [minIx]
  | cons j rest ih =>
    have e : minIx s i (j :: rest) = minIx s (if goesBefore s j i then j else i) rest := rfl
    rw [e]
    by_cases h : goesBefore s j i = true
    · rw [if_pos h]
      obtain ⟨h1, h2⟩ := ih j
      have h3 := h2 j (by simp)
      rw [goesBefore_iff] at h
      refine ⟨List.mem_cons_of_mem _ h1, ?_⟩
      intro k hk
      simp only [List.mem_cons] at hk
      rcases hk with rfl | rfl | hk
      · omega
      · exact h3
      · exact h2 k (by simp [hk])
    · rw [if_neg h]
      obtain ⟨h1, h2⟩ := ih i
      have h3 := h2 i (by simp)
      rw [goesBefore_iff] at h
      refine ⟨(List.mem_cons.1 h1).elim (fun h => by rw [h]; exact List.mem_cons_self) fun h => List.mem_cons_of_mem _ (List.mem_cons_of_mem _ h), ?_⟩
      intro k hk
      simp only [List.mem_cons] at hk
      rcases hk with rfl | rfl | hk
      · exact h3
      · omega
      · exact h2 k (by simp [hk])

/-- `PopMin(A)` takes out the index that goes before every other one (R153). -/
theorem popMin_spec {s : State} {A : List NodeIx} (h : A ≠ []) :
    ∃ a, popMin s A = some (a, A.erase a) ∧ a ∈ A ∧ ∀ x ∈ A, x ≠ a → goesBefore s a x = true := by
  cases A with
  | nil => exact absurd rfl h
  | cons i rest =>
    obtain ⟨h1, h2⟩ := minIx_spec s i rest
    refine ⟨minIx s i rest, rfl, h1, fun x hx hne => ?_⟩
    rw [goesBefore_iff]
    exact lt_of_le_of_ne (h2 x hx) fun he => hne (orderKey_inj he).symm

/-! ### Allocation -/

/-- The fields allocation writes. -/
def grown (ns : List (Nat × Node)) (c : BitVec 10) (s : State) : State := { s with nodes := ns, nodeCount := c }

theorem alloc_eq (n : Node) (s : State) :
    alloc n s = grown (memSet nodeDefault s.nodes s.nodeCount.toNat n) (s.nodeCount + 1) s := rfl

theorem grown_grown (ns ns1 : List (Nat × Node)) (c c1 : BitVec 10) (s : State) :
    grown ns c (grown ns1 c1 s) = grown ns c s := rfl

theorem toNat_add_one {c : BitVec 10} (h : c.toNat < 1023) : (c + 1).toNat = c.toNat + 1 := by
  rw [BitVec.toNat_add, show (1 : BitVec 10).toNat = 1 from rfl]; omega

theorem allocAll_eq (l : List Node) (s : State) (h : s.nodeCount.toNat + l.length ≤ Config.nodeCap) :
    ∃ ns, allocAll l s = grown ns (s.nodeCount + BitVec.ofNat 10 l.length) s ∧
      (∀ j, memGet nodeDefault ns j =
        if s.nodeCount.toNat ≤ j ∧ j < s.nodeCount.toNat + l.length then l.getD (j - s.nodeCount.toNat) nodeDefault
        else memGet nodeDefault s.nodes j) ∧
      (memWf nodeDefault Config.nodeCap s.nodes = true → memWf nodeDefault Config.nodeCap ns = true) := by
  have hcap : Config.nodeCap = 513 := rfl
  induction l generalizing s with
  | nil =>
    refine ⟨s.nodes, by simp [allocAll, grown], fun j => ?_, id⟩
    rw [if_neg (by simp)]
  | cons n l ih =>
    simp only [List.length_cons] at h
    have hc : (alloc n s).nodeCount.toNat = s.nodeCount.toNat + 1 := toNat_add_one (by omega)
    obtain ⟨ns, h1, h2, h3⟩ := ih (alloc n s) (by omega)
    refine ⟨ns, ?_, fun j => ?_, fun hw => h3 (memWf_memSet _ hw (by omega))⟩
    · rw [show allocAll (n :: l) s = allocAll l (alloc n s) from rfl, h1, alloc_eq, grown_grown]
      congr 1
      rw [List.length_cons, Nat.add_comm, BitVec.ofNat_add, ← BitVec.add_assoc]; rfl
    · rw [h2, hc]
      have ha : memGet nodeDefault (alloc n s).nodes j = if s.nodeCount.toNat = j then n else memGet nodeDefault s.nodes j :=
        memGet_memSet _ _ _ _ _
      rw [ha, List.length_cons]
      by_cases hj : s.nodeCount.toNat = j
      · subst hj
        rw [if_neg (by omega), if_pos rfl, if_pos (by omega)]; simp
      · rw [if_neg hj]
        by_cases hj2 : s.nodeCount.toNat + 1 ≤ j ∧ j < s.nodeCount.toNat + 1 + l.length
        · rw [if_pos hj2, if_pos (by omega)]
          obtain ⟨k, rfl⟩ : ∃ k, j = s.nodeCount.toNat + 1 + k := ⟨j - (s.nodeCount.toNat + 1), by omega⟩
          rw [show s.nodeCount.toNat + 1 + k - s.nodeCount.toNat = k + 1 by omega, List.getD_cons_succ]
          congr 1; omega
        · rw [if_neg hj2, if_neg (by omega)]

/-! ### The merges (R152, R153) -/

theorem before_iff (s : State) (i j : NodeIx) : Before s i j ↔ goesBefore s i j = true := by
  simp [Before, goesBefore]

/-- Nodes below `k` read alike in `s` and `s1`. -/
def SameBelow (k : Nat) (s s1 : State) : Prop := ∀ j : NodeIx, j.toNat < k → nodeAt s1 j = nodeAt s j

theorem ActiveAt.congr {s s1 : State} {leaves k : Nat} {i : NodeIx} (h : SameBelow k s s1) (ha : ActiveAt s leaves k i) :
    ActiveAt s1 leaves k i :=
  ⟨ha.1, fun j hj hk w l r hn => ha.2 j hj hk w l r (by rw [← h j hk]; exact hn)⟩

theorem SameBelow.symm {s s1 : State} {k : Nat} (h : SameBelow k s s1) : SameBelow k s1 s := fun j hj => (h j hj).symm

theorem SameBelow.mono {s s1 : State} {k k1 : Nat} (h : SameBelow k s s1) (hk : k1 ≤ k) : SameBelow k1 s s1 :=
  fun j hj => h j (by omega)

theorem activeAt_congr {s s1 : State} {leaves k : Nat} {i : NodeIx} (h : SameBelow k s s1) :
    ActiveAt s1 leaves k i ↔ ActiveAt s leaves k i := ⟨.congr h.symm, .congr h⟩

theorem Before.congr {s s1 : State} {k : Nat} {i j : NodeIx} (h : SameBelow k s s1) (hi : i.toNat < k) (hj : j.toNat < k)
    (hb : Before s i j) : Before s1 i j := by
  rw [Before, h i hi, h j hj]; exact hb

theorem JoinsFirstTwo.congr {s s1 : State} {leaves : Nat} {k : NodeIx} (h : SameBelow (k.toNat + 1) s s1)
    (hj : JoinsFirstTwo s leaves k) : JoinsFirstTwo s1 leaves k := by
  obtain ⟨a, b, h1, h2, h3, h4, h5, h6⟩ := hj
  have hb := h.mono (Nat.le_succ _)
  refine ⟨a, b, ?_, h2, h3.congr hb, h4.congr hb, fun x hx hne => ?_, fun x hx hne hne2 => ?_⟩
  · rw [h k (by omega), hb a h3.1, hb b h4.1]; exact h1
  · exact (h5 x (hx.congr hb.symm) hne).congr hb h3.1 hx.1
  · exact (h6 x (hx.congr hb.symm) hne hne2).congr hb h4.1 hx.1

/-- What holds of the store and the active set `A` before every merge and after the last. -/
structure Merging (leaves : Nat) (lvs : List Node) (s : State) (A : List NodeIx) : Prop where
  nodup  : A.Nodup
  bound  : s.nodeCount.toNat + A.length = 2 * leaves
  cap    : leaves ≤ Config.alphabetSize
  le     : leaves ≤ s.nodeCount.toNat
  last   : A.getLast? = some (s.nodeCount - 1)
  active : ∀ i : NodeIx, i ∈ A ↔ ActiveAt s leaves s.nodeCount.toNat i
  joins  : ∀ k : NodeIx, leaves ≤ k.toNat → k.toNat < s.nodeCount.toNat → JoinsFirstTwo s leaves k
  trees  : ∃ T : NodeIx → Tree, (∀ a ∈ A, Holds s a (T a) ∧ (T a).weightsAdd = true ∧ (T a).weight = (nodeAt s a).weight) ∧
    (A.flatMap fun a => (T a).leaves).Perm lvs

theorem walkNode_grow {s : State} {n : Node} (hc : s.nodeCount.toNat < Config.nodeCap) {j : NodeIx} {m : Node}
    (h : walkNode s j = some m) : walkNode (alloc n s) j = some m := by
  have hcap : Config.nodeCap = 513 := rfl
  obtain ⟨h1, h2⟩ := walkNode_eq_some h
  have h1' : j.toNat < s.nodeCount.toNat := h1
  have hn : (alloc n s).nodeCount.toNat = s.nodeCount.toNat + 1 := toNat_add_one (by omega)
  have he : nodeAt (alloc n s) j = nodeAt s j := memGet_memSet_ne _ _ (by omega) _
  have hlt : j < (alloc n s).nodeCount := by rw [BitVec.lt_def, hn]; omega
  unfold walkNode at h ⊢
  rw [if_pos ⟨h1, by omega⟩] at h
  rw [if_pos ⟨hlt, by omega⟩, he]
  exact h

theorem sameBelow_alloc (n : Node) (s : State) : SameBelow s.nodeCount.toNat s (alloc n s) :=
  fun _ hj => memGet_memSet_ne _ _ (by omega) _

theorem nodeAt_alloc_new (n : Node) (s : State) : nodeAt (alloc n s) s.nodeCount = n := memGet_memSet_same _ _ _ _

/-- One merge. -/
theorem Merging.merge {leaves : Nat} {lvs : List Node} {s : State} {A : List NodeIx} (hm : Merging leaves lvs s A)
    (h2 : 2 ≤ A.length) :
    ∃ a b, popMin s A = some (a, A.erase a) ∧ popMin s (A.erase a) = some (b, (A.erase a).erase b) ∧
      Merging leaves lvs (alloc (joined s a b) s) ((A.erase a).erase b ++ [s.nodeCount]) := by
  have hcap : Config.nodeCap = 513 := rfl
  have halpha : Config.alphabetSize = 257 := rfl
  have hbound := hm.bound
  have hle := hm.le
  have hlcap := hm.cap
  obtain ⟨a, ha1, ha2, ha3⟩ := popMin_spec (s := s) (A := A) (by rintro rfl; simp at h2)
  have hlen1 : (A.erase a).length = A.length - 1 := List.length_erase_of_mem ha2
  obtain ⟨b, hb1, hb2, hb3⟩ := popMin_spec (s := s) (A := A.erase a) (by rintro h; rw [h] at hlen1; simp at hlen1; omega)
  have hlen2 : ((A.erase a).erase b).length = A.length - 2 := by rw [List.length_erase_of_mem hb2]; omega
  have hnd1 : (A.erase a).Nodup := hm.nodup.erase a
  have hbmem : b ≠ a ∧ b ∈ A := (hm.nodup.mem_erase_iff).1 hb2
  have hmem : ∀ i, i ∈ (A.erase a).erase b ↔ i ∈ A ∧ i ≠ a ∧ i ≠ b := by
    intro i; rw [hnd1.mem_erase_iff, hm.nodup.mem_erase_iff]; tauto
  have hlt : ∀ i ∈ A, i.toNat < s.nodeCount.toNat := fun i hi => ((hm.active i).1 hi).1
  have hnew : s.nodeCount ∉ A := fun h => absurd (hlt _ h) (lt_irrefl _)
  have hn : (alloc (joined s a b) s).nodeCount.toNat = s.nodeCount.toNat + 1 := toNat_add_one (by omega)
  have hsame := sameBelow_alloc (joined s a b) s
  have hnewAt : nodeAt (alloc (joined s a b) s) s.nodeCount = joined s a b := nodeAt_alloc_new _ s
  have hjoin : JoinsFirstTwo (alloc (joined s a b) s) leaves s.nodeCount := by
    refine ⟨a, b, ?_, hbmem.1.symm, ((hm.active a).1 ha2).congr hsame, ((hm.active b).1 hbmem.2).congr hsame, ?_, ?_⟩
    · rw [hnewAt, hsame a (hlt a ha2), hsame b (hlt b hbmem.2)]; rfl
    · intro x hx hne
      have hxA := (hm.active x).2 (hx.congr hsame.symm)
      exact ((before_iff s a x).2 (ha3 x hxA hne)).congr hsame (hlt a ha2) (hlt x hxA)
    · intro x hx hne hne2
      have hxA := (hm.active x).2 (hx.congr hsame.symm)
      exact ((before_iff s b x).2 (hb3 x ((hm.nodup.mem_erase_iff).2 ⟨hne, hxA⟩) hne2)).congr hsame (hlt b hbmem.2) (hlt x hxA)
  refine ⟨a, b, ha1, hb1, ⟨?_, ?_, hm.cap, by omega, ?_, ?_, ?_, ?_⟩⟩
  · refine List.nodup_append.2 ⟨hnd1.erase b, by simp, ?_⟩
    intro x hx y hy
    simp at hy; subst hy
    rintro rfl
    exact hnew ((hmem _).1 hx).1
  · rw [hn, List.length_append, hlen2]; simp; omega
  · rw [List.getLast?_append]
    simp only [List.getLast?_singleton, Option.some_or]
    show some s.nodeCount = some (s.nodeCount + 1 - 1)
    rw [BitVec.add_sub_cancel]
  · intro i
    rw [List.mem_append, List.mem_singleton, hmem, hn]
    constructor
    · rintro (⟨hiA, hia, hib⟩ | rfl)
      · have hact := (hm.active i).1 hiA
        refine ⟨by have := hact.1; omega, fun j hj hjk w l r hnode => ?_⟩
        by_cases hjn : j.toNat < s.nodeCount.toNat
        · exact hact.2 j hj hjn w l r (by rw [← hsame j hjn]; exact hnode)
        · obtain rfl : j = s.nodeCount := BitVec.eq_of_toNat_eq (by omega)
          rw [hnewAt, joined] at hnode
          injection hnode with _ hl hr
          exact ⟨hl ▸ hia, hr ▸ hib⟩
      · refine ⟨by omega, fun j hj hjk w l r hnode => ?_⟩
        by_cases hjn : j.toNat < s.nodeCount.toNat
        · obtain ⟨a', b', h1, _, h3, h4, _, _⟩ := hm.joins j hj hjn
          rw [hsame j hjn, h1] at hnode
          injection hnode with _ hl hr
          subst hl hr
          have := h3.1
          have := h4.1
          constructor <;> (intro h; rw [h] at hjn; omega)
        · obtain rfl : j = s.nodeCount := BitVec.eq_of_toNat_eq (by omega)
          rw [hnewAt, joined] at hnode
          injection hnode with _ hl hr
          subst hl hr
          have hla := hlt a ha2
          have hlb := hlt b hbmem.2
          exact ⟨fun h => by rw [← h] at hla; omega, fun h => by rw [← h] at hlb; omega⟩
    · intro hact
      by_cases hin : i.toNat < s.nodeCount.toNat
      · refine .inl ⟨(hm.active i).2 ⟨hin, fun j hj hjk w l r hnode => ?_⟩, ?_⟩
        · exact hact.2 j hj (by omega) w l r (by rw [hsame j hjk]; exact hnode)
        · exact hact.2 s.nodeCount (by omega) (by omega) _ a b hnewAt
      · exact .inr (BitVec.eq_of_toNat_eq (by have := hact.1; omega))
  · intro k hk hkn
    by_cases hkn' : k.toNat < s.nodeCount.toNat
    · exact (hm.joins k hk hkn').congr (hsame.mono (by omega))
    · obtain rfl : k = s.nodeCount := BitVec.eq_of_toNat_eq (by omega)
      exact hjoin
  · obtain ⟨T, hT, hperm⟩ := hm.trees
    have hmono : ∀ j n, walkNode s j = some n → walkNode (alloc (joined s a b) s) j = some n :=
      fun j n h => walkNode_grow (by omega) h
    obtain ⟨hTa, hwa, hva⟩ := hT a ha2
    obtain ⟨hTb, hwb, hvb⟩ := hT b hbmem.2
    refine ⟨fun i => if i = s.nodeCount then .fork ((nodeAt s a).weight + (nodeAt s b).weight) (T a) (T b) else T i, ?_, ?_⟩
    · intro i hi
      rw [List.mem_append, List.mem_singleton, hmem] at hi
      beta_reduce
      rcases hi with ⟨hiA, _⟩ | rfl
      · have hne : i ≠ s.nodeCount := by rintro rfl; exact hnew hiA
        rw [if_neg hne, hsame i (hlt i hiA)]
        obtain ⟨h1, h2, h3⟩ := hT i hiA
        exact ⟨h1.mono hmono, h2, h3⟩
      · rw [if_pos rfl]
        refine ⟨.fork ?_ (hTa.mono hmono) (hTb.mono hmono), ?_, ?_⟩
        · exact walkNode_of (by rw [BitVec.lt_def, hn]; omega) (by omega) hnewAt (by intro sym w h; simp at h)
        · simp [Tree.weightsAdd, hwa, hwb, hva, hvb]
        · rw [hnewAt]; rfl
    · rw [List.flatMap_append]
      simp only [List.flatMap_cons, List.flatMap_nil, List.append_nil, if_true]
      have hrest : (((A.erase a).erase b).flatMap fun i =>
          (if i = s.nodeCount then Tree.fork ((nodeAt s a).weight + (nodeAt s b).weight) (T a) (T b) else T i).leaves) =
          ((A.erase a).erase b).flatMap fun i => (T i).leaves := by
        apply List.flatMap_congr
        intro i hi
        rw [if_neg]
        rintro rfl
        exact hnew ((hmem _).1 hi).1
      rw [hrest, Tree.leaves]
      have hp1 : A.Perm (a :: b :: (A.erase a).erase b) :=
        (List.perm_cons_erase ha2).trans ((List.perm_cons_erase hb2).cons a)
      have hp2 := (hp1.flatMap_right fun i => (T i).leaves).symm.trans hperm
      rw [List.flatMap_cons, List.flatMap_cons, ← List.append_assoc] at hp2
      exact List.perm_append_comm.trans hp2

/-- All the merges: from the active set down to one node. -/
theorem mergeLoop_ok {leaves : Nat} {lvs : List Node} (k : Nat) (s : State) (A : List NodeIx) (hm : Merging leaves lvs s A)
    (h1 : 1 ≤ A.length) (hk : A.length ≤ k + 1) :
    ∃ ns i, mergeLoop k A s = grown ns (BitVec.ofNat 10 (2 * leaves - 1)) s ∧
      Merging leaves lvs (grown ns (BitVec.ofNat 10 (2 * leaves - 1)) s) [i] ∧
      (∀ j, j < s.nodeCount.toNat ∨ 2 * leaves - 1 ≤ j → memGet nodeDefault ns j = memGet nodeDefault s.nodes j) ∧
      (memWf nodeDefault Config.nodeCap s.nodes = true → memWf nodeDefault Config.nodeCap ns = true) := by
  have halpha : Config.alphabetSize = 257 := rfl
  have hcap : Config.nodeCap = 513 := rfl
  have hdone : ∀ (s : State) (i : NodeIx), Merging leaves lvs s [i] → s = grown s.nodes (BitVec.ofNat 10 (2 * leaves - 1)) s := by
    intro s i hm
    have hb := hm.bound
    have hc : s.nodeCount = BitVec.ofNat 10 (2 * leaves - 1) := by
      apply BitVec.eq_of_toNat_eq
      have := hm.cap
      rw [BitVec.toNat_ofNat]
      simp at hb; omega
    rw [← hc]; cases s; rfl
  induction k generalizing s A with
  | zero =>
    obtain ⟨i, rfl⟩ := List.length_eq_one_iff.1 (show A.length = 1 by omega)
    exact ⟨s.nodes, i, hdone s i hm, by rw [← hdone s i hm]; exact hm, fun _ _ => rfl, id⟩
  | succ k ih =>
    by_cases h2 : 2 ≤ A.length
    · obtain ⟨a, b, ha, hb, hm'⟩ := hm.merge h2
      have hbound := hm.bound
      have hlcap := hm.cap
      have hle := hm.le
      have hn : (alloc (joined s a b) s).nodeCount.toNat = s.nodeCount.toNat + 1 := toNat_add_one (by omega)
      have hb' := hm'.bound
      rw [hn] at hb'
      obtain ⟨ns, i, e1, e2, e3, e4⟩ := ih _ _ hm' (by simp) (by omega)
      refine ⟨ns, i, ?_, e2, fun j hj => ?_, fun hw => e4 (memWf_memSet _ hw (by omega))⟩
      · rw [mergeLoop, ha]; simp only; rw [hb]; exact e1
      · rw [e3 j (by omega)]
        exact memGet_memSet_ne _ _ (by omega) _
    · have h1' : A.length = 1 := by omega
      obtain ⟨i, rfl⟩ := List.length_eq_one_iff.1 h1'
      refine ⟨s.nodes, i, ?_, by rw [← hdone s i hm]; exact hm, fun _ _ => rfl, id⟩
      rw [← hdone s i hm]
      simp [mergeLoop, popMin, minIx]

/-! ### BUILD as a whole -/

/-- The symbol on a leaf. -/
def symOf : Node → Sym
  | .leaf sym _     => sym
  | .internal _ _ _ => 0

theorem buildLeaves_eq (s : State) : buildLeaves s = countedLeaves s := by
  unfold buildLeaves countedLeaves countedSyms
  induction List.range Config.alphabetSize with
  | nil => rfl
  | cons k l ih =>
    by_cases h : freqAt s k = 0
    · rw [List.filterMap_cons_none
        (f := fun sym => if freqAt s sym = 0 then none else some (Node.leaf (BitVec.ofNat 9 sym) (freqAt s sym))) (if_pos h), ih, List.filter_cons_of_neg (by rw [decide_eq_true_eq]; exact fun hn => hn h)]
    · rw [List.filterMap_cons_some
        (f := fun sym => if freqAt s sym = 0 then none else some (Node.leaf (BitVec.ofNat 9 sym) (freqAt s sym))) (if_neg h), ih, List.filter_cons_of_pos (by rw [decide_eq_true_eq]; exact h), List.map_cons]

theorem buildLeaves_length_le (s : State) : (buildLeaves s).length ≤ Config.alphabetSize := by
  rw [buildLeaves_eq, countedLeaves, List.length_map]
  exact (List.length_filter_le _ _).trans (by simp)

theorem mem_buildLeaves {s : State} {n : Node} (h : n ∈ buildLeaves s) :
    ∃ k, k < Config.alphabetSize ∧ freqAt s k ≠ 0 ∧ n = .leaf (BitVec.ofNat 9 k) (freqAt s k) := by
  rw [buildLeaves_eq, countedLeaves, List.mem_map] at h
  obtain ⟨k, hk, rfl⟩ := h
  rw [countedSyms, List.mem_filter, List.mem_range] at hk
  exact ⟨k, hk.1, by simpa using hk.2, rfl⟩

theorem buildLeaves_syms_nodup (s : State) : ((buildLeaves s).map symOf).Nodup := by
  rw [buildLeaves_eq, countedLeaves, List.map_map]
  refine List.Nodup.map_on ?_ (List.nodup_range.filter _)
  intro x hx y hy h
  rw [countedSyms, List.mem_filter, List.mem_range] at hx hy
  have halpha : Config.alphabetSize = 257 := rfl
  simp only [Function.comp, symOf] at h
  have := congrArg BitVec.toNat h
  rw [BitVec.toNat_ofNat, BitVec.toNat_ofNat] at this
  omega

theorem Tree.codes_map_sym (t : Tree) : t.codes.map LeafCode.sym = t.leaves.map symOf := by
  rw [← t.codes_map_node, List.map_map]; rfl

theorem buildLeaves_congr {s s1 : State} (h : s1.freq = s.freq) : buildLeaves s1 = buildLeaves s := by
  have : freqAt s1 = freqAt s := by funext k; rw [freqAt, freqAt, h]
  rw [buildLeaves, buildLeaves, this]

/-- How many nodes BUILD allocates: `2·L − 1`, and 3 for a single leaf (R152, R155). -/
def builtCount (s : State) : Nat := if (buildLeaves s).length = 1 then 3 else 2 * (buildLeaves s).length - 1

/-- The state BUILD leaves with the store `ns` (R152). -/
def treeBuilt (ns : List (Nat × Node)) (s : State) : State :=
  flagsBuilt (setRoot (BitVec.ofNat 10 (builtCount s - 1)) (grown ns (BitVec.ofNat 10 (builtCount s)) s))

theorem ofNat_toNat_of_lt {k : Nat} (h : k < 1024) : (BitVec.ofNat 10 k).toNat = k := by
  rw [BitVec.toNat_ofNat]; omega

/-- The leaves are in the store, and the active set is all of them (R152, R156). -/
theorem merging_start {s1 : State} {lvs : List Node} (hL : 1 ≤ lvs.length) (hcap : lvs.length ≤ Config.alphabetSize)
    (hc : s1.nodeCount.toNat = lvs.length) (hg : ∀ j, j < lvs.length → memGet nodeDefault s1.nodes j = lvs.getD j nodeDefault)
    (hl : ∀ n ∈ lvs, ∃ sym w, n = .leaf sym w ∧ sym.toNat ≤ Config.pseudoEof) :
    Merging lvs.length lvs s1 ((List.range lvs.length).map (BitVec.ofNat 10)) := by
  have halpha : Config.alphabetSize = 257 := rfl
  have hncap : Config.nodeCap = 513 := rfl
  have hat : ∀ k, (hk : k < lvs.length) → nodeAt s1 (BitVec.ofNat 10 k) = lvs[k] := by
    intro k hk
    rw [nodeAt, ofNat_toNat_of_lt (by omega), hg k hk, List.getD_eq_getElem _ _ hk]
  refine ⟨?_, ?_, hcap, by omega, ?_, ?_, ?_, ?_⟩
  · refine List.Nodup.map_on ?_ List.nodup_range
    intro x hx y hy h
    rw [List.mem_range] at hx hy
    have := congrArg BitVec.toNat h
    rw [ofNat_toNat_of_lt (by omega), ofNat_toNat_of_lt (by omega)] at this
    exact this
  · simp; omega
  · obtain ⟨L, hL'⟩ : ∃ L, lvs.length = L + 1 := ⟨lvs.length - 1, by omega⟩
    rw [hL', List.range_succ, List.map_append, List.getLast?_append]
    simp only [List.map_cons, List.map_nil, List.getLast?_singleton, Option.some_or]
    have : s1.nodeCount = BitVec.ofNat 10 L + 1 := by
      apply BitVec.eq_of_toNat_eq
      rw [toNat_add_one (by rw [ofNat_toNat_of_lt (by omega)]; omega), ofNat_toNat_of_lt (by omega)]; omega
    rw [this, BitVec.add_sub_cancel]
  · intro i
    rw [List.mem_map]
    constructor
    · rintro ⟨k, hk, rfl⟩
      rw [List.mem_range] at hk
      exact ⟨by rw [ofNat_toNat_of_lt (by omega)]; omega, fun j h1 h2 => by omega⟩
    · rintro ⟨h, _⟩
      exact ⟨i.toNat, by rw [List.mem_range]; omega, by simp⟩
  · intro k h1 h2; omega
  · refine ⟨fun i => .leaf (symOf (nodeAt s1 i)) (nodeAt s1 i).weight, ?_, ?_⟩
    · intro a ha
      obtain ⟨k, hk, rfl⟩ := List.mem_map.1 ha
      rw [List.mem_range] at hk
      obtain ⟨sym, w, hn, hsym⟩ := hl lvs[k] (List.getElem_mem hk)
      have h := (hat k hk).trans hn
      beta_reduce
      rw [h]
      refine ⟨.leaf (walkNode_of ?_ (by omega) h ?_), rfl, rfl⟩
      · rw [BitVec.lt_def, ofNat_toNat_of_lt (by omega)]; omega
      · intro sym' w' he; simp at he; rw [← he.1]; exact hsym
    · rw [List.flatMap_map]
      have : (List.range lvs.length).flatMap (fun k =>
          (Tree.leaf (symOf (nodeAt s1 (BitVec.ofNat 10 k))) (nodeAt s1 (BitVec.ofNat 10 k)).weight).leaves) = lvs := by
        have e : ∀ k ∈ List.range lvs.length,
            (Tree.leaf (symOf (nodeAt s1 (BitVec.ofNat 10 k))) (nodeAt s1 (BitVec.ofNat 10 k)).weight).leaves =
              [lvs.getD k nodeDefault] := by
          intro k hk
          rw [List.mem_range] at hk
          obtain ⟨sym, w, hn, _⟩ := hl lvs[k] (List.getElem_mem hk)
          rw [hat k hk, hn, List.getD_eq_getElem _ _ hk, hn]; rfl
        rw [List.flatMap_congr e, ← List.map_eq_flatMap]
        apply List.ext_getElem
        · simp
        · intro k h1 h2
          rw [List.getElem_map, List.getElem_range, List.getD_eq_getElem _ _ h2]
      rw [this]

/-- What BUILD leaves (R152 to R156). -/
structure Built (s s1 : State) (t : Tree) : Prop where
  stored : storedTree s1 = some t
  builtFor : BuiltFor s1 t
  leavesLe : t.leaves.length ≤ Config.alphabetSize
  /-- With two counted symbols or more there is one leaf for each (R152). -/
  leavesLen : 2 ≤ (buildLeaves s).length → t.leaves.length = (buildLeaves s).length
  /-- The leaves stand at the first indices, in ascending symbol order (R156). -/
  leavesAt : ∀ j, j < (buildLeaves s).length → memGet nodeDefault s1.nodes j = (buildLeaves s).getD j nodeDefault
  /-- Every later node joins the first two of the active set (R152, R153). -/
  joins : 2 ≤ (buildLeaves s).length → ∀ k : NodeIx, (buildLeaves s).length ≤ k.toNat → k.toNat < builtCount s →
    JoinsFirstTwo s1 (buildLeaves s).length k
  /-- A single leaf is wrapped (R155). -/
  wrap : ∀ sym w, buildLeaves s = [.leaf sym w] → t = .fork w (.leaf sym w) (.leaf (if sym = 0 then 1 else 0) 0) ∧
    nodeAt s1 1 = .leaf (if sym = 0 then 1 else 0) 0 ∧ nodeAt s1 2 = .internal w 0 1
  above : ∀ j, builtCount s ≤ j → memGet nodeDefault s1.nodes j = memGet nodeDefault s.nodes j
  wf : memWf nodeDefault Config.nodeCap s.nodes = true → memWf nodeDefault Config.nodeCap s1.nodes = true

theorem mergeTree_ok {s : State} (h2 : 2 ≤ (buildLeaves s).length) :
    ∃ ns t, growTree (buildLeaves s).length (allocAll (buildLeaves s) (buildStart s)) =
        grown ns (BitVec.ofNat 10 (builtCount s)) s ∧ Built s (treeBuilt ns s) t := by
  have halpha : Config.alphabetSize = 257 := rfl
  have hncap : Config.nodeCap = 513 := rfl
  have hlen := buildLeaves_length_le s
  have hcount : builtCount s = 2 * (buildLeaves s).length - 1 := by rw [builtCount, if_neg (by omega)]
  obtain ⟨ns0, ha1, ha2, ha3⟩ := allocAll_eq (buildLeaves s) (buildStart s) (by
    show (0 : BitVec 10).toNat + _ ≤ _
    simp; omega)
  have ha2' : ∀ j, memGet nodeDefault ns0 j =
      if j < (buildLeaves s).length then (buildLeaves s).getD j nodeDefault else memGet nodeDefault s.nodes j := by
    intro j
    have := ha2 j
    rw [show (buildStart s).nodeCount.toNat = 0 from rfl] at this
    simpa using this
  have hc0 : (grown ns0 ((buildStart s).nodeCount + BitVec.ofNat 10 (buildLeaves s).length) (buildStart s)).nodeCount.toNat =
      (buildLeaves s).length := by
    show ((0 : BitVec 10) + BitVec.ofNat 10 (buildLeaves s).length).toNat = _
    rw [show (0 : BitVec 10) + BitVec.ofNat 10 (buildLeaves s).length = BitVec.ofNat 10 (buildLeaves s).length from
      BitVec.zero_add _, ofNat_toNat_of_lt (by omega)]
  have hstart : Merging (buildLeaves s).length (buildLeaves s)
      (grown ns0 ((buildStart s).nodeCount + BitVec.ofNat 10 (buildLeaves s).length) (buildStart s))
      ((List.range (buildLeaves s).length).map (BitVec.ofNat 10)) := by
    refine merging_start (by omega) hlen hc0 ?_ ?_
    · intro j hj
      show memGet nodeDefault ns0 j = _
      rw [ha2', if_pos hj]
    · intro n hn
      obtain ⟨k, hk, _, rfl⟩ := mem_buildLeaves hn
      exact ⟨_, _, rfl, by rw [BitVec.toNat_ofNat]; simp only [Config.pseudoEof]; omega⟩
  obtain ⟨ns, i, e1, e2, e3, e4⟩ := mergeLoop_ok (buildLeaves s).length _ _ hstart (by simp; omega) (by simp)
  rw [hc0] at e3
  have he : growTree (buildLeaves s).length (allocAll (buildLeaves s) (buildStart s)) =
      grown ns (BitVec.ofNat 10 (builtCount s)) s := by
    rw [growTree, if_neg (by omega), ha1, e1, hcount, grown_grown]; rfl
  rw [← hcount] at e2 e3
  have hnc : (BitVec.ofNat 10 (builtCount s)).toNat = builtCount s := ofNat_toNat_of_lt (by omega)
  have hgn : ∀ (a b : State), (grown ns (BitVec.ofNat 10 (builtCount s)) a).nodes = (treeBuilt ns b).nodes := fun _ _ => rfl
  have hgc : ∀ (a : State), (grown ns (BitVec.ofNat 10 (builtCount s)) a).nodeCount = (treeBuilt ns s).nodeCount := fun _ => rfl
  have hroot : i = (treeBuilt ns s).root := by
    have := e2.last
    simp only [List.getLast?_singleton, Option.some.injEq] at this
    rw [this]
    show BitVec.ofNat 10 (builtCount s) - 1 = BitVec.ofNat 10 (builtCount s - 1)
    apply BitVec.eq_of_toNat_eq
    rw [ofNat_toNat_of_lt (by omega), BitVec.toNat_sub, hnc]
    simp; omega
  have hrootn : (treeBuilt ns s).root.toNat = builtCount s - 1 := by
    show (BitVec.ofNat 10 (builtCount s - 1)).toNat = _
    exact ofNat_toNat_of_lt (by omega)
  have hsame : ∀ k a, SameBelow k (grown ns (BitVec.ofNat 10 (builtCount s)) a) (treeBuilt ns s) := fun k a j _ => rfl
  obtain ⟨T, hT, hperm⟩ := e2.trees
  obtain ⟨hh, hw, _⟩ := hT i (by simp)
  simp only [List.flatMap_cons, List.flatMap_nil, List.append_nil] at hperm
  have hh' : Holds (treeBuilt ns s) (treeBuilt ns s).root (T i) := by
    rw [← hroot]
    exact hh.mono fun j n h => by rw [← h]; exact walkNode_congr rfl rfl j
  have hjoins : ∀ k : NodeIx, (buildLeaves s).length ≤ k.toNat → k.toNat < builtCount s →
      JoinsFirstTwo (treeBuilt ns s) (buildLeaves s).length k := by
    intro k h1 h3
    exact (e2.joins k h1 (by show _ < (BitVec.ofNat 10 (builtCount s)).toNat; omega)).congr (hsame _ _)
  have hlv : (T i).leaves.length = (buildLeaves s).length := hperm.length_eq
  refine ⟨ns, T i, he, ⟨?_, ⟨?_, ?_, ?_, hw⟩, by omega, fun _ => hlv, ?_, fun _ => hjoins, ?_, ?_, ?_⟩⟩
  · have := (T i).depth_lt_leaves
    exact (storedTree_iff _ _).2 ⟨hh', by simp only [Config.maxCodeLen]; omega⟩
  · obtain ⟨a, b, hn, _⟩ := hjoins (treeBuilt ns s).root (by omega) (by omega)
    generalize T i = t at hh'
    cases hh' with
    | leaf h => rw [(walkNode_eq_some h).2] at hn; simp at hn
    | fork h _ _ => rfl
  · rw [Tree.codes_map_sym]
    exact (hperm.map symOf).nodup_iff.2 (buildLeaves_syms_nodup s)
  · have hfil : ((T i).leaves.filter fun n => n.weight ≠ 0) = (T i).leaves := by
      rw [List.filter_eq_self]
      intro n hn
      obtain ⟨k, _, hk, rfl⟩ := mem_buildLeaves (hperm.mem_iff.1 hn)
      rw [decide_eq_true_eq]; exact hk
    rw [hfil, ← buildLeaves_eq, buildLeaves_congr (s := s) (s1 := treeBuilt ns s) rfl]
    exact hperm
  · intro j hj
    show memGet nodeDefault ns j = _
    rw [e3 j (.inl hj)]
    show memGet nodeDefault ns0 j = _
    rw [ha2', if_pos hj]
  · intro sym w h; rw [h] at h2; simp at h2
  · intro j hj
    show memGet nodeDefault ns j = _
    rw [e3 j (.inr hj)]
    show memGet nodeDefault ns0 j = _
    rw [ha2', if_neg (by omega)]
  · exact fun hwf => e4 (ha3 hwf)

/-- `SingleLeafWrap()` over the one leaf. -/
theorem wrapTree_ok {s : State} {sym : Sym} {w : Word} (h : buildLeaves s = [.leaf sym w]) :
    ∃ ns t, growTree (buildLeaves s).length (allocAll (buildLeaves s) (buildStart s)) =
        grown ns (BitVec.ofNat 10 (builtCount s)) s ∧ Built s (treeBuilt ns s) t := by
  have hcount : builtCount s = 3 := by rw [builtCount, h]; rfl
  obtain ⟨k, hk, hf, hn⟩ := mem_buildLeaves (s := s) (n := .leaf sym w) (by rw [h]; simp)
  have hsymle : sym.toNat ≤ Config.pseudoEof := by
    injection hn with h1 _
    have halpha : Config.alphabetSize = 257 := rfl
    rw [h1, BitVec.toNat_ofNat]; simp only [Config.pseudoEof]; omega
  have hw0 : w ≠ 0 := by injection hn with _ h2; rw [h2]; exact hf
  let d : Sym := if sym = 0 then 1 else 0
  have hd : d.toNat ≤ Config.pseudoEof := by show (if sym = 0 then (1 : Sym) else 0).toNat ≤ _; split <;> simp [Config.pseudoEof]
  have hdne : sym ≠ d := by
    show sym ≠ if sym = 0 then (1 : Sym) else 0
    by_cases h0 : sym = 0
    · rw [if_pos h0, h0]; decide
    · rw [if_neg h0]; exact h0
  let ns := memSet nodeDefault (memSet nodeDefault (memSet nodeDefault s.nodes 0 (.leaf sym w)) 1 (.leaf d 0)) 2
    (.internal w 0 1)
  have hget : ∀ j, memGet nodeDefault ns j = if j = 2 then .internal w 0 1 else if j = 1 then .leaf d 0
      else if j = 0 then .leaf sym w else memGet nodeDefault s.nodes j := by
    intro j
    show memGet nodeDefault (memSet nodeDefault (memSet nodeDefault (memSet nodeDefault s.nodes 0 (.leaf sym w)) 1 (.leaf d 0)) 2
      (.internal w 0 1)) j = _
    rw [memGet_memSet, memGet_memSet, memGet_memSet]
    simp only [eq_comm (a := j)]
  have hgrow : growTree (buildLeaves s).length (allocAll (buildLeaves s) (buildStart s)) =
      grown ns (BitVec.ofNat 10 (builtCount s)) s := by
    have h0 : nodeAt (alloc (.leaf sym w) (buildStart s)) 0 = .leaf sym w := memGet_memSet_same _ _ _ _
    rw [h, hcount, growTree, if_pos (by simp), singleLeafWrap]
    simp only [allocAll, List.foldl_cons, List.foldl_nil]
    rw [h0]
    simp only [Node.weight]
    rw [show w + 0 = w from BitVec.add_zero w]
    rfl
  have hnc : (treeBuilt ns s).nodeCount = 3 := by show BitVec.ofNat 10 (builtCount s) = 3; rw [hcount]; rfl
  have hroot : (treeBuilt ns s).root = 2 := by show BitVec.ofNat 10 (builtCount s - 1) = 2; rw [hcount]; rfl
  have hat : ∀ i : NodeIx, nodeAt (treeBuilt ns s) i = memGet nodeDefault ns i.toNat := fun _ => rfl
  have hwalk : ∀ (i : NodeIx) (n : Node), i.toNat < 3 → memGet nodeDefault ns i.toNat = n →
      (∀ sym w, n = .leaf sym w → sym.toNat ≤ Config.pseudoEof) → walkNode (treeBuilt ns s) i = some n := by
    intro i n hi hn hs
    refine walkNode_of ?_ (by rw [hnc]; decide) ((hat i).trans hn) hs
    rw [BitVec.lt_def, hnc]; exact hi
  refine ⟨ns, .fork w (.leaf sym w) (.leaf d 0), hgrow, ⟨?_, ⟨rfl, ?_, ?_, ?_⟩, by simp [Tree.leaves, Config.alphabetSize],
    fun h2 => by rw [h] at h2; simp at h2, ?_, ?_, ?_, ?_, ?_⟩⟩
  · refine (storedTree_iff _ _).2 ⟨?_, by simp [Tree.depth, Config.maxCodeLen]⟩
    rw [hroot]
    refine .fork (hwalk 2 (.internal w 0 1) (by decide) ((hget 2).trans (if_pos rfl)) (by simp)) (.leaf ?_) (.leaf ?_)
    · exact hwalk 0 _ (by decide) ((hget 0).trans rfl) (by intro _ _ he; simp at he; rw [← he.1]; exact hsymle)
    · exact hwalk 1 _ (by decide) ((hget 1).trans rfl) (by intro _ _ he; simp at he; rw [← he.1]; exact hd)
  · rw [Tree.codes_map_sym]
    simp [Tree.leaves, symOf, hdne]
  · rw [← buildLeaves_eq, buildLeaves_congr (s := s) (s1 := treeBuilt ns s) rfl, h]
    simp only [Tree.leaves, List.cons_append, List.nil_append]
    rw [List.filter_cons_of_pos (by rw [decide_eq_true_eq]; exact hw0), List.filter_cons_of_neg (by simp [Node.weight])]
    simp
  · simp [Tree.weightsAdd, Tree.weight]
  · intro j hj
    rw [h] at hj ⊢
    simp at hj
    subst hj
    exact (hget 0).trans rfl
  · intro h2; rw [h] at h2; simp at h2
  · intro sym' w' h'
    rw [h] at h'
    injection h' with h1 _
    injection h1 with h1 h2
    subst h1 h2
    exact ⟨rfl, (hget 1).trans rfl, (hget 2).trans rfl⟩
  · intro j hj
    rw [hcount] at hj
    show memGet nodeDefault ns j = _
    rw [hget, if_neg (by omega), if_neg (by omega), if_neg (by omega)]
  · intro hwf
    have hcap : Config.nodeCap = 513 := rfl
    exact memWf_memSet _ (memWf_memSet _ (memWf_memSet _ hwf (by omega)) (by omega)) (by omega)

/-- BUILD's pseudocode with at least one counted symbol (R152 to R156). -/
theorem runBuild_ok {s : State} (h : buildLeaves s ≠ []) :
    ∃ ns t, runBuild s = .ok () (treeBuilt ns s) ∧ Built s (treeBuilt ns s) t := by
  have halpha : Config.alphabetSize = 257 := rfl
  have hlen := buildLeaves_length_le s
  have hpos : 0 < (buildLeaves s).length := List.length_pos_iff.2 h
  have key : ∃ ns t, growTree (buildLeaves s).length (allocAll (buildLeaves s) (buildStart s)) =
      grown ns (BitVec.ofNat 10 (builtCount s)) s ∧ Built s (treeBuilt ns s) t := by
    by_cases h2 : 2 ≤ (buildLeaves s).length
    · exact mergeTree_ok h2
    · obtain ⟨n, hn⟩ := List.length_eq_one_iff.1 (show (buildLeaves s).length = 1 by omega)
      obtain ⟨k, _, _, rfl⟩ := mem_buildLeaves (s := s) (n := n) (by rw [hn]; simp)
      exact wrapTree_ok hn
  obtain ⟨ns, t, h1, h2⟩ := key
  have hb : 1 ≤ builtCount s ∧ builtCount s ≤ 513 := by rw [builtCount]; split <;> omega
  refine ⟨ns, t, ?_, h2⟩
  have hrun : runBuild s = .ok () (buildEnd (growTree (buildLeaves s).length (allocAll (buildLeaves s) (buildStart s)))) := by
    rw [runBuild]
    split
    · rename_i he; exact absurd he h
    · rfl
  rw [hrun, h1]
  have hr : BitVec.ofNat 10 (builtCount s) - 1 = BitVec.ofNat 10 (builtCount s - 1) := by
    apply BitVec.eq_of_toNat_eq
    rw [ofNat_toNat_of_lt (by omega), BitVec.toNat_sub, ofNat_toNat_of_lt (by omega)]
    simp; omega
  rw [buildEnd, show (grown ns (BitVec.ofNat 10 (builtCount s)) s).nodeCount = BitVec.ofNat 10 (builtCount s) from rfl, hr]
  rfl

end Sys2Proof.Machine
end

