-- ==== Sys2Proof/Laws/Streams.lean ====
section
/-! SUPPORT. The stream operations, each said once in terms of the bits still unread and the bits of OUT (20_memory R71 to R78). -/

set_option autoImplicit false

namespace Sys2Proof.Machine

/-! ### IN -/

theorem inBits_length (s : State) : (inBits s).length = 8 * s.inBytes.length := by simp [inBits]

theorem unread_length (s : State) : (unread s).length = 8 * s.inBytes.length - s.inPos := by
  simp [unread, inBits_length]

theorem inBit_cons_succ (b : Byte) (bytes : List Byte) (q : Nat) : inBit (b :: bytes) (8 + q) = inBit bytes q := by
  have h1 : (8 + q) / 8 = q / 8 + 1 := by omega
  have h2 : (8 + q) % 8 = q % 8 := by omega
  simp [inBit, h1, h2]

theorem map_inBit_cons (b : Byte) (bytes : List Byte) :
    (List.range (8 * (b :: bytes).length)).map (inBit (b :: bytes)) =
      bin 8 b ++ (List.range (8 * bytes.length)).map (inBit bytes) := by
  have h : 8 * (b :: bytes).length = 8 + 8 * bytes.length := by simp; omega
  rw [h, List.range_add, List.map_append, List.map_map]
  congr 1
  exact List.map_congr_left fun q _ => inBit_cons_succ b bytes q

/-- The bits of IN are its bytes' bits, byte by byte, most significant first (R71). -/
theorem inBits_eq_flatMap (s : State) : inBits s = s.inBytes.flatMap (bin 8) := by
  unfold inBits
  induction s.inBytes with
  | nil => rfl
  | cons b bytes ih => rw [map_inBit_cons, ih, List.flatMap_cons]

theorem flatMap_bin8_length (bytes : List Byte) : (bytes.flatMap (bin 8)).length = 8 * bytes.length := by
  induction bytes with
  | nil => rfl
  | cons b bytes ih => simp [List.flatMap_cons, ih]; omega

/-- The `n` bits at the IN position, when there are that many. -/
theorem map_inBit_eq_take (s : State) (n : Nat) (h : s.inPos + n ≤ 8 * s.inBytes.length) :
    (List.range n).map (fun k => inBit s.inBytes (s.inPos + k)) = (unread s).take n := by
  apply List.ext_getElem
  · simp [unread_length]; omega
  · intro k hk1 hk2
    simp [unread, inBits]

theorem unread_congr {s s1 : State} (hb : s1.inBytes = s.inBytes) (hp : s1.inPos = s.inPos) : unread s1 = unread s := by
  simp [unread, inBits, hb, hp]

/-- `InRead(n)` with `n` bits `bs` next in the stream answers their value and moves past them. -/
theorem inRead_of_unread {s : State} {n : Nat} {bs rest : List Bool} (hn : bs.length = n) (hpos : 0 < n)
    (h : unread s = bs ++ rest) :
    inRead n s = (some (BitVec.ofNat n (ofBits 0 bs)), inMove (s.inPos + n) s) := by
  have hl := unread_length s
  rw [h, List.length_append, hn] at hl
  have hle : s.inPos + n ≤ 8 * s.inBytes.length := by omega
  unfold inRead
  rw [if_neg (by omega), map_inBit_eq_take s n hle, h, List.take_left' hn]

/-- What is left unread after such a read. -/
theorem unread_after {s s1 : State} {bs rest : List Bool} (h : unread s = bs ++ rest)
    (hb : s1.inBytes = s.inBytes) (hp : s1.inPos = s.inPos + bs.length) : unread s1 = rest := by
  have : unread s1 = (unread s).drop bs.length := by simp [unread, inBits, hb, hp, List.drop_drop]
  rw [this, h, List.drop_left]

/-- `InRead(n)` with fewer than `n` bits left answers `NO_DATA`. -/
theorem inRead_noData {s : State} {n : Nat} (h : (unread s).length < n) : inRead n s = (none, noData s) := by
  rw [unread_length] at h
  unfold inRead
  rw [if_pos (by omega)]

/-- Everything `InRead(n)` can do (R74). -/
theorem inRead_cases (n : Nat) (s : State) :
    (inRead n s = (none, noData s) ∧ 8 * s.inBytes.length < s.inPos + n) ∨
    (∃ v, inRead n s = (some v, inMove (s.inPos + n) s) ∧ s.inPos + n ≤ 8 * s.inBytes.length) := by
  unfold inRead
  by_cases h : s.inPos + n > 8 * s.inBytes.length
  · exact .inl ⟨if_pos h, h⟩
  · exact .inr ⟨_, if_neg h, by omega⟩

/-- A read that returned `NO_DATA` changes nothing but `p` (and the free-value counter), and leaves `p` within R74's range. -/
theorem noData_cases (s : State) :
    ∃ p d, noData s = { s with inPos := p, draws := d } ∧ s.inPos ≤ p ∧ (s.inPos ≤ 8 * s.inBytes.length → p ≤ 8 * s.inBytes.length) := by
  unfold noData
  by_cases h : 8 * s.inBytes.length - s.inPos = 0
  · exact ⟨s.inPos, s.draws, by simp [h], le_rfl, id⟩
  · refine ⟨s.inPos + Config.noDataAdvance s.draws % (8 * s.inBytes.length - s.inPos + 1), s.draws + 1, by simp [h]; rfl, by omega, fun hp => ?_⟩
    have := Nat.mod_lt (Config.noDataAdvance s.draws) (y := 8 * s.inBytes.length - s.inPos + 1) (by omega)
    omega

/-- At the end of IN a failed read leaves `p` where it is: R74's range is that one value. -/
theorem noData_at_end {s : State} (h : 8 * s.inBytes.length ≤ s.inPos) : noData s = s := by
  unfold noData
  simp [Nat.sub_eq_zero_of_le h]

/-! ### OUT -/

theorem padding_length (n : Nat) : (n + (padding n).length) % 8 = 0 := by simp [padding]; omega

theorem outByte_append_bin (b : Byte) (bits : List Bool) : outByte (bin 8 b ++ bits) 0 = b := by
  rw [outByte, Nat.mul_zero, List.drop_zero, List.take_left' (bin_length 8 b)]
  simp

theorem outByte_succ (b : Byte) (bits : List Bool) (j : Nat) : outByte (bin 8 b ++ bits) (j + 1) = outByte bits j := by
  have : (bin 8 b ++ bits).drop (8 * (j + 1)) = bits.drop (8 * j) := by
    rw [List.drop_append, bin_length, List.drop_eq_nil_of_le (by simp)]
    simp [show 8 * (j + 1) - 8 = 8 * j by omega]
  rw [outByte, this, outByte]

/-- The host reads back as bytes what was written as bytes (R76). -/
theorem outBytes_flatMap_bin (bytes : List Byte) : outBytes (bytes.flatMap (bin 8)) = bytes := by
  induction bytes with
  | nil => rfl
  | cons b bytes ih =>
    rw [List.flatMap_cons, outBytes]
    have : (bin 8 b ++ bytes.flatMap (bin 8)).length / 8 = (bytes.flatMap (bin 8)).length / 8 + 1 := by
      rw [List.length_append, bin_length]; omega
    rw [this, List.range_succ_eq_map, List.map_cons, outByte_append_bin, List.map_map]
    congr 1

/-- A whole number of bytes of OUT, taken as bytes and put on IN, gives the same bits (R71, R76). -/
theorem flatMap_bin_outBytes {bits : List Bool} (h : bits.length % 8 = 0) : (outBytes bits).flatMap (bin 8) = bits := by
  obtain ⟨n, hn⟩ : ∃ n, bits.length = 8 * n := ⟨bits.length / 8, by omega⟩
  clear h
  induction n generalizing bits with
  | zero => have : bits = [] := List.eq_nil_of_length_eq_zero (by omega); subst this; rfl
  | succ n ih =>
    have h8 : (bits.take 8).length = 8 := by simp; omega
    obtain ⟨b, hb⟩ : ∃ b : Byte, bin 8 b = bits.take 8 := by
      refine ⟨BitVec.ofNat 8 (ofBits 0 (bits.take 8)), ?_⟩
      have := bin_ofBits (bits.take 8)
      rw [h8] at this
      exact this
    have hsplit : bits = bin 8 b ++ bits.drop 8 := by rw [hb, List.take_append_drop]
    have hrest : (bits.drop 8).length = 8 * n := by simp; omega
    have hcons : outBytes bits = b :: outBytes (bits.drop 8) := by
      conv_lhs => rw [hsplit]
      have hb' : bin 8 b ++ bits.drop 8 = (b :: outBytes (bits.drop 8)).flatMap (bin 8) := by
        rw [List.flatMap_cons, ih hrest]
      rw [hb', outBytes_flatMap_bin]
    rw [hcons, List.flatMap_cons, ih hrest, ← hsplit]

end Sys2Proof.Machine
end

