-- ==== Sys2Proof/Laws/Count.lean ====
section
/-! SUPPORT. COUNT (41_encoder R150): what its loop does, over the bytes still to read. -/

set_option autoImplicit false

namespace Sys2Proof.Machine

theorem occurrences_cons (b : Byte) (bytes : List Byte) (k : Nat) :
    occurrences (b :: bytes) k = occurrences bytes k + if b.toNat = k then 1 else 0 := by
  simp [occurrences, List.count_cons]

theorem occurrences_eof (bytes : List Byte) (k : Nat) (hk : 256 ≤ k) : occurrences bytes k = 0 := by
  induction bytes with
  | nil => rfl
  | cons b bytes ih => rw [occurrences_cons, ih]; have := b.isLt; simp; omega

theorem occurrences_le (bytes : List Byte) (k : Nat) : occurrences bytes k ≤ bytes.length := by
  simpa [occurrences] using List.count_le_length (a := k) (l := bytes.map BitVec.toNat)

/-- Counting one byte. -/
theorem freqAt_countByte (r : Byte) (s : State) (k : Nat) :
    freqAt (countByte r s) k = freqAt s k + if r.toNat = k then 1 else 0 := by
  by_cases h : r.toNat = k
  · simp [freqAt, h]
  · simp [freqAt, h, memGet_memSet_ne]

theorem byte_read {s : State} {b : Byte} {rest : List Byte} (hu : unread s = (b :: rest).flatMap (bin 8)) :
    inRead 8 s = (some b, inMove (s.inPos + 8) s) ∧ unread (inMove (s.inPos + 8) s) = rest.flatMap (bin 8) := by
  rw [List.flatMap_cons] at hu
  constructor
  · rw [inRead_of_unread (bin_length 8 b) (by omega) hu, ofNat_ofBits_bin]
  · exact unread_after hu rfl (by simp)

theorem byte_noData {s : State} (hu : unread s = ([] : List Byte).flatMap (bin 8)) : inRead 8 s = (none, s) := by
  have h : 8 * s.inBytes.length - s.inPos = 0 := by rw [← unread_length, hu]; rfl
  rw [inRead_noData (by rw [unread_length]; omega), noData_at_end (by omega)]

/-- The three fields COUNT's loop writes. -/
def countedTo (f : List (Nat × Word)) (c : Word) (p : Nat) (s : State) : State :=
  { s with freq := f, inCount := c, inPos := p }

theorem countedTo_absorb (f : List (Nat × Word)) (c : Word) (p q : Nat) (b : Byte) (s : State) :
    countedTo f c p (countByte b (inMove q s)) = countedTo f c p s := rfl

theorem countLoop_cons {s : State} {b : Byte} {rest : List Byte} (hu : unread s = (b :: rest).flatMap (bin 8)) :
    countLoop (b :: rest) s =
      if s.inCount = Config.countMax then raise .lengthOverflow s.inCount .count (inMove (s.inPos + 8) s)
      else countLoop rest (countByte b (inMove (s.inPos + 8) s)) := by
  rw [countLoop, (byte_read hu).1]
  rfl

/-- The loop with room for every byte left: each is counted, and the loop ends at the end of IN. -/
theorem countLoop_ok (rest : List Byte) (s : State) (hu : unread s = rest.flatMap (bin 8))
    (hc : s.inCount.toNat + rest.length ≤ Config.countMax.toNat) :
    ∃ f, countLoop rest s =
        .ok () (countedTo f (s.inCount + BitVec.ofNat 32 rest.length) (s.inPos + 8 * rest.length) s) ∧
      (∀ k, memGet freqDefault f k = freqAt s k + BitVec.ofNat 32 (occurrences rest k)) ∧
      (memWf freqDefault Config.alphabetSize s.freq = true → memWf freqDefault Config.alphabetSize f = true) := by
  induction rest generalizing s with
  | nil =>
    refine ⟨s.freq, ?_, ?_, id⟩
    · simp [countLoop, byte_noData hu, countedTo]
    · intro k; simp [freqAt, occurrences]
  | cons b rest ih =>
    have hmax : Config.countMax.toNat = 4294967294 := rfl
    simp only [List.length_cons] at hc ⊢
    have hlt : s.inCount ≠ Config.countMax := by
      intro h; rw [h] at hc; omega
    obtain ⟨f, hf, hget, hwf⟩ := ih (countByte b (inMove (s.inPos + 8) s)) (byte_read hu).2 (by
      simp only [countByte_inCount, inMove_inCount, BitVec.toNat_add]
      rw [show (1 : Word).toNat = 1 from rfl]
      omega)
    refine ⟨f, ?_, ?_, ?_⟩
    · rw [countLoop_cons hu, if_neg hlt, hf, countedTo_absorb]
      simp only [countByte_inCount, inMove_inCount, countByte_inPos, inMove_inPos]
      congr 2
      · rw [BitVec.add_assoc, Nat.add_comm rest.length 1, BitVec.ofNat_add]; rfl
      · omega
    · intro k
      rw [hget, freqAt_countByte, occurrences_cons, BitVec.add_assoc, Nat.add_comm (occurrences rest k), BitVec.ofNat_add]
      by_cases hk : b.toNat = k <;> simp [hk, freqAt]
    · intro h
      apply hwf
      exact memWf_memSet _ h (by have := b.isLt; simp [Config.alphabetSize]; omega)

/-- The loop with more bytes left than there is room for: LENGTH_OVERFLOW on the first byte past `COUNT_MAX`. -/
theorem countLoop_overflow (rest : List Byte) (s : State) (hu : unread s = rest.flatMap (bin 8))
    (hs : s.inCount.toNat ≤ Config.countMax.toNat) (hc : Config.countMax.toNat < s.inCount.toNat + rest.length) :
    ∃ f, countLoop rest s = .raised .lengthOverflow Config.countMax (opcode .count)
        (countedTo f Config.countMax (s.inPos + 8 * (Config.countMax.toNat - s.inCount.toNat + 1)) s) ∧
      (memWf freqDefault Config.alphabetSize s.freq = true → memWf freqDefault Config.alphabetSize f = true) := by
  induction rest generalizing s with
  | nil => simp at hc; omega
  | cons b rest ih =>
    rw [countLoop_cons hu]
    by_cases heq : s.inCount = Config.countMax
    · refine ⟨s.freq, ?_, id⟩
      rw [if_pos heq, raise, heq]
      congr 1
      simp [countedTo, inMove, heq]
    · have hlt : s.inCount.toNat < Config.countMax.toNat :=
        lt_of_le_of_ne hs fun h => heq (BitVec.eq_of_toNat_eq h)
      have hstep : (countByte b (inMove (s.inPos + 8) s)).inCount.toNat = s.inCount.toNat + 1 := by
        have : Config.countMax.toNat = 4294967294 := rfl
        simp only [countByte_inCount, inMove_inCount, BitVec.toNat_add]
        rw [show (1 : Word).toNat = 1 from rfl]
        omega
      obtain ⟨f, hf, hwf⟩ := ih (countByte b (inMove (s.inPos + 8) s)) (byte_read hu).2 (by omega)
        (by simp only [List.length_cons] at hc; omega)
      refine ⟨f, ?_, ?_⟩
      · rw [if_neg heq, hf, countedTo_absorb, hstep]
        congr 2
        simp only [countByte_inPos, inMove_inPos]
        omega
      · intro h
        apply hwf
        exact memWf_memSet _ h (by have := b.isLt; simp [Config.alphabetSize]; omega)

theorem unread_of_rewound {s : State} (h : s.inPos = 0) : unread s = s.inBytes.flatMap (bin 8) := by
  rw [unread, h, List.drop_zero, inBits_eq_flatMap]

/-- COUNT's pseudocode on an IN it can count (R150). -/
theorem runCount_ok (s : State) (h : s.inBytes.length ≤ Config.countMax.toNat) :
    ∃ f, runCount s =
        .ok () (flagsCounted (countedTo f (BitVec.ofNat 32 s.inBytes.length) (8 * s.inBytes.length) s)) ∧
      (∀ k, memGet freqDefault f k = if k = Config.pseudoEof then 1 else BitVec.ofNat 32 (occurrences s.inBytes k)) ∧
      memWf freqDefault Config.alphabetSize f = true := by
  obtain ⟨f, hf, hget, hwf⟩ := countLoop_ok s.inBytes (countStart s) (unread_of_rewound rfl) (by simpa using h)
  refine ⟨memSet freqDefault f Config.pseudoEof 1, ?_, ?_, ?_⟩
  · rw [runCount, hf]
    simp [Res.andThen, countEnd, flagsCounted, countStart, countedTo, setFreq, inRewind, inMove]
  · intro k
    rw [memGet_memSet, hget]
    by_cases hk : Config.pseudoEof = k
    · simp [hk]
    · simp [hk, Ne.symm hk, freqAt, freqDefault]
  · exact memWf_memSet _ (hwf (by simp)) (by simp [Config.alphabetSize, Config.pseudoEof])

/-- COUNT's pseudocode on an IN of more than `COUNT_MAX` bytes (R150). -/
theorem runCount_overflow (s : State) (h : Config.countMax.toNat < s.inBytes.length) :
    ∃ f, runCount s = .raised .lengthOverflow Config.countMax (opcode .count)
        (countedTo f Config.countMax (8 * (Config.countMax.toNat + 1)) s) ∧
      memWf freqDefault Config.alphabetSize f = true := by
  obtain ⟨f, hf, hwf⟩ := countLoop_overflow s.inBytes (countStart s) (unread_of_rewound rfl) (by simp) (by simpa using h)
  refine ⟨f, ?_, hwf (by simp)⟩
  rw [runCount, hf]
  simp [Res.andThen, countStart, countedTo, inRewind, inMove]

end Sys2Proof.Machine
end

