-- ==== Sys2Proof/Laws/Encode.lean ====
section
/-! SUPPORT. ENCODE (41_encoder R163 to R166): the codes it appends and the errors it raises. -/

set_option autoImplicit false

namespace Sys2Proof.Machine

/-- `bits` appended to OUT and counted in OUT_BITS. -/
def outGrown (bits : List Bool) (s : State) : State :=
  { s with out := s.out ++ bits, outBits := s.outBits + BitVec.ofNat 32 bits.length }

theorem outGrown_append (a b : List Bool) (s : State) : outGrown b (outGrown a s) = outGrown (a ++ b) s := by
  simp [outGrown, List.append_assoc, BitVec.add_assoc, BitVec.ofNat_add]

theorem outGrown_nil (s : State) : outGrown [] s = s := by simp [outGrown]

theorem outWrite_eq (n : Nat) (v : BitVec n) (s : State) : outWrite n v s = outGrown (bin n v) s := by
  simp [outWrite, outGrown]

theorem foldl_outWrite (f : Nat → Bool) (l : List Nat) (s : State) :
    l.foldl (fun s k => outWrite 1 (BitVec.ofBool (f k)) s) s = outGrown (l.map f) s := by
  induction l generalizing s with
  | nil => rw [List.foldl_nil, List.map_nil, outGrown_nil]
  | cons k l ih => rw [List.foldl_cons, ih, outWrite_eq, bin_one, outGrown_append]; rfl

theorem codeString_eq (c : CodeEntry) : codeString c = (List.range c.len.toNat).reverse.map c.val.getLsbD := by
  rw [codeString, bin]
  apply List.ext_getElem
  · simp
  · intro k h1 h2
    simp only [List.length_map, List.length_range] at h1
    simp only [List.getElem_map, List.getElem_range, List.getElem_reverse, List.length_range]
    rw [BitVec.getMsbD_eq_getLsbD, BitVec.getLsbD_setWidth]
    simp [h1]
    intro h; omega

/-- `EmitCode` appends the code, most significant bit first (R164). -/
theorem emitCode_eq (c : CodeEntry) (s : State) : emitCode c s = outGrown (codeString c) s := by
  rw [emitCode, foldl_outWrite, codeString_eq]

theorem bodyBits_eq (s : State) (bytes : List Byte) :
    bodyBits s bytes = codesOf s bytes ++ codeString (codeAt s Config.pseudoEof) := rfl

/-- The state after the bytes `pre` are encoded. -/
def encoded (pre : List Byte) (s : State) : State :=
  { s with
    out      := s.out ++ codesOf s pre
    outBits  := s.outBits + BitVec.ofNat 32 (codesOf s pre).length
    encCount := s.encCount + BitVec.ofNat 32 pre.length
    inPos    := s.inPos + 8 * pre.length }

theorem encoded_nil (s : State) : encoded [] s = s := by simp [encoded, codesOf]

theorem encoded_cons (b : Byte) (pre : List Byte) (s : State) :
    encoded pre (encodeByte b (inMove (s.inPos + 8) s)) = encoded (b :: pre) s := by
  have e : encodeByte b (inMove (s.inPos + 8) s) =
      { s with
        out      := s.out ++ codeString (codeAt s b.toNat)
        outBits  := s.outBits + BitVec.ofNat 32 (codeString (codeAt s b.toNat)).length
        encCount := s.encCount + 1
        inPos    := s.inPos + 8 } := by
    rw [encodeByte, emitCode_eq]; rfl
  rw [e, encoded, encoded]
  have hc : ∀ l, codesOf
      { s with
        out      := s.out ++ codeString (codeAt s b.toNat)
        outBits  := s.outBits + BitVec.ofNat 32 (codeString (codeAt s b.toNat)).length
        encCount := s.encCount + 1
        inPos    := s.inPos + 8 } l = codesOf s l := fun _ => rfl
  rw [hc, show codesOf s (b :: pre) = codeString (codeAt s b.toNat) ++ codesOf s pre from List.flatMap_cons]
  simp only [List.append_assoc, List.length_append, List.length_cons]
  congr 1
  · rw [BitVec.ofNat_add, BitVec.add_assoc, BitVec.add_comm (1 : Word)]; rfl
  · rw [BitVec.ofNat_add, BitVec.add_assoc]
  · omega

theorem encodeLoop_cons {s : State} {b : Byte} {rest : List Byte} (hu : unread s = (b :: rest).flatMap (bin 8)) :
    encodeLoop (b :: rest) s =
      if s.encCount = s.inCount then raise .sourceMismatch (s.encCount + 1) .encode (inMove (s.inPos + 8) s)
      else if (codeAt s b.toNat).valid then encodeLoop rest (encodeByte b (inMove (s.inPos + 8) s))
      else raise .noCode (BitVec.setWidth 32 b) .encode (inMove (s.inPos + 8) s) := by
  rw [encodeLoop, (byte_read hu).1]
  rfl

theorem unread_encoded {s : State} {pre post : List Byte} (hu : unread s = (pre ++ post).flatMap (bin 8)) :
    unread (encoded pre s) = post.flatMap (bin 8) := by
  rw [List.flatMap_append] at hu
  exact unread_after hu rfl (by rw [flatMap_bin8_length]; rfl)

theorem encCount_encoded {s : State} {pre : List Byte} (hk : s.encCount.toNat + pre.length ≤ s.inCount.toNat) :
    (encoded pre s).encCount.toNat = s.encCount.toNat + pre.length := by
  show (s.encCount + BitVec.ofNat 32 pre.length).toNat = _
  have := s.inCount.isLt
  rw [BitVec.toNat_add, BitVec.toNat_ofNat]; omega

/-- The loop over bytes that all have a code and are not more than COUNT counted. -/
theorem encodeLoop_append (pre post : List Byte) (s : State) (hu : unread s = (pre ++ post).flatMap (bin 8))
    (hv : AllCoded s pre) (hk : s.encCount.toNat + pre.length ≤ s.inCount.toNat) :
    encodeLoop (pre ++ post) s = encodeLoop post (encoded pre s) := by
  induction pre generalizing s with
  | nil => rw [encoded_nil]; rfl
  | cons b pre ih =>
    simp only [List.length_cons] at hk
    have hne : s.encCount ≠ s.inCount := by intro h; rw [h] at hk; omega
    have hu' : unread s = (b :: (pre ++ post)).flatMap (bin 8) := hu
    rw [List.cons_append, encodeLoop_cons hu', if_neg hne, if_pos (hv b (by simp))]
    have hcu : (encodeByte b (inMove (s.inPos + 8) s)).encCount.toNat = s.encCount.toNat + 1 := by
      have h1 : (encodeByte b (inMove (s.inPos + 8) s)).encCount = s.encCount + 1 := by rw [encodeByte, emitCode_eq]; rfl
      have := s.inCount.isLt
      rw [h1, BitVec.toNat_add, show (1 : Word).toNat = 1 from rfl]; omega
    have hsame : ∀ x, codeAt (encodeByte b (inMove (s.inPos + 8) s)) x = codeAt s x := by
      intro x; rw [encodeByte, emitCode_eq]; rfl
    have hic : (encodeByte b (inMove (s.inPos + 8) s)).inCount = s.inCount := by rw [encodeByte, emitCode_eq]; rfl
    rw [ih _ ?_ ?_ ?_, encoded_cons]
    · rw [← (byte_read hu').2]
      exact unread_congr (by rw [encodeByte, emitCode_eq]; rfl) (by rw [encodeByte, emitCode_eq]; rfl)
    · intro x hx; rw [hsame]; exact hv x (by simp [hx])
    · rw [hcu, hic]; omega

theorem unread_encodeStart (s : State) : unread (encodeStart s) = s.inBytes.flatMap (bin 8) :=
  unread_of_rewound (s := encodeStart s) rfl

/-- The state ENCODE has reached after the bytes `pre` from the start. -/
def encodedFrom (pre : List Byte) (s : State) : State :=
  { outGrown (codesOf s pre) s with encCount := BitVec.ofNat 32 pre.length, inPos := 8 * pre.length }

theorem encoded_start (pre : List Byte) (s : State) : encoded pre (encodeStart s) = encodedFrom pre s := by
  have e : encoded pre (encodeStart s) =
      { outGrown (codesOf s pre) s with encCount := 0 + BitVec.ofNat 32 pre.length, inPos := 0 + 8 * pre.length } := by
    cases s; rfl
  rw [e, show (0 : Word) + BitVec.ofNat 32 pre.length = BitVec.ofNat 32 pre.length from BitVec.zero_add _, Nat.zero_add]; rfl

theorem runEncode_prefix {s : State} {pre post : List Byte} (hb : s.inBytes = pre ++ post) (hv : AllCoded s pre)
    (hk : pre.length ≤ s.inCount.toNat) :
    runEncode s = (encodeLoop post (encodedFrom pre s)).andThen (fun _ s1 => encodeEnd s1) ∧
      unread (encodedFrom pre s) = post.flatMap (bin 8) := by
  have hu : unread (encodeStart s) = (pre ++ post).flatMap (bin 8) := by rw [unread_encodeStart, hb]
  rw [runEncode, hb, encodeLoop_append pre post (encodeStart s) hu hv (by simpa [encodeStart] using hk), encoded_start]
  exact ⟨rfl, by rw [← encoded_start]; exact unread_encoded hu⟩

theorem encodedFrom_encCount {s : State} {pre : List Byte} (hk : pre.length ≤ s.inCount.toNat) :
    (encodedFrom pre s).encCount.toNat = pre.length := by
  have := s.inCount.isLt
  show (BitVec.ofNat 32 pre.length).toNat = _
  rw [BitVec.toNat_ofNat]; omega

/-- The state ENCODE leaves when it ends well (R163, R166). -/
def bodyWritten (s : State) : State :=
  { outGrown (bodyBits s s.inBytes) s with
    encCount := s.inCount
    inPos    := 8 * s.inBytes.length
    out      := s.out ++ bodyBits s s.inBytes ++ padding (s.out.length + (bodyBits s s.inBytes).length) }

/-- ENCODE over the bytes COUNT counted (R163). -/
theorem runEncode_ok {s : State} (hv : AllCoded s s.inBytes) (hl : s.inBytes.length = s.inCount.toNat) :
    runEncode s = .ok () (bodyWritten s) := by
  obtain ⟨h1, h2⟩ := runEncode_prefix (s := s) (pre := s.inBytes) (post := []) (by simp) hv (by omega)
  have hc : (encodedFrom s.inBytes s).encCount = s.inCount :=
    BitVec.eq_of_toNat_eq (by rw [encodedFrom_encCount (by omega)]; exact hl)
  rw [h1, encodeLoop, byte_noData h2]
  simp only [Res.andThen]
  rw [encodeEnd, if_pos (show (encodedFrom s.inBytes s).encCount = (encodedFrom s.inBytes s).inCount from hc), emitCode_eq]
  have e1 : outGrown (codeString (codeAt (encodedFrom s.inBytes s) Config.pseudoEof)) (encodedFrom s.inBytes s) =
      { outGrown (bodyBits s s.inBytes) s with encCount := (encodedFrom s.inBytes s).encCount, inPos := 8 * s.inBytes.length } := by
    rw [bodyBits_eq, ← outGrown_append]; rfl
  rw [e1, hc]
  simp only [outFlush, bodyWritten, outGrown, List.length_append]

/-- The second pass longer than the first (R165). -/
theorem runEncode_longer {s : State} {pre post : List Byte} {b : Byte} (hb : s.inBytes = pre ++ b :: post)
    (hv : AllCoded s pre) (hl : pre.length = s.inCount.toNat) :
    runEncode s = raise .sourceMismatch (s.inCount + 1) .encode (inMove (8 * (pre.length + 1)) (encodedFrom pre s)) := by
  obtain ⟨h1, h2⟩ := runEncode_prefix hb hv (by omega)
  have hc : (encodedFrom pre s).encCount = s.inCount :=
    BitVec.eq_of_toNat_eq (by rw [encodedFrom_encCount (by omega)]; exact hl)
  rw [h1, encodeLoop_cons h2, if_pos (show (encodedFrom pre s).encCount = (encodedFrom pre s).inCount from hc), hc]
  rfl

/-- The second pass shorter than the first (R165). -/
theorem runEncode_shorter {s : State} (hv : AllCoded s s.inBytes) (hl : s.inBytes.length < s.inCount.toNat) :
    runEncode s = raise .sourceMismatch (BitVec.ofNat 32 s.inBytes.length) .encode (encodedFrom s.inBytes s) := by
  obtain ⟨h1, h2⟩ := runEncode_prefix (s := s) (pre := s.inBytes) (post := []) (by simp) hv (by omega)
  have hc : (encodedFrom s.inBytes s).encCount ≠ s.inCount := by
    intro h
    have := encodedFrom_encCount (s := s) (pre := s.inBytes) (by omega)
    rw [h] at this; omega
  rw [h1, encodeLoop, byte_noData h2]
  simp only [Res.andThen]
  rw [encodeEnd, if_neg (show ¬ (encodedFrom s.inBytes s).encCount = (encodedFrom s.inBytes s).inCount from hc)]
  rfl

/-- A byte without a code (R165). -/
theorem runEncode_noCode {s : State} {pre post : List Byte} {b : Byte} (hb : s.inBytes = pre ++ b :: post)
    (hv : AllCoded s pre) (hl : pre.length < s.inCount.toNat) (hno : (codeAt s b.toNat).valid = false) :
    runEncode s = raise .noCode (BitVec.setWidth 32 b) .encode (inMove (8 * (pre.length + 1)) (encodedFrom pre s)) := by
  obtain ⟨h1, h2⟩ := runEncode_prefix hb hv (by omega)
  have hc : (encodedFrom pre s).encCount ≠ s.inCount := by
    intro h
    have := encodedFrom_encCount (s := s) (pre := pre) (by omega)
    rw [h] at this; omega
  rw [h1, encodeLoop_cons h2, if_neg (show ¬ (encodedFrom pre s).encCount = (encodedFrom pre s).inCount from hc),
    if_neg (show ¬ (codeAt (encodedFrom pre s) b.toNat).valid = true from by
      rw [show codeAt (encodedFrom pre s) b.toNat = codeAt s b.toNat from rfl, hno]; simp)]
  rfl

/-- What ENCODE touches, however it ends: OUT grows, OUT_BITS, ENC_COUNT and the IN position change. -/
def EncodeTouched (s s1 : State) : Prop :=
  ∃ bits w c p, s1 = { s with out := s.out ++ bits, outBits := w, encCount := c, inPos := p } ∧ p ≤ 8 * s.inBytes.length

/-- Everything ENCODE can do (R163, R165). -/
theorem runEncode_cases (s : State) :
    (∃ s1, runEncode s = .ok () s1 ∧ EncodeTouched s s1) ∨
    (∃ e info s1, runEncode s = raise e info .encode s1 ∧ e.isExecution = true ∧ EncodeTouched s s1) := by
  classical
  -- the longest coded prefix that COUNT's length allows
  obtain ⟨pre, post, hb, hv, hk, hstop⟩ : ∃ pre post : List Byte, s.inBytes = pre ++ post ∧ AllCoded s pre ∧
      pre.length ≤ s.inCount.toNat ∧
      (pre.length = s.inCount.toNat ∨ ∀ b rest, post = b :: rest → (codeAt s b.toNat).valid = false) := by
    generalize s.inBytes = bytes
    generalize s.inCount.toNat = n
    induction n generalizing bytes with
    | zero => exact ⟨[], bytes, rfl, fun _ h => by simp at h, le_rfl, .inl rfl⟩
    | succ n ih =>
      cases bytes with
      | nil => exact ⟨[], [], rfl, fun _ h => by simp at h, by simp, .inr fun _ _ h => by simp at h⟩
      | cons b bytes =>
        by_cases hvb : (codeAt s b.toNat).valid = true
        · obtain ⟨pre, post, h1, h2, h3, h4⟩ := ih bytes
          refine ⟨b :: pre, post, by rw [h1]; rfl, ?_, by simp; omega, h4.imp (by intro h; simp [h]) id⟩
          intro x hx
          rcases List.mem_cons.1 hx with rfl | hx
          · exact hvb
          · exact h2 x hx
        · exact ⟨[], b :: bytes, rfl, fun _ h => by simp at h, by simp, .inr fun x rest h => by
            injection h with h _; subst h; simpa using hvb⟩
  have hlen : pre.length + post.length = s.inBytes.length := by rw [hb]; simp
  cases post with
  | nil =>
    rw [List.append_nil] at hb
    subst hb
    rcases Nat.lt_or_ge s.inBytes.length s.inCount.toNat with hlt | hge
    · exact .inr ⟨_, _, _, runEncode_shorter hv hlt, rfl, codesOf s s.inBytes,
        s.outBits + BitVec.ofNat 32 (codesOf s s.inBytes).length, BitVec.ofNat 32 s.inBytes.length, 8 * s.inBytes.length, rfl, by omega⟩
    · exact .inl ⟨_, runEncode_ok hv (by omega), bodyBits s s.inBytes ++ padding (s.out.length + (bodyBits s s.inBytes).length),
        s.outBits + BitVec.ofNat 32 (bodyBits s s.inBytes).length, s.inCount, 8 * s.inBytes.length,
        by rw [← List.append_assoc]; rfl, by omega⟩
  | cons b post =>
    simp only [List.length_cons] at hlen
    rcases Nat.lt_or_ge pre.length s.inCount.toNat with hlt | hge
    · exact .inr ⟨_, _, _, runEncode_noCode hb hv hlt ((hstop.resolve_left (by omega)) b post rfl), rfl, codesOf s pre,
        s.outBits + BitVec.ofNat 32 (codesOf s pre).length, BitVec.ofNat 32 pre.length, 8 * (pre.length + 1), rfl, by omega⟩
    · exact .inr ⟨_, _, _, runEncode_longer hb hv (by omega), rfl, codesOf s pre,
        s.outBits + BitVec.ofNat 32 (codesOf s pre).length, BitVec.ofNat 32 pre.length, 8 * (pre.length + 1), rfl, by omega⟩

end Sys2Proof.Machine
end

