-- ==== Sys2Proof/Laws/Decode.lean ====
section
/-! SUPPORT. DECODE_BODY (42_decoder R204 to R206): what its loop does over the paths of a stored tree. -/

set_option autoImplicit false

namespace Sys2Proof.Machine

/-- What the loop does when the cursor has reached a leaf (R204). -/
def landed (bits : Nat) (sym : Sym) (s : State) : Res Unit :=
  if sym.toNat = Config.pseudoEof then .ok () (outFlush s) else decodeLoop bits s.root (emitByte sym s)

theorem bit_read {s : State} {b : Bool} {rest : List Bool} (hu : unread s = b :: rest) :
    inRead 1 s = (some (BitVec.ofBool b), inMove (s.inPos + 1) s) ∧ unread (inMove (s.inPos + 1) s) = rest := by
  have h : unread s = [b] ++ rest := hu
  refine ⟨?_, unread_after h rfl rfl⟩
  rw [inRead_of_unread (n := 1) rfl (by omega) h]
  cases b <;> rfl

theorem bit_noData {s : State} (hu : unread s = []) : inRead 1 s = (none, s) := by
  have h : 8 * s.inBytes.length - s.inPos = 0 := by rw [← unread_length, hu]; rfl
  rw [inRead_noData (by rw [hu]; simp), noData_at_end (by omega)]

theorem ofBool_beq_one (b : Bool) : (BitVec.ofBool b == 1) = b := by cases b <;> rfl

/-- A cursor on an internal node moves to a child. -/
theorem decodeLoop_step {s : State} {cur l r : NodeIx} {w : Word} {b : Bool} {rest : List Bool}
    (h : walkNode s cur = some (.internal w l r)) (hu : unread s = b :: rest) (n : Nat) :
    decodeLoop (n + 1) cur s =
      match walkNode s (if b then r else l) with
      | none                    => .stuck .brokenTree
      | some (.internal _ _ _)  => decodeLoop n (if b then r else l) (inMove (s.inPos + 1) s)
      | some (.leaf sym _)      => landed n sym (inMove (s.inPos + 1) s) := by
  rw [decodeLoop, (bit_read hu).1]
  simp only
  rw [ofBool_beq_one, cursorStep, walkNode_congr (s1 := inMove (s.inPos + 1) s) (s := s) rfl rfl, h]
  simp only
  rw [walkNode_congr (s1 := inMove (s.inPos + 1) s) (s := s) rfl rfl]
  rfl

theorem Holds.walk {s : State} {i : NodeIx} {t : Tree} (h : Holds s i t) :
    (∃ sym w, t = .leaf sym w ∧ walkNode s i = some (.leaf sym w)) ∨
    (∃ w l r a b, t = .fork w a b ∧ walkNode s i = some (.internal w l r) ∧ Holds s l a ∧ Holds s r b) := by
  cases h with
  | leaf h => exact .inl ⟨_, _, rfl, h⟩
  | fork h ha hb => exact .inr ⟨_, _, _, _, _, rfl, h, ha, hb⟩

theorem Holds.move {s : State} {i : NodeIx} {t : Tree} (h : Holds s i t) {s1 : State} (hn : s1.nodes = s.nodes)
    (hc : s1.nodeCount = s.nodeCount) : Holds s1 i t :=
  h.mono fun j n hj => by rw [← hj]; exact walkNode_congr hn hc j

/-- From a cursor on an internal node, the bits of a path lead to its leaf (R205). -/
theorem decodeLoop_descend {t : Tree} {s : State} {cur : NodeIx} (h : Holds s cur t) (hf : t.isFork = true) (c : LeafCode)
    (hc : c ∈ t.codes) (rest : List Bool) (hu : unread s = c.path ++ rest) :
    decodeLoop (c.path.length + rest.length) cur s = landed rest.length c.sym (inMove (s.inPos + c.path.length) s) := by
  induction t generalizing s cur c rest with
  | leaf sym w => simp [Tree.isFork] at hf
  | fork w a b iha ihb =>
    rcases h.walk with ⟨_, _, h1, _⟩ | ⟨w', l, r, a', b', h1, hw, ha, hb⟩
    · simp at h1
    injection h1 with h1 h2 h3
    subst h1 h2 h3
    have main : ∀ (bit : Bool) (t : Tree) (child : NodeIx), (if bit then r else l) = child → Holds s child t →
        (∀ {s : State} {cur : NodeIx}, Holds s cur t → t.isFork = true → ∀ c ∈ t.codes, ∀ rest : List Bool,
          unread s = c.path ++ rest →
          decodeLoop (c.path.length + rest.length) cur s = landed rest.length c.sym (inMove (s.inPos + c.path.length) s)) →
        ∀ d ∈ t.codes, unread s = (d.under bit).path ++ rest →
        decodeLoop ((d.under bit).path.length + rest.length) cur s =
          landed rest.length d.sym (inMove (s.inPos + (d.under bit).path.length) s) := by
      intro bit t child hchild hholds ih d hd hu
      have hu' : unread s = bit :: (d.path ++ rest) := hu
      rw [LeafCode.under_path, List.length_cons, show d.path.length + 1 + rest.length = d.path.length + rest.length + 1 by omega,
        decodeLoop_step hw hu', hchild]
      rcases hholds.walk with ⟨sym, w1, rfl, h1⟩ | ⟨w1, l1, r1, a1, b1, rfl, h1, _, _⟩
      · rw [h1]
        simp only [Tree.codes, List.mem_singleton] at hd
        subst hd
        simp
      · rw [h1]
        simp only
        rw [ih (s := inMove (s.inPos + 1) s) (hholds.move rfl rfl) rfl d hd rest (bit_read hu').2]
        rw [show s.inPos + (d.path.length + 1) = s.inPos + 1 + d.path.length by omega]
        rfl
    simp only [Tree.codes, List.mem_append, List.mem_map] at hc
    rcases hc with ⟨d, hd, rfl⟩ | ⟨d, hd, rfl⟩
    · exact main false a l rfl ha iha d hd hu
    · exact main true b r rfl hb ihb d hd hu

/-- From a cursor on an internal node, bits that hold no whole path run out. -/
theorem decodeLoop_runOut {t : Tree} {s : State} {cur : NodeIx} (h : Holds s cur t) (hf : t.isFork = true)
    (hno : ∀ c ∈ t.codes, ¬ c.path <+: unread s) :
    decodeLoop (unread s).length cur s = raise .truncatedStream s.decCount .decodeBody
      (inMove (s.inPos + (unread s).length) s) := by
  induction t generalizing s cur with
  | leaf sym w => simp [Tree.isFork] at hf
  | fork w a b iha ihb =>
    rcases h.walk with ⟨_, _, h1, _⟩ | ⟨w', l, r, a', b', h1, hw, ha, hb⟩
    · simp at h1
    injection h1 with h1 h2 h3
    subst h1 h2 h3
    cases hq : unread s with
    | nil =>
      simp only [List.length_nil, Nat.add_zero]
      rw [decodeLoop, bit_noData hq]
      cases s; rfl
    | cons bit rest =>
      have main : ∀ (t : Tree) (child : NodeIx), (if bit then r else l) = child → Holds s child t →
          (∀ {s : State} {cur : NodeIx}, Holds s cur t → t.isFork = true → (∀ c ∈ t.codes, ¬ c.path <+: unread s) →
            decodeLoop (unread s).length cur s = raise .truncatedStream s.decCount .decodeBody
              (inMove (s.inPos + (unread s).length) s)) →
          (∀ c ∈ t.codes, ¬ c.path <+: rest) →
          decodeLoop (bit :: rest).length cur s = raise .truncatedStream s.decCount .decodeBody
            (inMove (s.inPos + (bit :: rest).length) s) := by
        intro t child hchild hholds ih hno
        rw [List.length_cons, decodeLoop_step hw hq, hchild]
        rcases hholds.walk with ⟨sym, w1, rfl, h1⟩ | ⟨w1, l1, r1, a1, b1, rfl, h1, _, _⟩
        · exact absurd List.nil_prefix (hno ⟨sym, w1, []⟩ (by simp [Tree.codes]))
        · rw [h1]
          simp only
          have hr := (bit_read hq).2
          have := ih (s := inMove (s.inPos + 1) s) (hholds.move rfl rfl) rfl (by rw [hr]; exact hno)
          rw [hr] at this
          rw [this, show s.inPos + (rest.length + 1) = s.inPos + 1 + rest.length by omega]
          rfl
      rw [hq] at hno
      cases bit with
      | false =>
        refine main a l rfl ha iha fun c hc hp => hno (c.under false) ?_ ?_
        · rw [Tree.codes, List.mem_append]; exact .inl (List.mem_map_of_mem hc)
        · exact List.cons_prefix_cons.2 ⟨rfl, hp⟩
      | true =>
        refine main b r rfl hb ihb fun c hc hp => hno (c.under true) ?_ ?_
        · rw [Tree.codes, List.mem_append]; exact .inr (List.mem_map_of_mem hc)
        · exact List.cons_prefix_cons.2 ⟨rfl, hp⟩

/-- The state after `cs` is decoded. -/
def decoded (cs : List LeafCode) (s : State) : State :=
  { s with
    out      := s.out ++ (literals cs).flatMap (bin 8)
    outBits  := s.outBits + BitVec.ofNat 32 (8 * cs.length)
    decCount := s.decCount + BitVec.ofNat 32 cs.length
    inPos    := s.inPos + (pathBits cs).length }

theorem decoded_nil (s : State) : decoded [] s = s := by simp [decoded, pathBits, literals]

theorem decoded_cons (c : LeafCode) (cs : List LeafCode) (s : State) :
    decoded cs (emitByte c.sym (inMove (s.inPos + c.path.length) s)) = decoded (c :: cs) s := by
  have e : decoded cs (emitByte c.sym (inMove (s.inPos + c.path.length) s)) =
      { s with
        out      := s.out ++ bin 8 (BitVec.setWidth 8 c.sym) ++ (literals cs).flatMap (bin 8)
        outBits  := s.outBits + 8 + BitVec.ofNat 32 (8 * cs.length)
        decCount := s.decCount + 1 + BitVec.ofNat 32 cs.length
        inPos    := s.inPos + c.path.length + (pathBits cs).length } := by cases s; rfl
  have h1 : s.outBits + 8 + BitVec.ofNat 32 (8 * cs.length) = s.outBits + BitVec.ofNat 32 (8 * (c :: cs).length) := by
    rw [List.length_cons, show 8 * (cs.length + 1) = 8 + 8 * cs.length by omega, BitVec.ofNat_add, ← BitVec.add_assoc]; rfl
  have h2 : s.decCount + 1 + BitVec.ofNat 32 cs.length = s.decCount + BitVec.ofNat 32 (c :: cs).length := by
    rw [List.length_cons, BitVec.ofNat_add, BitVec.add_assoc, BitVec.add_comm (1 : Word)]; rfl
  have h3 : s.inPos + c.path.length + (pathBits cs).length = s.inPos + (pathBits (c :: cs)).length := by
    rw [show pathBits (c :: cs) = c.path ++ pathBits cs from List.flatMap_cons, List.length_append]; omega
  rw [e, h1, h2, h3, List.append_assoc]
  rfl

/-- The loop over whole codes of literal symbols. -/
theorem decodeLoop_append {t : Tree} (cs : List LeafCode) (s : State) (h : Holds s s.root t) (hf : t.isFork = true)
    (hcs : AllLiteral t cs) (rest : List Bool) (hu : unread s = pathBits cs ++ rest) :
    decodeLoop (unread s).length s.root s = decodeLoop rest.length s.root (decoded cs s) ∧ unread (decoded cs s) = rest := by
  induction cs generalizing s with
  | nil => rw [decoded_nil, hu]; exact ⟨rfl, rfl⟩
  | cons c cs ih =>
    obtain ⟨hc, hlit⟩ := hcs c (by simp)
    have hu' : unread s = c.path ++ (pathBits cs ++ rest) := by
      rw [hu, show pathBits (c :: cs) = c.path ++ pathBits cs from List.flatMap_cons, List.append_assoc]
    have hu1 : unread (emitByte c.sym (inMove (s.inPos + c.path.length) s)) = pathBits cs ++ rest := unread_after hu' rfl rfl
    have := ih (emitByte c.sym (inMove (s.inPos + c.path.length) s)) (h.move rfl rfl) (fun d hd => hcs d (by simp [hd])) hu1
    rw [decoded_cons] at this
    refine ⟨?_, this.2⟩
    rw [hu', List.length_append, decodeLoop_descend h hf c hc _ hu', landed, if_neg hlit, ← hu1]
    exact this.1

/-- The state DECODE_BODY has reached after `cs` from the start. -/
def decodedFrom (cs : List LeafCode) (s : State) : State :=
  { outGrown ((literals cs).flatMap (bin 8)) s with
    decCount := BitVec.ofNat 32 cs.length, inPos := s.inPos + (pathBits cs).length }

theorem decoded_start (cs : List LeafCode) (s : State) : decoded cs (decodeStart s) = decodedFrom cs s := by
  have e : decoded cs (decodeStart s) =
      { s with
        out      := s.out ++ (literals cs).flatMap (bin 8)
        outBits  := s.outBits + BitVec.ofNat 32 (8 * cs.length)
        decCount := 0 + BitVec.ofNat 32 cs.length
        inPos    := s.inPos + (pathBits cs).length } := by cases s; rfl
  rw [e, show (0 : Word) + BitVec.ofNat 32 cs.length = BitVec.ofNat 32 cs.length from BitVec.zero_add _]
  simp only [decodedFrom, outGrown]
  rw [flatMap_bin8_length, literals, List.length_map]

theorem runDecodeBody_prefix {t : Tree} {s : State} (ht : storedTree s = some t) (hf : t.isFork = true) {cs : List LeafCode}
    (hcs : AllLiteral t cs) {rest : List Bool} (hu : unread s = pathBits cs ++ rest) :
    runDecodeBody s = decodeLoop rest.length s.root (decodedFrom cs s) ∧ unread (decodedFrom cs s) = rest ∧
      Holds (decodedFrom cs s) s.root t := by
  obtain ⟨hh, _⟩ := (storedTree_iff s t).1 ht
  have h1 := decodeLoop_append cs (decodeStart s) (hh.move rfl rfl) hf hcs rest hu
  rw [decoded_start] at h1
  refine ⟨?_, h1.2, hh.move rfl rfl⟩
  rw [runDecodeBody, ← unread_length]
  exact h1.1

/-- DECODE_BODY over whole codes up to an EOF code (R204). -/
theorem runDecodeBody_ok {t : Tree} {s : State} (ht : storedTree s = some t) (hf : t.isFork = true) {cs : List LeafCode}
    (hcs : AllLiteral t cs) {e : LeafCode} (he : e ∈ t.codes) (heof : e.sym.toNat = Config.pseudoEof) {rest : List Bool}
    (hu : unread s = pathBits cs ++ (e.path ++ rest)) :
    runDecodeBody s = .ok () (outFlush (inMove (s.inPos + (pathBits cs).length + e.path.length) (decodedFrom cs s))) := by
  obtain ⟨h1, h2, h3⟩ := runDecodeBody_prefix ht hf hcs hu
  rw [h1, List.length_append, decodeLoop_descend h3 hf e he rest h2, landed, if_pos heof]
  rfl

/-- DECODE_BODY over whole codes with no EOF code after them (R204). -/
theorem runDecodeBody_truncated {t : Tree} {s : State} (ht : storedTree s = some t) (hf : t.isFork = true)
    {cs : List LeafCode} (hcs : AllLiteral t cs) {rest : List Bool} (hu : unread s = pathBits cs ++ rest)
    (hno : ∀ c ∈ t.codes, ¬ c.path <+: rest) :
    runDecodeBody s = raise .truncatedStream (BitVec.ofNat 32 cs.length) .decodeBody
      (inMove (s.inPos + (pathBits cs).length + rest.length) (decodedFrom cs s)) := by
  obtain ⟨h1, h2, h3⟩ := runDecodeBody_prefix ht hf hcs hu
  have := decodeLoop_runOut h3 hf (by rw [h2]; exact hno)
  rw [h2] at this
  rw [h1, this]
  rfl

/-! ### Root-leaf trees (R206) -/

theorem decodeLoop_rootLeaf {s : State} {sym : Sym} {w : Word} (h : walkNode s s.root = some (.leaf sym w)) {b : Bool}
    {rest : List Bool} (hu : unread s = b :: rest) (n : Nat) :
    decodeLoop (n + 1) s.root s = landed n sym (inMove (s.inPos + 1) s) := by
  have hw : walkNode (inMove (s.inPos + 1) s) s.root = some (.leaf sym w) := by rw [← h]; exact walkNode_congr rfl rfl _
  rw [decodeLoop, (bit_read hu).1]
  simp only
  rw [cursorStep, hw]
  simp only
  rw [hw]
  rfl

/-- The first bit ends the body of a root-leaf EOF tree. -/
theorem runDecodeBody_rootEof {s : State} {sym : Sym} {w : Word} (ht : storedTree s = some (.leaf sym w))
    (heof : sym.toNat = Config.pseudoEof) {b : Bool} {rest : List Bool} (hu : unread s = b :: rest) :
    runDecodeBody s = .ok () (outFlush (inMove (s.inPos + 1) (decodeStart s))) := by
  obtain ⟨hh, _⟩ := (storedTree_iff s _).1 ht
  have hw : walkNode (decodeStart s) (decodeStart s).root = some (.leaf sym w) := by
    rcases hh.walk with ⟨_, _, h1, h2⟩ | ⟨_, _, _, _, _, h1, _⟩
    · injection h1 with h1 h3; subst h1 h3
      rw [← h2]; exact walkNode_congr rfl rfl _
    · simp at h1
  have hu' : unread (decodeStart s) = b :: rest := hu
  rw [runDecodeBody, ← unread_length, hu, List.length_cons]
  rw [show decodeLoop (rest.length + 1) s.root (decodeStart s) = decodeLoop (rest.length + 1) (decodeStart s).root (decodeStart s)
    from rfl, decodeLoop_rootLeaf hw hu', landed, if_pos heof]
  rfl

theorem decodeLoop_rootLiteral {sym : Sym} {w : Word} (hlit : sym.toNat ≠ Config.pseudoEof) (bits : List Bool) (s : State)
    (h : walkNode s s.root = some (.leaf sym w)) (hu : unread s = bits) :
    decodeLoop bits.length s.root s =
      raise .truncatedStream (s.decCount + BitVec.ofNat 32 bits.length) .decodeBody
        (decoded (List.replicate bits.length ⟨sym, w, [false]⟩) s) := by
  induction bits generalizing s with
  | nil =>
    rw [List.length_nil, List.replicate_zero, decoded_nil, decodeLoop, bit_noData hu]
    simp
  | cons b bits ih =>
    have hw : walkNode (emitByte sym (inMove (s.inPos + 1) s)) (emitByte sym (inMove (s.inPos + 1) s)).root = some (.leaf sym w) := by
      rw [← h]; exact walkNode_congr rfl rfl _
    have hu1 : unread (emitByte sym (inMove (s.inPos + 1) s)) = bits := (bit_read hu).2
    have := ih (emitByte sym (inMove (s.inPos + 1) s)) hw hu1
    rw [List.length_cons, decodeLoop_rootLeaf h hu, landed, if_neg hlit]
    rw [show (emitByte sym (inMove (s.inPos + 1) s)).root = (inMove (s.inPos + 1) s).root from rfl] at this
    have e := decoded_cons ⟨sym, w, [false]⟩ (List.replicate bits.length ⟨sym, w, [false]⟩) s
    rw [this, List.replicate_succ, ← e]
    have h2 : s.decCount + 1 + BitVec.ofNat 32 bits.length = s.decCount + BitVec.ofNat 32 (bits.length + 1) := by
      rw [BitVec.ofNat_add, BitVec.add_assoc, BitVec.add_comm (1 : Word)]; rfl
    rw [← h2]
    rfl

/-- Every bit gives the byte of a root-leaf literal tree, until IN ends. -/
theorem runDecodeBody_rootLiteral {s : State} {sym : Sym} {w : Word} (ht : storedTree s = some (.leaf sym w))
    (hlit : sym.toNat ≠ Config.pseudoEof) :
    runDecodeBody s = raise .truncatedStream (BitVec.ofNat 32 (unread s).length) .decodeBody
      (decodedFrom (List.replicate (unread s).length ⟨sym, w, [false]⟩) s) := by
  obtain ⟨hh, _⟩ := (storedTree_iff s _).1 ht
  have hw : walkNode (decodeStart s) (decodeStart s).root = some (.leaf sym w) := by
    rcases hh.walk with ⟨_, _, h1, h2⟩ | ⟨_, _, _, _, _, h1, _⟩
    · injection h1 with h1 h3; subst h1 h3
      rw [← h2]; exact walkNode_congr rfl rfl _
    · simp at h1
  have := decodeLoop_rootLiteral hlit (unread s) (decodeStart s) hw rfl
  rw [decoded_start] at this
  rw [runDecodeBody, ← unread_length]
  refine this.trans ?_
  rw [show (decodeStart s).decCount + BitVec.ofNat 32 (unread s).length = BitVec.ofNat 32 (unread s).length from BitVec.zero_add _]

/-! ### Everything DECODE_BODY can do -/

/-- What DECODE_BODY touches, however it ends. -/
def DecodeTouched (s s1 : State) : Prop :=
  ∃ bits w c p d, s1 = { s with out := s.out ++ bits, outBits := w, decCount := c, inPos := p, draws := d } ∧
    (s.inPos ≤ 8 * s.inBytes.length → p ≤ 8 * s.inBytes.length)

theorem DecodeTouched.trans {s s1 s2 : State} (h1 : DecodeTouched s s1) (h2 : DecodeTouched s1 s2) : DecodeTouched s s2 := by
  obtain ⟨b1, w1, c1, p1, d1, rfl, i1⟩ := h1
  obtain ⟨b2, w2, c2, p2, d2, rfl, i2⟩ := h2
  exact ⟨b1 ++ b2, w2, c2, p2, d2, by rw [← List.append_assoc], fun h => i2 (i1 h)⟩

theorem decodeTouched_move {s : State} {n : Nat} (h : s.inPos + n ≤ 8 * s.inBytes.length) :
    DecodeTouched s (inMove (s.inPos + n) s) :=
  ⟨[], s.outBits, s.decCount, s.inPos + n, s.draws, by rw [List.append_nil]; cases s; rfl, fun _ => h⟩

theorem decodeTouched_read (n : Nat) (s : State) : DecodeTouched s (inRead n s).2 := by
  rcases inRead_cases n s with ⟨h, _⟩ | ⟨v, h, hle⟩
  · rw [h]
    obtain ⟨p, d, h, _, hp⟩ := noData_cases s
    exact ⟨[], s.outBits, s.decCount, p, d, by rw [List.append_nil]; exact h, hp⟩
  · rw [h]; exact decodeTouched_move hle

theorem decodeTouched_emit (sym : Sym) (s : State) : DecodeTouched s (emitByte sym s) :=
  ⟨bin 8 (BitVec.setWidth 8 sym), s.outBits + 8, s.decCount + 1, s.inPos, s.draws, by cases s; rfl, id⟩

theorem decodeTouched_flush (s : State) : DecodeTouched s (outFlush s) :=
  ⟨padding s.out.length, s.outBits, s.decCount, s.inPos, s.draws, by cases s; rfl, id⟩

theorem decodeLoop_cases (n : Nat) (s : State) (cur : NodeIx) (t tr : Tree) (h : Holds s cur t) (hr : Holds s s.root tr) :
    (∃ s1, decodeLoop n cur s = .ok () s1 ∧ DecodeTouched s s1) ∨
    (∃ s1, decodeLoop n cur s = raise .truncatedStream s1.decCount .decodeBody s1 ∧ DecodeTouched s s1) := by
  induction n generalizing s cur t with
  | zero => exact .inr ⟨_, rfl, decodeTouched_read 1 s⟩
  | succ n ih =>
    rcases inRead_cases 1 s with ⟨hrd, _⟩ | ⟨v, hrd, hle⟩
    · refine .inr ⟨noData s, by rw [decodeLoop, hrd], ?_⟩
      have := decodeTouched_read 1 s
      rwa [hrd] at this
    · have hmv := decodeTouched_move hle
      have hland : ∀ sym, (∃ s1, landed n sym (inMove (s.inPos + 1) s) = .ok () s1 ∧ DecodeTouched s s1) ∨
          (∃ s1, landed n sym (inMove (s.inPos + 1) s) = raise .truncatedStream s1.decCount .decodeBody s1 ∧
            DecodeTouched s s1) := by
        intro sym
        by_cases hs : sym.toNat = Config.pseudoEof
        · exact .inl ⟨_, if_pos hs, hmv.trans (decodeTouched_flush _)⟩
        · have he := hmv.trans (decodeTouched_emit sym _)
          have hr' : Holds (emitByte sym (inMove (s.inPos + 1) s)) (emitByte sym (inMove (s.inPos + 1) s)).root tr := hr.move rfl rfl
          rcases ih (emitByte sym (inMove (s.inPos + 1) s)) s.root tr hr' hr' with ⟨s1, h1, h2⟩ | ⟨s1, h1, h2⟩
          · exact .inl ⟨s1, by rw [landed, if_neg hs]; exact h1, he.trans h2⟩
          · exact .inr ⟨s1, by rw [landed, if_neg hs]; exact h1, he.trans h2⟩
      have hsub : ∀ child t1, Holds s child t1 →
          (∃ s1, (match walkNode (inMove (s.inPos + 1) s) child with
            | none                    => Res.stuck .brokenTree
            | some (.internal _ _ _)  => decodeLoop n child (inMove (s.inPos + 1) s)
            | some (.leaf sym _)      => landed n sym (inMove (s.inPos + 1) s)) = .ok () s1 ∧ DecodeTouched s s1) ∨
          (∃ s1, (match walkNode (inMove (s.inPos + 1) s) child with
            | none                    => Res.stuck .brokenTree
            | some (.internal _ _ _)  => decodeLoop n child (inMove (s.inPos + 1) s)
            | some (.leaf sym _)      => landed n sym (inMove (s.inPos + 1) s)) = raise .truncatedStream s1.decCount .decodeBody s1 ∧
            DecodeTouched s s1) := by
        intro child t1 hh
        have hh' : Holds (inMove (s.inPos + 1) s) child t1 := hh.move rfl rfl
        have hr' : Holds (inMove (s.inPos + 1) s) (inMove (s.inPos + 1) s).root tr := hr.move rfl rfl
        rcases hh'.walk with ⟨sym, w1, _, hw⟩ | ⟨w1, l1, r1, a1, b1, _, hw, _, _⟩
        · rw [hw]; exact hland sym
        · rw [hw]
          rcases ih _ child t1 hh' hr' with ⟨s1, h1, h2⟩ | ⟨s1, h1, h2⟩
          · exact .inl ⟨s1, h1, hmv.trans h2⟩
          · exact .inr ⟨s1, h1, hmv.trans h2⟩
      have hcur : Holds (inMove (s.inPos + 1) s) cur t := h.move rfl rfl
      rw [decodeLoop, hrd]
      simp only
      rcases hcur.walk with ⟨sym, w1, _, hw⟩ | ⟨w1, l1, r1, a1, b1, _, hw, ha, hb⟩
      · rw [cursorStep, hw]
        exact hsub cur t h
      · rw [cursorStep, hw]
        simp only
        cases hv : (v == 1) with
        | true => exact hsub r1 b1 (hb.move rfl rfl)
        | false => exact hsub l1 a1 (ha.move rfl rfl)

/-- Everything DECODE_BODY can do on a stored tree (R204). -/
theorem runDecodeBody_cases {s : State} {t : Tree} (ht : storedTree s = some t) :
    (∃ s1, runDecodeBody s = .ok () s1 ∧ DecodeTouched s s1) ∨
    (∃ s1, runDecodeBody s = raise .truncatedStream s1.decCount .decodeBody s1 ∧ DecodeTouched s s1) := by
  obtain ⟨hh, _⟩ := (storedTree_iff s t).1 ht
  have hst : DecodeTouched s (decodeStart s) :=
    ⟨[], s.outBits, 0, s.inPos, s.draws, by rw [List.append_nil]; cases s; rfl, id⟩
  have hh' : Holds (decodeStart s) (decodeStart s).root t := hh.move rfl rfl
  rcases decodeLoop_cases (8 * s.inBytes.length - s.inPos) (decodeStart s) s.root t t hh' hh' with ⟨s1, h1, h2⟩ | ⟨s1, h1, h2⟩
  · exact .inl ⟨s1, h1, hst.trans h2⟩
  · exact .inr ⟨s1, h1, hst.trans h2⟩

end Sys2Proof.Machine
end

