-- ==== Sys2Proof/Laws/Gencode.lean ====
section
/-! SUPPORT. GENCODE (41_encoder R158): its walk over a stored tree records one entry per leaf of weight at least 1. -/

set_option autoImplicit false

namespace Sys2Proof.Machine

/-- What the walk does at one leaf, reached with `len` edges behind it that read as `val`. -/
def recordLeaf (len val : Nat) (codes : List (Nat × CodeEntry)) (c : LeafCode) : List (Nat × CodeEntry) :=
  if c.weight = 0 then codes
  else memSet codeDefault codes c.sym.toNat
    { valid := true, len := BitVec.ofNat 9 (len + c.path.length), val := BitVec.ofNat 256 (ofBits val c.path) }

theorem recordLeaf_under (len val : Nat) (codes : List (Nat × CodeEntry)) (b : Bool) (c : LeafCode) :
    recordLeaf len val codes (c.under b) = recordLeaf (len + 1) (2 * val + b.toNat) codes c := by
  simp only [recordLeaf, LeafCode.under_weight, LeafCode.under_sym, LeafCode.under_path, List.length_cons, ofBits_cons]
  rw [show len + (c.path.length + 1) = len + 1 + c.path.length by omega]
  rfl

/-- The walk over a stored tree, leaf by leaf. -/
theorem walkCodes_eq {s : State} {i : NodeIx} {t : Tree} (h : Holds s i t) {d : Nat} (hd : t.depth < d)
    (len val : Nat) (codes : List (Nat × CodeEntry)) :
    walkCodes s d i len val codes = some (t.codes.foldl (recordLeaf len val) codes) := by
  induction h generalizing d len val codes with
  | leaf h =>
    cases d with
    | zero => omega
    | succ d =>
      rename_i sym w
      rw [walkCodes, h]
      simp only [Tree.codes, List.foldl_cons, List.foldl_nil, recordLeaf, List.length_nil, Nat.add_zero, ofBits_nil]
      split <;> rfl
  | @fork i l r w a b h ha hb iha ihb =>
    cases d with
    | zero => omega
    | succ d =>
      simp only [Tree.depth] at hd
      rw [walkCodes, h]
      simp only
      rw [iha (by omega)]
      simp only
      rw [ihb (by omega), Tree.codes, List.foldl_append, List.foldl_map, List.foldl_map]
      simp only [recordLeaf_under, Bool.toNat_true, Bool.toNat_false, Nat.add_zero]

theorem walkCodes_congr {s s1 : State} (hn : s1.nodes = s.nodes) (hc : s1.nodeCount = s.nodeCount) (d : Nat) (i : NodeIx)
    (len val : Nat) (codes : List (Nat × CodeEntry)) : walkCodes s1 d i len val codes = walkCodes s d i len val codes := by
  induction d generalizing i len val codes with
  | zero => rfl
  | succ d ih => simp only [walkCodes, walkNode_congr hn hc, ih]

/-- The table the walk from the root leaves. -/
def codeTable (t : Tree) : List (Nat × CodeEntry) := t.codes.foldl (recordLeaf 0 0) []

theorem memWf_foldl_recordLeaf (cs : List LeafCode) (hs : ∀ c ∈ cs, c.sym.toNat ≤ Config.pseudoEof)
    (codes : List (Nat × CodeEntry)) (h : memWf codeDefault Config.alphabetSize codes = true) (len val : Nat) :
    memWf codeDefault Config.alphabetSize (cs.foldl (recordLeaf len val) codes) = true := by
  induction cs generalizing codes with
  | nil => exact h
  | cons c cs ih =>
    apply ih (fun d hd => hs d (List.mem_cons_of_mem _ hd))
    unfold recordLeaf
    split
    · exact h
    · have := hs c (by simp)
      exact memWf_memSet _ h (by simp [Config.pseudoEof, Config.alphabetSize] at *; omega)

theorem memGet_foldl_not_mem (cs : List LeafCode) (codes : List (Nat × CodeEntry)) (k : Nat)
    (h : ∀ c ∈ cs, c.weight ≠ 0 → c.sym.toNat ≠ k) (len val : Nat) :
    memGet codeDefault (cs.foldl (recordLeaf len val) codes) k = memGet codeDefault codes k := by
  induction cs generalizing codes with
  | nil => rfl
  | cons c cs ih =>
    rw [List.foldl_cons, ih _ fun d hd => h d (List.mem_cons_of_mem _ hd)]
    unfold recordLeaf
    split
    · rfl
    · rename_i hw
      exact memGet_memSet_ne _ _ (h c (by simp) hw) _

theorem memGet_foldl_mem (cs : List LeafCode) (hn : (cs.map LeafCode.sym).Nodup) (codes : List (Nat × CodeEntry))
    (c : LeafCode) (hc : c ∈ cs) (hw : c.weight ≠ 0) :
    memGet codeDefault (cs.foldl (recordLeaf 0 0) codes) c.sym.toNat = entryOf c.path := by
  induction cs generalizing codes with
  | nil => simp at hc
  | cons d cs ih =>
    rw [List.map_cons, List.nodup_cons] at hn
    rw [List.foldl_cons]
    rcases List.mem_cons.1 hc with rfl | hc
    · rw [memGet_foldl_not_mem]
      · rw [recordLeaf, if_neg hw, memGet_memSet_same, entryOf, Nat.zero_add]
      · intro e he _ heq
        apply hn.1
        rw [← BitVec.eq_of_toNat_eq heq]
        exact List.mem_map_of_mem he
    · exact ih hn.2 _ hc

/-- Every symbol on a leaf of weight at least 1 gets its path as its code (R110, R158). -/
theorem codeTable_mem (t : Tree) (hn : (t.codes.map LeafCode.sym).Nodup) (c : LeafCode) (hc : c ∈ t.codes)
    (hw : c.weight ≠ 0) : memGet codeDefault (codeTable t) c.sym.toNat = entryOf c.path :=
  memGet_foldl_mem _ hn _ c hc hw

/-- No other symbol gets one (R158). -/
theorem codeTable_not_mem (t : Tree) (k : Nat) (h : ∀ c ∈ t.codes, c.weight ≠ 0 → c.sym.toNat ≠ k) :
    memGet codeDefault (codeTable t) k = codeDefault := by
  rw [codeTable, memGet_foldl_not_mem _ _ _ h]; rfl

theorem Holds.sym_le {s : State} {i : NodeIx} {t : Tree} (h : Holds s i t) (c : LeafCode) (hc : c ∈ t.codes) :
    c.sym.toNat ≤ Config.pseudoEof := by
  induction h generalizing c with
  | leaf h =>
    simp [Tree.codes] at hc; subst hc
    unfold walkNode at h
    split at h
    · split at h
      · split at h
        · simp at h; rename_i hle; rw [← h.1]; exact hle
        · simp at h
      · simp at h
    · simp at h
  | fork h ha hb iha ihb =>
    simp only [Tree.codes, List.mem_append, List.mem_map] at hc
    rcases hc with ⟨d, hd, rfl⟩ | ⟨d, hd, rfl⟩
    · exact iha d hd
    · exact ihb d hd

/-- GENCODE's pseudocode on a stored tree (R158). -/
theorem runGencode_ok {s : State} {t : Tree} (h : storedTree s = some t) :
    runGencode s = .ok () (flagsCoded (setCodes (codeTable t) s)) := by
  obtain ⟨h1, h2⟩ := (storedTree_iff s t).1 h
  rw [runGencode, walkCodes_eq h1 (by omega)]
  rfl

theorem codeTable_wf {s : State} {t : Tree} (h : storedTree s = some t) :
    memWf codeDefault Config.alphabetSize (codeTable t) = true :=
  memWf_foldl_recordLeaf _ ((storedTree_iff s t).1 h).1.sym_le _ (by simp) _ _

end Sys2Proof.Machine
end

