-- ==== Sys2Proof/Laws/Items.lean ====
section
/-! SUPPORT. A tree header as the list of its nodes (30_encoding R106): every bit string begins with a whole header or stops in one of
the four ways of 42_decoder R201. -/

set_option autoImplicit false

namespace Sys2Proof.Machine

/-- The nodes of a tree in the order of its header. -/
def Tree.items : Tree → List HeaderItem
  | .leaf sym _ => [.leaf sym]
  | .fork _ l r => .fork :: (l.items ++ r.items)

@[simp] theorem itemBits_nil : itemBits [] = [] := rfl
@[simp] theorem itemBits_cons (i : HeaderItem) (items : List HeaderItem) : itemBits (i :: items) = i.bits ++ itemBits items := rfl
@[simp] theorem itemBits_append (a b : List HeaderItem) : itemBits (a ++ b) = itemBits a ++ itemBits b := List.flatMap_append

@[simp] theorem Tree.itemBits_items (t : Tree) : itemBits t.items = t.header := by
  induction t with
  | leaf sym w => simp [Tree.items, HeaderItem.bits, Tree.header]
  | fork w l r ihl ihr => simp [Tree.items, HeaderItem.bits, Tree.header, ihl, ihr]

@[simp] theorem Tree.items_length (t : Tree) : t.items.length = t.size := by
  induction t with
  | leaf sym w => rfl
  | fork w l r ihl ihr => simp [Tree.items, Tree.size, ihl, ihr]

@[simp] theorem Tree.items_legal (t : Tree) : t.items.all HeaderItem.legal = t.symsOk := by
  induction t with
  | leaf sym w => simp [Tree.items, HeaderItem.legal, Tree.symsOk]
  | fork w l r ihl ihr => simp [Tree.items, HeaderItem.legal, Tree.symsOk, ihl, ihr]

/-- With `n` subtrees to read, these nodes complete them exactly. -/
def finishes : Nat → List HeaderItem → Bool
  | 0, []                   => true
  | 0, _ :: _               => false
  | _ + 1, []               => false
  | n + 1, .fork :: items   => finishes (n + 2) items
  | n + 1, .leaf _ :: items => finishes n items

theorem unfinished_tree (t : Tree) (n : Nat) (items : List HeaderItem) : unfinished (n + 1) (t.items ++ items) = unfinished n items := by
  induction t generalizing n items with
  | leaf sym w => simp [Tree.items, unfinished]
  | fork w l r ihl ihr => simp [Tree.items, unfinished, List.append_assoc, ihl, ihr]

theorem unfinished_mono {items : List HeaderItem} {n : Nat} (h : unfinished n items = true) : unfinished (n + 1) items = true := by
  induction items generalizing n with
  | nil => rfl
  | cons i items ih =>
    cases n with
    | zero => simp [unfinished] at h
    | succ n => cases i <;> (simp only [unfinished] at h ⊢; exact ih h)

/-- Nodes that complete some subtrees begin with the first of them. -/
theorem finishes_succ (k : Nat) (items : List HeaderItem) (hk : items.length ≤ k) (n : Nat) (h : finishes (n + 1) items = true) :
    ∃ (t : Tree) (rest : List HeaderItem), items = t.items ++ rest ∧ finishes n rest = true := by
  induction k generalizing items n with
  | zero => rw [List.length_eq_zero_iff.1 (Nat.le_zero.1 hk)] at h; simp [finishes] at h
  | succ k ih =>
    match items, h, hk with
    | [], h, _ => simp [finishes] at h
    | .leaf sym :: items, h, _ => exact ⟨.leaf sym 0, items, rfl, h⟩
    | .fork :: items, h, hk =>
      simp only [List.length_cons] at hk
      obtain ⟨l, rest, rfl, h1⟩ := ih items (by omega) (n + 1) h
      obtain ⟨r, rest2, rfl, h2⟩ := ih rest (by simp at hk; omega) n h1
      exact ⟨.fork 0 l r, rest2, by simp [Tree.items], h2⟩

/-- Nodes that leave some subtrees unfinished stop in the first of them, or complete it and stop in a later one. -/
theorem unfinished_succ (k : Nat) (items : List HeaderItem) (hk : items.length ≤ k) (n : Nat) (h : unfinished (n + 1) items = true) :
    unfinished 1 items = true ∨ ∃ (t : Tree) (rest : List HeaderItem), items = t.items ++ rest ∧ unfinished n rest = true := by
  induction k generalizing items n with
  | zero => rw [List.length_eq_zero_iff.1 (Nat.le_zero.1 hk)]; exact .inl rfl
  | succ k ih =>
    match items, h, hk with
    | [], _, _ => exact .inl rfl
    | .leaf sym :: items, h, _ => exact .inr ⟨.leaf sym 0, items, rfl, h⟩
    | .fork :: items, h, hk =>
      simp only [List.length_cons] at hk
      rcases ih items (by omega) (n + 1) h with h1 | ⟨l, rest, rfl, h1⟩
      · exact .inl (show unfinished 2 items = true from unfinished_mono h1)
      · rcases ih rest (by simp at hk; omega) n h1 with h2 | ⟨r, rest2, rfl, h2⟩
        · exact .inl ((unfinished_tree l 1 rest).trans h2)
        · exact .inr ⟨.fork 0 l r, rest2, by simp [Tree.items], h2⟩

/-- `header_cases` for `n` subtrees, with room for `room` more nodes. -/
theorem scan (room : Nat) (hroom : room ≤ Config.nodeCap) (n : Nat) (bits : List Bool) :
    (∃ items rest, bits = itemBits items ++ rest ∧ finishes n items = true ∧ items.all HeaderItem.legal = true ∧
      items.length ≤ room) ∨
    (∃ items tail, bits = itemBits items ++ tail ∧ unfinished n items = true ∧ items.all HeaderItem.legal = true ∧
      items.length ≤ room ∧ StopsAt (Config.nodeCap - room + items.length) tail) := by
  induction room generalizing n bits with
  | zero =>
    cases n with
    | zero => exact .inl ⟨[], bits, rfl, rfl, rfl, le_rfl⟩
    | succ n =>
      refine .inr ⟨[], bits, rfl, rfl, rfl, le_rfl, ?_⟩
      by_cases h : bits = []
      · exact .inl h
      · exact .inr (.inl ⟨rfl, h⟩)
  | succ room ih =>
    have hused : ∀ k, Config.nodeCap - (room + 1) + (k + 1) = Config.nodeCap - room + k := fun k => by omega
    match n, bits with
    | 0, bits => exact .inl ⟨[], bits, rfl, rfl, rfl, Nat.zero_le _⟩
    | n + 1, [] => exact .inr ⟨[], [], rfl, rfl, rfl, Nat.zero_le _, .inl rfl⟩
    | n + 1, false :: bits =>
      rcases ih (by omega) (n + 2) bits with ⟨items, rest, rfl, h1, h2, h3⟩ | ⟨items, tail, rfl, h1, h2, h3, h4⟩
      · exact .inl ⟨.fork :: items, rest, rfl, h1, by simpa [HeaderItem.legal] using h2, by simpa using h3⟩
      · exact .inr ⟨.fork :: items, tail, rfl, h1, by simpa [HeaderItem.legal] using h2, by simpa using h3,
          by rw [List.length_cons, hused]; exact h4⟩
    | n + 1, true :: bits =>
      by_cases hshort : bits.length < 9
      · exact .inr ⟨[], true :: bits, rfl, rfl, rfl, Nat.zero_le _,
          .inr (.inr (.inl ⟨by simp only [List.length_nil]; omega, bits, rfl, hshort⟩))⟩
      obtain ⟨v, rest, rfl⟩ : ∃ (v : Sym) (rest : List Bool), bits = bin 9 v ++ rest := by
        have h9 : (bits.take 9).length = 9 := by simp; omega
        have := bin_ofBits (bits.take 9)
        rw [h9] at this
        exact ⟨_, bits.drop 9, by rw [this, List.take_append_drop]⟩
      by_cases hv : v.toNat ≤ Config.pseudoEof
      · rcases ih (by omega) n rest with ⟨items, rest, rfl, h1, h2, h3⟩ | ⟨items, tail, rfl, h1, h2, h3, h4⟩
        · exact .inl ⟨.leaf v :: items, rest, by simp [HeaderItem.bits], h1, by simpa [HeaderItem.legal, hv] using h2, by simpa using h3⟩
        · exact .inr ⟨.leaf v :: items, tail, by simp [HeaderItem.bits], h1, by simpa [HeaderItem.legal, hv] using h2, by simpa using h3,
            by rw [List.length_cons, hused]; exact h4⟩
      · exact .inr ⟨[], true :: (bin 9 v ++ rest), rfl, rfl, rfl, Nat.zero_le _,
          .inr (.inr (.inr ⟨by simp only [List.length_nil]; omega, v, rest, rfl, by omega⟩))⟩

/-- Every bit string begins with a whole header READ_HEADER accepts, or stops it (R201). -/
theorem header_cases (bits : List Bool) :
    (∃ (t : Tree) (rest : List Bool), bits = t.header ++ rest ∧ t.symsOk = true ∧ t.size ≤ Config.nodeCap) ∨
    (∃ items tail, bits = itemBits items ++ tail ∧ unfinished 1 items = true ∧ items.all HeaderItem.legal = true ∧
      items.length ≤ Config.nodeCap ∧ StopsAt items.length tail) := by
  rcases scan Config.nodeCap le_rfl 1 bits with ⟨items, rest, rfl, h1, h2, h3⟩ | ⟨items, tail, h1, h2, h3, h4, h5⟩
  · obtain ⟨t, rest2, rfl, h4⟩ := finishes_succ _ items le_rfl 0 h1
    obtain rfl : rest2 = [] := by cases rest2 with
      | nil => rfl
      | cons => simp [finishes] at h4
    refine .inl ⟨t, rest, by simp, by simpa using h2, by simpa using h3⟩
  · exact .inr ⟨items, tail, h1, h2, h3, h4, by simpa using h5⟩

/-- A header that is cut off stops for want of a bit (R201). -/
theorem cut_header (t : Tree) (hs : t.symsOk = true) (bits : List Bool) (hp : bits <+: t.header) (hlt : bits.length < t.header.length) :
    ∃ items tail, bits = itemBits items ++ tail ∧ unfinished 1 items = true ∧ items.all HeaderItem.legal = true ∧
      items.length < t.size ∧ (tail = [] ∨ ∃ rest, tail = true :: rest ∧ rest.length < 9) := by
  induction t generalizing bits with
  | leaf sym w =>
    refine ⟨[], bits, rfl, rfl, rfl, by simp [Tree.size], ?_⟩
    cases bits with
    | nil => exact .inl rfl
    | cons b rest =>
      obtain rfl : b = true := (List.cons_prefix_cons.1 hp).1
      simp [Tree.header] at hlt
      exact .inr ⟨rest, rfl, by omega⟩
  | fork w l r ihl ihr =>
    simp only [Tree.symsOk, Bool.and_eq_true] at hs
    simp only [Tree.size]
    cases bits with
    | nil => exact ⟨[], [], rfl, rfl, rfl, by simp, .inl rfl⟩
    | cons b rest =>
      obtain ⟨rfl, hpre⟩ := List.cons_prefix_cons.1 hp
      simp only [Tree.header, List.length_cons, List.length_append] at hlt
      rcases Nat.lt_or_ge rest.length l.header.length with hcut | hge
      · obtain ⟨items, tail, rfl, h1, h2, h3, h4⟩ := ihl hs.1 rest
          (List.prefix_of_prefix_length_le hpre (List.prefix_append _ _) (by omega)) hcut
        exact ⟨.fork :: items, tail, by simp [HeaderItem.bits], show unfinished 2 items = true from unfinished_mono h1,
          by simpa [HeaderItem.legal] using h2, by simp; omega, h4⟩
      · obtain ⟨q, rfl⟩ := List.prefix_of_prefix_length_le (List.prefix_append l.header r.header) hpre hge
        rw [List.length_append] at hlt
        obtain ⟨items, tail, rfl, h1, h2, h3, h4⟩ := ihr hs.2 q ((List.prefix_append_right_inj _).1 hpre) (by omega)
        exact ⟨.fork :: (l.items ++ items), tail, by simp [HeaderItem.bits], (unfinished_tree l 1 items).trans h1,
          by rw [List.all_cons, List.all_append, l.items_legal, hs.1, h2]; rfl, by simp; omega, h4⟩

end Sys2Proof.Machine
end

