-- ==== Sys2Proof/Laws/Headers.lean ====
section
/-! SUPPORT. WRITE_HEADER (41_encoder R160, R161) and READ_HEADER (42_decoder R200 to R203): serializing and parsing mirror each other. -/

set_option autoImplicit false

namespace Sys2Proof.Machine

/-! ### WRITE_HEADER -/

/-- Bits of a tree header written: to OUT, and counted in OUT_BITS and HDR_BITS. -/
def headerWritten (bits : List Bool) (s : State) : State :=
  { s with out := s.out ++ bits, outBits := s.outBits + BitVec.ofNat 32 bits.length, hdrBits := s.hdrBits + BitVec.ofNat 32 bits.length }

theorem headerWritten_append (a b : List Bool) (s : State) :
    headerWritten b (headerWritten a s) = headerWritten (a ++ b) s := by
  simp [headerWritten, List.append_assoc, BitVec.add_assoc, BitVec.ofNat_add]

/-- `Ser` writes the header of the tree stored there (R106, R161). -/
theorem ser_eq {s : State} {i : NodeIx} {t : Tree} (h : Holds s i t) {d : Nat} (hd : t.depth < d) (s1 : State)
    (hn : s1.nodes = s.nodes) (hc : s1.nodeCount = s.nodeCount) :
    ser d i s1 = .ok () (headerWritten t.header s1) := by
  induction h generalizing d s1 with
  | leaf h =>
    cases d with
    | zero => omega
    | succ d =>
      rename_i sym w
      rw [ser, walkNode_congr hn hc, h]
      simp only [Tree.header, headerWritten, addHdrBits, outWrite]
      simp [BitVec.add_assoc]
  | @fork i l r w a b h ha hb iha ihb =>
    cases d with
    | zero => omega
    | succ d =>
      simp only [Tree.depth] at hd
      have e : addHdrBits 1 (outWrite 1 0 s1) = headerWritten [false] s1 := by
        simp [headerWritten, addHdrBits, outWrite, bin]
      rw [ser, walkNode_congr hn hc, h]
      simp only
      rw [e, iha (by omega) (headerWritten [false] s1) hn hc]
      simp only [Res.andThen]
      rw [ihb (by omega) (headerWritten a.header (headerWritten [false] s1)) hn hc, headerWritten_append, headerWritten_append]
      simp [Tree.header]

/-- WRITE_HEADER's pseudocode on a stored tree (R160). -/
theorem runWriteHeader_ok {s : State} {t : Tree} (h : storedTree s = some t) :
    runWriteHeader s =
      .ok () (flagsHeaderWritten (headerWritten t.header (outWrite 32 s.params.huffTag (hdrBitsZero s)))) := by
  obtain ⟨h1, h2⟩ := (storedTree_iff s t).1 h
  rw [runWriteHeader, ser_eq h1 (by omega) (outWrite 32 s.params.huffTag (hdrBitsZero s)) rfl rfl]
  rfl

/-! ### READ_HEADER -/

/-- The nodes of `t` stand in `ns` from index `n` on in pre-order, and every other index reads as in `ms` (R202; log 16). -/
def PlacedOver (ms ns : List (Nat × Node)) (t : Tree) (n : Nat) : Prop :=
  ∀ j, memGet nodeDefault ns j = if n ≤ j ∧ j < n + t.size then (t.preorder n).getD (j - n) nodeDefault else memGet nodeDefault ms j

theorem PlacedOver.placedAt {ms ns : List (Nat × Node)} {t : Tree} {n : Nat} (h : PlacedOver ms ns t n) : PlacedAt ns t n := by
  intro j hj
  rw [h, if_pos (by omega), Nat.add_sub_cancel_left]

/-- The fields READ_HEADER's parse writes. -/
def headerAt (ns : List (Nat × Node)) (c : BitVec 10) (h : Word) (p : Nat) (s : State) : State :=
  { s with nodes := ns, nodeCount := c, hdrBits := h, inPos := p }

/-- The state after a parsed tree header of `size` nodes and `len` bits. -/
def headerParsed (ns : List (Nat × Node)) (size len : Nat) (s : State) : State :=
  headerAt ns (s.nodeCount + BitVec.ofNat 10 size) (s.hdrBits + BitVec.ofNat 32 len) (s.inPos + len) s

theorem headerAt_leaf (i : NodeIx) (n m : Node) (s : State) :
    setNode i n (countHdrBits 9 (inMove (s.inPos + 1 + 9) (alloc m (countHdrBits 1 (inMove (s.inPos + 1) s))))) =
      headerAt (memSet nodeDefault (memSet nodeDefault s.nodes s.nodeCount.toNat m) i.toNat n) (s.nodeCount + 1)
        (s.hdrBits + 1 + 9) (s.inPos + 1 + 9) s := by cases s; rfl

theorem headerParsed_leaf (i : NodeIx) (n m : Node) (s : State) :
    setNode i n (countHdrBits 9 (inMove (s.inPos + 1 + 9) (alloc m (countHdrBits 1 (inMove (s.inPos + 1) s))))) =
      headerParsed (memSet nodeDefault (memSet nodeDefault s.nodes s.nodeCount.toNat m) i.toNat n) 1 10 s := by
  rw [headerAt_leaf, BitVec.add_assoc]; rfl

theorem headerAt_fork (i : NodeIx) (n m : Node) (ns1 ns2 : List (Nat × Node)) (k1 k2 h1 h2 : Nat) (s : State) :
    setNode i n (headerParsed ns2 k2 h2 (headerParsed ns1 k1 h1 (alloc m (countHdrBits 1 (inMove (s.inPos + 1) s))))) =
      headerAt (memSet nodeDefault ns2 i.toNat n) (s.nodeCount + 1 + BitVec.ofNat 10 k1 + BitVec.ofNat 10 k2)
        (s.hdrBits + 1 + BitVec.ofNat 32 h1 + BitVec.ofNat 32 h2) (s.inPos + 1 + h1 + h2) s := by cases s; rfl

theorem headerParsed_fork (i : NodeIx) (n m : Node) (ns1 ns2 : List (Nat × Node)) (k1 k2 h1 h2 : Nat) (s : State) :
    setNode i n (headerParsed ns2 k2 h2 (headerParsed ns1 k1 h1 (alloc m (countHdrBits 1 (inMove (s.inPos + 1) s))))) =
      headerParsed (memSet nodeDefault ns2 i.toNat n) (k1 + k2 + 1) (h1 + h2 + 1) s := by
  have e1 : s.nodeCount + 1 + BitVec.ofNat 10 k1 + BitVec.ofNat 10 k2 = s.nodeCount + BitVec.ofNat 10 (k1 + k2 + 1) := by
    rw [show k1 + k2 + 1 = 1 + k1 + k2 by omega, BitVec.ofNat_add, BitVec.ofNat_add]; simp [BitVec.add_assoc]
  have e2 : s.hdrBits + 1 + BitVec.ofNat 32 h1 + BitVec.ofNat 32 h2 = s.hdrBits + BitVec.ofNat 32 (h1 + h2 + 1) := by
    rw [show h1 + h2 + 1 = 1 + h1 + h2 by omega, BitVec.ofNat_add, BitVec.ofNat_add]; simp [BitVec.add_assoc]
  rw [headerAt_fork, e1, e2, show s.inPos + 1 + h1 + h2 = s.inPos + (h1 + h2 + 1) by omega]
  rfl

@[simp] theorem Tree.preorder_length (t : Tree) (n : Nat) : (t.preorder n).length = t.size := by
  induction t generalizing n with
  | leaf => rfl
  | fork w l r ihl ihr => simp [Tree.preorder, Tree.size, ihl, ihr]

theorem Tree.size_pos (t : Tree) : 0 < t.size := by cases t <;> simp [Tree.size]

/-- The kind bit of a header read, with room for the node. -/
theorem desNode_eq {s : State} {b : Bool} {rest : List Bool} (hu : unread s = b :: rest)
    (hn : s.nodeCount.toNat < Config.nodeCap) :
    desNode s = .ok (b, s.nodeCount) (alloc (.internal 0 0 0) (countHdrBits 1 (inMove (s.inPos + 1) s))) := by
  rw [desNode, inRead_of_unread (n := 1) (bs := [b]) (rest := rest) rfl (by omega) hu]
  simp only [countHdrBits_nodeCount, inMove_nodeCount]
  rw [if_neg (by omega)]
  cases b <;> rfl

theorem desNode_full {s : State} {b : Bool} {rest : List Bool} (hu : unread s = b :: rest)
    (hn : s.nodeCount.toNat = Config.nodeCap) :
    desNode s = raise .treeOverflow (BitVec.ofNat 32 Config.nodeCap) .readHeader (countHdrBits 1 (inMove (s.inPos + 1) s)) := by
  rw [desNode, inRead_of_unread (n := 1) (bs := [b]) (rest := rest) rfl (by omega) hu]
  simp only [countHdrBits_nodeCount, inMove_nodeCount]
  rw [if_pos hn]

theorem desNode_end {s : State} (hu : unread s = []) :
    desNode s = raise .truncatedStream s.hdrBits .readHeader s := by
  have h : 8 * s.inBytes.length - s.inPos = 0 := by rw [← unread_length, hu]; rfl
  rw [desNode, inRead_noData (by rw [hu]; simp), noData_at_end (by omega)]

/-- The symbol field of a leaf. -/
theorem desLeaf_eq {s : State} {i : NodeIx} {v : Sym} {rest : List Bool} (hu : unread s = bin 9 v ++ rest)
    (hv : v.toNat ≤ Config.pseudoEof) :
    desLeaf i s = .ok i (setNode i (.leaf v 0) (countHdrBits 9 (inMove (s.inPos + 9) s))) := by
  rw [desLeaf, inRead_of_unread (bin_length 9 v) (by omega) hu, ofNat_ofBits_bin]
  simp only
  rw [if_neg (by omega)]

theorem desLeaf_bad {s : State} {i : NodeIx} {v : Sym} {rest : List Bool} (hu : unread s = bin 9 v ++ rest)
    (hv : Config.pseudoEof < v.toNat) :
    desLeaf i s = raise .badSymbol (BitVec.setWidth 32 v) .readHeader (countHdrBits 9 (inMove (s.inPos + 9) s)) := by
  rw [desLeaf, inRead_of_unread (bin_length 9 v) (by omega) hu, ofNat_ofBits_bin]
  simp only
  rw [if_pos (by omega)]

theorem toNat_nodeCount_add {c : BitVec 10} {k : Nat} (h : c.toNat + k ≤ Config.nodeCap) :
    (c + BitVec.ofNat 10 k).toNat = c.toNat + k := by
  simp only [Config.nodeCap] at h
  rw [BitVec.toNat_add, BitVec.toNat_ofNat]; omega

theorem ofNat_toNat_add {c : BitVec 10} {k : Nat} : BitVec.ofNat 10 (c.toNat + k) = c + BitVec.ofNat 10 k := by
  rw [BitVec.ofNat_add]; simp

/-- `Des()` on a whole header, with room for its nodes: the tree is rebuilt in pre-order from `node_count` on (R201, R202). -/
theorem des_ok (t : Tree) (hs : t.symsOk = true) (s : State) (rest : List Bool) (hu : unread s = t.header ++ rest)
    (hn : s.nodeCount.toNat + t.size ≤ Config.nodeCap) (d : Nat) (hd : Config.nodeCap < d + s.nodeCount.toNat) :
    ∃ ns, des d s = .ok s.nodeCount (headerParsed ns t.size t.header.length s) ∧
      PlacedOver s.nodes ns t s.nodeCount.toNat ∧
      (memWf nodeDefault Config.nodeCap s.nodes = true → memWf nodeDefault Config.nodeCap ns = true) := by
  induction t generalizing s rest d with
  | leaf sym w =>
    simp only [Tree.size] at hn
    obtain ⟨d, rfl⟩ : ∃ d', d = d' + 1 := ⟨d - 1, by omega⟩
    have hu1 : unread (alloc (.internal 0 0 0) (countHdrBits 1 (inMove (s.inPos + 1) s))) = bin 9 sym ++ rest :=
      unread_after (bs := [true]) hu rfl rfl
    simp only [Tree.symsOk, decide_eq_true_eq] at hs
    refine ⟨memSet nodeDefault (memSet nodeDefault s.nodes s.nodeCount.toNat (.internal 0 0 0)) s.nodeCount.toNat (.leaf sym 0),
      ?_, ?_, ?_⟩
    · rw [des, desNode_eq hu (by omega)]
      simp only [Res.andThen, if_true]
      rw [desLeaf_eq hu1 hs]
      simp only [Tree.header, Tree.size, List.length_cons, bin_length]
      exact congrArg _ (headerParsed_leaf _ _ _ s)
    · intro j
      have hsz : (Tree.leaf sym w).size = 1 := rfl
      rw [memGet_memSet, memGet_memSet, hsz]
      by_cases hj : s.nodeCount.toNat = j
      · subst hj; simp [Tree.preorder]
      · rw [if_neg hj, if_neg hj, if_neg (by omega)]
    · intro h
      exact memWf_memSet _ (memWf_memSet _ h (by omega)) (by omega)
  | fork w l r ihl ihr =>
    simp only [Tree.size] at hn
    have hlp := l.size_pos
    have hrp := r.size_pos
    obtain ⟨d, rfl⟩ : ∃ d', d = d' + 1 := ⟨d - 1, by omega⟩
    simp only [Tree.symsOk, Bool.and_eq_true] at hs
    let s1 := alloc (.internal 0 0 0) (countHdrBits 1 (inMove (s.inPos + 1) s))
    have hc1 : s1.nodeCount.toNat = s.nodeCount.toNat + 1 := by
      show (s.nodeCount + BitVec.ofNat 10 1).toNat = _
      exact toNat_nodeCount_add (by omega)
    have hu1 : unread s1 = l.header ++ (r.header ++ rest) :=
      unread_after (show unread s = [false] ++ _ by rw [hu]; simp [Tree.header]) rfl rfl
    obtain ⟨ns1, hdes1, hp1, hw1⟩ := ihl hs.1 s1 _ hu1 (by omega) d (by omega)
    let s2 := headerParsed ns1 l.size l.header.length s1
    have hc2 : s2.nodeCount.toNat = s1.nodeCount.toNat + l.size := toNat_nodeCount_add (by omega)
    have hu2 : unread s2 = r.header ++ rest := unread_after hu1 rfl rfl
    obtain ⟨ns2, hdes2, hp2, hw2⟩ := ihr hs.2 s2 _ hu2 (by omega) d (by omega)
    refine ⟨memSet nodeDefault ns2 s.nodeCount.toNat (.internal 0 s1.nodeCount s2.nodeCount), ?_, ?_, ?_⟩
    · rw [des, desNode_eq (b := false) (by rw [hu]; rfl) (by omega)]
      simp only [Res.andThen]
      rw [if_neg (by simp), hdes1]
      simp only
      rw [hdes2]
      simp only
      simp only [Tree.header, Tree.size, List.length_cons, List.length_append]
      exact congrArg _ (headerParsed_fork _ _ _ ns1 ns2 _ _ _ _ s)
    · intro j
      have hs2 : memGet nodeDefault s2.nodes j = memGet nodeDefault ns1 j := rfl
      rw [memGet_memSet, hp2 j, hs2, hp1 j]
      rw [show (Tree.fork w l r).size = l.size + r.size + 1 from rfl, Tree.preorder]
      have e1 : BitVec.ofNat 10 (s.nodeCount.toNat + 1) = s1.nodeCount := by rw [ofNat_toNat_add]; rfl
      have e2 : BitVec.ofNat 10 (s.nodeCount.toNat + 1 + l.size) = s2.nodeCount := by rw [← hc1, ofNat_toNat_add]; rfl
      have hlen := l.preorder_length (s.nodeCount.toNat + 1)
      rw [e1, e2, hc2, hc1]
      have hs1 : memGet nodeDefault s1.nodes j = if s.nodeCount.toNat = j then Node.internal 0 0 0 else memGet nodeDefault s.nodes j :=
        memGet_memSet _ _ _ _ _
      by_cases hj0 : s.nodeCount.toNat = j
      · subst hj0
        rw [if_pos rfl, if_pos (by omega)]
        simp
      · rw [if_neg hj0]
        by_cases hj2 : s.nodeCount.toNat + 1 + l.size ≤ j ∧ j < s.nodeCount.toNat + 1 + l.size + r.size
        · rw [if_pos hj2, if_pos (by omega)]
          obtain ⟨k, rfl⟩ : ∃ k, j = s.nodeCount.toNat + 1 + l.size + k := ⟨j - (s.nodeCount.toNat + 1 + l.size), by omega⟩
          rw [show s.nodeCount.toNat + 1 + l.size + k - s.nodeCount.toNat = (l.size + k) + 1 by omega, List.getD_cons_succ,
            List.getD_append_right _ _ _ _ (by omega)]
          congr 1; omega
        · rw [if_neg hj2]
          by_cases hj1 : s.nodeCount.toNat + 1 ≤ j ∧ j < s.nodeCount.toNat + 1 + l.size
          · rw [if_pos hj1, if_pos (by omega)]
            obtain ⟨k, rfl⟩ : ∃ k, j = s.nodeCount.toNat + 1 + k := ⟨j - (s.nodeCount.toNat + 1), by omega⟩
            rw [show s.nodeCount.toNat + 1 + k - s.nodeCount.toNat = k + 1 by omega, List.getD_cons_succ,
              List.getD_append _ _ _ _ (by omega)]
            congr 1; omega
          · rw [if_neg hj1, if_neg (by omega), hs1, if_neg hj0]
    · intro h
      exact memWf_memSet _ (hw2 (hw1 (memWf_memSet _ h (by simp; omega)))) (by omega)

/-- A placed tree is held by any store that has those nodes allocated. -/
theorem holds_of_placed (t : Tree) (hs : t.symsOk = true) (n : Nat) (s : State) (hn : n + t.size ≤ s.nodeCount.toNat)
    (hc : s.nodeCount.toNat ≤ Config.nodeCap)
    (hp : ∀ j, j < t.size → memGet nodeDefault s.nodes (n + j) = (t.preorder n).getD j nodeDefault) :
    Holds s (BitVec.ofNat 10 n) t.shape := by
  have hcap : Config.nodeCap = 513 := rfl
  have hix : ∀ k, k < s.nodeCount.toNat → (BitVec.ofNat 10 k).toNat = k ∧ BitVec.ofNat 10 k < s.nodeCount := by
    intro k hk
    have : (BitVec.ofNat 10 k).toNat = k := by rw [BitVec.toNat_ofNat]; omega
    exact ⟨this, by rw [BitVec.lt_def, this]; exact hk⟩
  induction t generalizing n with
  | leaf sym w =>
    simp only [Tree.size] at hn hp
    obtain ⟨h1, h2⟩ := hix n (by omega)
    have h0 := hp 0 (by omega)
    simp [Tree.preorder] at h0
    simp only [Tree.symsOk, decide_eq_true_eq] at hs
    refine .leaf (walkNode_of h2 hc (by rw [nodeAt, h1, h0]; rfl) ?_)
    intro sym' w' h
    simp at h; rw [← h.1]; exact hs
  | fork w l r ihl ihr =>
    have hlp := l.size_pos
    have hrp := r.size_pos
    simp only [Tree.size] at hn hp
    simp only [Tree.symsOk, Bool.and_eq_true] at hs
    obtain ⟨h1, h2⟩ := hix n (by omega)
    have h0 := hp 0 (by omega)
    simp [Tree.preorder] at h0
    have hlen := l.preorder_length (n + 1)
    refine .fork (l := BitVec.ofNat 10 (n + 1)) (r := BitVec.ofNat 10 (n + 1 + l.size))
      (walkNode_of h2 hc (by rw [nodeAt, h1, h0]; rfl) (by simp)) ?_ ?_
    · have := ihl hs.1 (n + 1) (by omega) (by
        intro j hj
        have := hp (j + 1) (by omega)
        rw [Tree.preorder, List.getD_cons_succ, List.getD_append _ _ _ _ (by omega)] at this
        rw [← this]; congr 1; omega)
      exact this
    · have := ihr hs.2 (n + 1 + l.size) (by omega) (by
        intro j hj
        have := hp (l.size + j + 1) (by omega)
        rw [Tree.preorder, List.getD_cons_succ, List.getD_append_right _ _ _ _ (by omega), hlen,
          show l.size + j - l.size = j by omega] at this
        rw [← this]; congr 1; omega)
      exact this

/-! ### READ_HEADER's errors -/

/-- What is left of a state in which the parse of a header stopped: only the store, its count, HDR_BITS and the IN position (with the
counter of the free values) were touched, and the store kept its form. -/
def HeaderStopped (s s1 : State) : Prop :=
  ∃ ns c h p d, s1 = { headerAt ns c h p s with draws := d } ∧
    (memWf nodeDefault Config.nodeCap s.nodes = true → memWf nodeDefault Config.nodeCap ns = true) ∧
    (s.nodeCount.toNat ≤ Config.nodeCap → c.toNat ≤ Config.nodeCap) ∧
    (s.inPos ≤ 8 * s.inBytes.length → p ≤ 8 * s.inBytes.length)

theorem headerStopped_at {s : State} {ns : List (Nat × Node)} {c : BitVec 10} {h : Word} {p : Nat}
    (hw : memWf nodeDefault Config.nodeCap s.nodes = true → memWf nodeDefault Config.nodeCap ns = true)
    (hc : c.toNat ≤ Config.nodeCap) (hp : p ≤ 8 * s.inBytes.length) : HeaderStopped s (headerAt ns c h p s) :=
  ⟨ns, c, h, p, s.draws, by cases s; rfl, hw, fun _ => hc, fun _ => hp⟩

theorem headerStopped_noData {s s1 : State} (h : HeaderStopped s s1) : HeaderStopped s (noData s1) := by
  obtain ⟨ns, c, hb, p, d, rfl, a, b, e⟩ := h
  obtain ⟨q, d1, h1, _, hq⟩ := noData_cases { headerAt ns c hb p s with draws := d }
  exact ⟨ns, c, hb, q, d1, by rw [h1]; cases s; rfl, a, b, fun h => hq (e h)⟩

theorem inPos_le_of_unread {s : State} {bs rest : List Bool} (hu : unread s = bs ++ rest) (h : 0 < bs.length) :
    s.inPos + bs.length ≤ 8 * s.inBytes.length := by
  have := unread_length s
  rw [hu, List.length_append] at this
  omega

/-- The state after a node's kind bit and placeholder. -/
def nodeRead (s : State) : State := alloc (.internal 0 0 0) (countHdrBits 1 (inMove (s.inPos + 1) s))

theorem nodeRead_eq (s : State) :
    nodeRead s = headerParsed (memSet nodeDefault s.nodes s.nodeCount.toNat (.internal 0 0 0)) 1 1 s := by cases s; rfl

theorem nodeRead_nodeCount {s : State} (hn : s.nodeCount.toNat < Config.nodeCap) :
    (nodeRead s).nodeCount.toNat = s.nodeCount.toNat + 1 := by
  show (s.nodeCount + BitVec.ofNat 10 1).toNat = _
  exact toNat_nodeCount_add (by omega)

theorem unread_nodeRead {s : State} {b : Bool} {rest : List Bool} (hu : unread s = b :: rest) : unread (nodeRead s) = rest :=
  unread_after (show unread s = [b] ++ rest from hu) rfl rfl

theorem headerParsed_trans (ns1 ns2 : List (Nat × Node)) (k1 k2 h1 h2 : Nat) (s : State) :
    headerParsed ns2 k2 h2 (headerParsed ns1 k1 h1 s) = headerParsed ns2 (k1 + k2) (h1 + h2) s := by
  simp only [headerParsed, BitVec.ofNat_add, ← Nat.add_assoc, ← BitVec.add_assoc]
  cases s; rfl

/-- `Des()` at a leaf. -/
theorem des_leaf {s : State} {rest : List Bool} (hu : unread s = true :: rest) (hn : s.nodeCount.toNat < Config.nodeCap)
    (d : Nat) : des (d + 1) s = desLeaf s.nodeCount (nodeRead s) := by
  rw [des, desNode_eq hu hn]
  rfl

/-- `Des()` at an internal node. -/
theorem des_fork {s : State} {rest : List Bool} (hu : unread s = false :: rest) (hn : s.nodeCount.toNat < Config.nodeCap)
    (d : Nat) : des (d + 1) s =
      (des d (nodeRead s)).andThen fun l s2 => (des d s2).andThen fun r s3 =>
        .ok s.nodeCount (setNode s.nodeCount (.internal 0 l r) s3) := by
  rw [des, desNode_eq hu hn]
  rfl

theorem desLeaf_short {s : State} {i : NodeIx} (hu : (unread s).length < 9) :
    desLeaf i s = raise .truncatedStream (noData s).hdrBits .readHeader (noData s) := by
  rw [desLeaf, inRead_noData hu]

/-- Some nodes of an unfinished header bring `Des()` to the call for the next node, with room left for its depth: an error there is
the error of the whole (R201). -/
theorem des_reaches (k : Nat) (items : List HeaderItem) (hk : items.length ≤ k) (ho : unfinished 1 items = true)
    (hl : items.all HeaderItem.legal = true) (s : State) (tail : List Bool) (hu : unread s = itemBits items ++ tail)
    (hn : s.nodeCount.toNat + items.length ≤ Config.nodeCap) (d : Nat) (hd : Config.nodeCap < d + s.nodeCount.toNat) :
    ∃ ns d1, Config.nodeCap < d1 + (s.nodeCount.toNat + items.length) ∧
      (memWf nodeDefault Config.nodeCap s.nodes = true → memWf nodeDefault Config.nodeCap ns = true) ∧
      ∀ e info step s1, des d1 (headerParsed ns items.length (itemBits items).length s) = .raised e info step s1 →
        des d s = .raised e info step s1 := by
  induction k generalizing items s d with
  | zero =>
    obtain rfl := List.length_eq_zero_iff.1 (Nat.le_zero.1 hk)
    exact ⟨s.nodes, d, hd, id, fun e info step s1 h => by
      rwa [show headerParsed s.nodes ([] : List HeaderItem).length (itemBits []).length s = s by cases s; simp [headerParsed, headerAt]] at h⟩
  | succ k ih =>
    match items, ho, hl, hk, hu, hn with
    | [], _, _, _, hu, hn =>
      exact ⟨s.nodes, d, hd, id, fun e info step s1 h => by
        rwa [show headerParsed s.nodes ([] : List HeaderItem).length (itemBits []).length s = s by
          cases s; simp [headerParsed, headerAt]] at h⟩
    | .leaf _ :: _, ho, _, _, _, _ => simp [unfinished] at ho
    | .fork :: items, ho, hl, hk, hu, hn =>
      simp only [List.length_cons] at hk hn
      have hl : items.all HeaderItem.legal = true := by simpa [HeaderItem.legal] using hl
      have hlt : s.nodeCount.toNat < Config.nodeCap := by omega
      obtain ⟨d, rfl⟩ : ∃ d', d = d' + 1 := ⟨d - 1, by omega⟩
      have hu0 : unread s = false :: (itemBits items ++ tail) := hu
      have hu1 := unread_nodeRead hu0
      have hn1 := nodeRead_nodeCount hlt
      have hw0 : memWf nodeDefault Config.nodeCap s.nodes = true → memWf nodeDefault Config.nodeCap (nodeRead s).nodes = true :=
        fun h => memWf_memSet _ h hlt
      rcases unfinished_succ _ items le_rfl 1 ho with h1 | ⟨l, rest, rfl, h1⟩
      · obtain ⟨ns, d1, a, b, c⟩ := ih items (by omega) h1 hl (nodeRead s) hu1 (by omega) d (by omega)
        refine ⟨ns, d1, by simp only [List.length_cons]; omega, fun h => b (hw0 h), fun e info step s1 h => ?_⟩
        have : des d (nodeRead s) = .raised e info step s1 := by
          apply c
          rw [nodeRead_eq, headerParsed_trans, ← h]
          simp only [List.length_cons, itemBits_cons, List.length_append, HeaderItem.bits, List.length_nil, Nat.zero_add]
          rw [Nat.add_comm 1, Nat.add_comm 1]
        rw [des_fork hu0 hlt, this]
        rfl
      · rw [List.all_append, Bool.and_eq_true, l.items_legal] at hl
        simp only [List.length_append, l.items_length] at hk hn
        have hlp := l.size_pos
        have hul : unread (nodeRead s) = l.header ++ (itemBits rest ++ tail) := by
          rw [hu1, itemBits_append, l.itemBits_items, List.append_assoc]
        obtain ⟨ns1, hdes1, _, hw1⟩ := des_ok l hl.1 (nodeRead s) _ hul (by omega) d (by omega)
        have hn2 : (headerParsed ns1 l.size l.header.length (nodeRead s)).nodeCount.toNat = (nodeRead s).nodeCount.toNat + l.size :=
          toNat_nodeCount_add (by omega)
        obtain ⟨ns, d1, a, b, c⟩ := ih rest (by omega) h1 hl.2 (headerParsed ns1 l.size l.header.length (nodeRead s))
          (unread_after hul rfl rfl) (by omega) d (by omega)
        refine ⟨ns, d1, by simp only [List.length_cons, List.length_append, l.items_length]; omega,
          fun h => b (hw1 (hw0 h)), fun e info step s1 h => ?_⟩
        have : des d (headerParsed ns1 l.size l.header.length (nodeRead s)) = .raised e info step s1 := by
          apply c
          rw [nodeRead_eq, headerParsed_trans, headerParsed_trans, ← h]
          simp only [List.length_cons, itemBits_cons, itemBits_append, List.length_append, HeaderItem.bits, List.length_nil,
            l.items_length, l.itemBits_items]
          rw [Nat.add_comm 1, Nat.zero_add]
        rw [des_fork hu0 hlt, hdes1]
        simp only [Res.andThen]
        rw [this]

/-! ### READ_HEADER as a whole (R200) -/

/-- The state READ_HEADER leaves on a whole header (R200). -/
def headerLoaded (ns : List (Nat × Node)) (t : Tree) (s : State) : State :=
  flagsHeaderRead (setRoot 0 (headerAt ns (BitVec.ofNat 10 t.size) (BitVec.ofNat 32 t.header.length)
    (s.inPos + 32 + t.header.length) s))

theorem headerLoaded_eq (ns : List (Nat × Node)) (size len : Nat) (s : State) :
    flagsHeaderRead (setRoot 0 (headerParsed ns size len (inMove (s.inPos + 32) (headerStart s)))) =
      flagsHeaderRead (setRoot 0 (headerAt ns (0 + BitVec.ofNat 10 size) (0 + BitVec.ofNat 32 len) (s.inPos + 32 + len) s)) := by
  cases s; rfl

theorem tag_read {s : State} {v : Word} {rest : List Bool} (hu : unread s = bin 32 v ++ rest) :
    inRead 32 (headerStart s) = (some v, inMove (s.inPos + 32) (headerStart s)) := by
  rw [inRead_of_unread (bin_length 32 v) (by omega) (show unread (headerStart s) = _ from hu), ofNat_ofBits_bin]
  rfl

theorem unread_tag {s : State} {v : Word} {rest : List Bool} (hu : unread s = bin 32 v ++ rest) :
    unread (inMove (s.inPos + 32) (headerStart s)) = rest :=
  unread_after hu rfl (by simp)

/-- Fewer than 32 bits left (R200). -/
theorem runReadHeader_short {s : State} (hu : (unread s).length < 32) :
    runReadHeader s = raise .malformedHeader 0 .readHeader (noData (headerStart s)) := by
  rw [runReadHeader, inRead_noData (s := headerStart s) hu]

/-- Another tag (R200). -/
theorem runReadHeader_tag {s : State} {v : Word} {rest : List Bool} (hu : unread s = bin 32 v ++ rest)
    (hv : v ≠ s.params.huffTag) :
    runReadHeader s = raise .malformedHeader v .readHeader (inMove (s.inPos + 32) (headerStart s)) := by
  rw [runReadHeader, tag_read hu]
  simp only
  exact if_neg (show ¬ v = s.params.huffTag from hv)

theorem runReadHeader_tree {s : State} {rest : List Bool} (hu : unread s = bin 32 s.params.huffTag ++ rest) :
    runReadHeader s = (des (Config.nodeCap + 1) (inMove (s.inPos + 32) (headerStart s))).andThen fun root s2 =>
      .ok () (flagsHeaderRead (setRoot root s2)) := by
  rw [runReadHeader, tag_read hu]
  simp only
  exact if_pos (show s.params.huffTag = s.params.huffTag from rfl)

/-- A whole header (R200 to R202). -/
theorem runReadHeader_ok {s : State} {t : Tree} {rest : List Bool}
    (hu : unread s = bin 32 s.params.huffTag ++ (t.header ++ rest)) (hs : t.symsOk = true) (hn : t.size ≤ Config.nodeCap) :
    ∃ ns, runReadHeader s = .ok () (headerLoaded ns t s) ∧ PlacedOver s.nodes ns t 0 ∧
      (memWf nodeDefault Config.nodeCap s.nodes = true → memWf nodeDefault Config.nodeCap ns = true) ∧
      storedTree (headerLoaded ns t s) = some t.shape := by
  have hcap : Config.nodeCap = 513 := rfl
  obtain ⟨ns, h1, h2, h3⟩ := des_ok t hs (inMove (s.inPos + 32) (headerStart s)) rest (unread_tag hu) (by simpa using hn)
    (Config.nodeCap + 1) (by omega)
  refine ⟨ns, ?_, h2, h3, ?_⟩
  · rw [runReadHeader_tree hu, h1]
    simp only [Res.andThen]
    refine (congrArg (Res.ok ()) (headerLoaded_eq ns t.size t.header.length s)).trans ?_
    rw [show (0 : BitVec 10) + BitVec.ofNat 10 t.size = BitVec.ofNat 10 t.size from BitVec.zero_add _,
      show (0 : Word) + BitVec.ofNat 32 t.header.length = BitVec.ofNat 32 t.header.length from BitVec.zero_add _]
    rfl
  · have hc : (headerLoaded ns t s).nodeCount.toNat = t.size := by
      show (BitVec.ofNat 10 t.size).toNat = _
      rw [BitVec.toNat_ofNat]; omega
    have hsz := t.size_eq
    have hdl := t.depth_lt_leaves
    refine (storedTree_iff _ _).2 ⟨holds_of_placed t hs 0 _ (by omega) (by omega) ?_, ?_⟩
    · intro j hj
      have := h2 (0 + j)
      rw [if_pos (by constructor; exact Nat.zero_le _; simpa using hj)] at this
      rw [show (headerLoaded ns t s).nodes = ns from rfl, this]
      simp
    · simp [Config.maxCodeLen]; omega

/-- What READ_HEADER has done when it comes to the next node of an unfinished header: an error of `Des()` there is READ_HEADER's. -/
theorem runReadHeader_reaches {s : State} {items : List HeaderItem} {tail : List Bool}
    (hu : unread s = bin 32 s.params.huffTag ++ (itemBits items ++ tail)) (ho : unfinished 1 items = true)
    (hl : items.all HeaderItem.legal = true) (hn : items.length ≤ Config.nodeCap) :
    ∃ ns d s1,
      s1 = headerAt ns (BitVec.ofNat 10 items.length) (BitVec.ofNat 32 (itemBits items).length)
        (s.inPos + 32 + (itemBits items).length) s ∧
      (memWf nodeDefault Config.nodeCap s.nodes = true → memWf nodeDefault Config.nodeCap ns = true) ∧
      unread s1 = tail ∧ s1.nodeCount.toNat = items.length ∧ HeaderStopped s s1 ∧
      (items.length ≤ Config.nodeCap → ∀ e info step s2, des (d + 1) s1 = .raised e info step s2 →
        runReadHeader s = .raised e info step s2) := by
  have hcap : Config.nodeCap = 513 := rfl
  obtain ⟨ns, d1, a, b, c⟩ := des_reaches _ items le_rfl ho hl (inMove (s.inPos + 32) (headerStart s)) tail (unread_tag hu)
    (by simpa using hn) (Config.nodeCap + 1) (by simp)
  obtain ⟨d, rfl⟩ : ∃ d, d1 = d + 1 := ⟨d1 - 1, by simp at a; omega⟩
  have he : headerParsed ns items.length (itemBits items).length (inMove (s.inPos + 32) (headerStart s)) =
      headerAt ns (BitVec.ofNat 10 items.length) (BitVec.ofNat 32 (itemBits items).length)
        (s.inPos + 32 + (itemBits items).length) s := by
    refine Eq.trans (b := headerAt ns (0 + BitVec.ofNat 10 items.length) (0 + BitVec.ofNat 32 (itemBits items).length)
      (s.inPos + 32 + (itemBits items).length) s) (by cases s; rfl) ?_
    rw [show (0 : BitVec 10) + BitVec.ofNat 10 items.length = _ from BitVec.zero_add _,
      show (0 : Word) + BitVec.ofNat 32 (itemBits items).length = _ from BitVec.zero_add _]
  have hc : (BitVec.ofNat 10 items.length).toNat = items.length := by rw [BitVec.toNat_ofNat]; omega
  have hle := inPos_le_of_unread (s := s) (bs := bin 32 s.params.huffTag ++ itemBits items) (rest := tail) (by rw [hu, List.append_assoc])
    (by simp)
  rw [List.length_append, bin_length] at hle
  refine ⟨ns, d, _, rfl, b, ?_, hc, ?_, fun _ e info step s2 h => ?_⟩
  · exact unread_after (s := s) (bs := bin 32 s.params.huffTag ++ itemBits items) (by rw [hu, List.append_assoc]) rfl
      (by rw [List.length_append, bin_length]; exact Nat.add_assoc _ _ _)
  · exact headerStopped_at b (by rw [hc]; exact hn) (by omega)
  · rw [runReadHeader_tree hu, c e info step s2 (by rw [he]; exact h)]
    rfl

/-- Bits read and counted. -/
theorem headerAt_read (ns : List (Nat × Node)) (c : BitVec 10) (h w : Word) (p n : Nat) (s : State) :
    countHdrBits w (inMove ((headerAt ns c h p s).inPos + n) (headerAt ns c h p s)) = headerAt ns c (h + w) (p + n) s := by
  cases s; rfl

/-- No bit left for the next node's kind (R201). -/
theorem runReadHeader_noKind {s : State} {items : List HeaderItem} {tail : List Bool}
    (hu : unread s = bin 32 s.params.huffTag ++ (itemBits items ++ tail)) (ho : unfinished 1 items = true)
    (hl : items.all HeaderItem.legal = true) (hn : items.length ≤ Config.nodeCap) (ht : tail = []) :
    ∃ ns s1, s1 = headerAt ns (BitVec.ofNat 10 items.length) (BitVec.ofNat 32 (itemBits items).length)
        (s.inPos + 32 + (itemBits items).length) s ∧
      runReadHeader s = raise .truncatedStream s1.hdrBits .readHeader s1 ∧ HeaderStopped s s1 := by
  obtain ⟨ns, d, s1, h1, _, h3, _, h5, h6⟩ := runReadHeader_reaches hu ho hl hn
  exact ⟨ns, s1, h1, h6 hn _ _ _ _ (by rw [des, desNode_end (h3.trans ht)]; rfl), h5⟩

/-- No room for the next node (R201). -/
theorem runReadHeader_noRoom {s : State} {items : List HeaderItem} {tail : List Bool}
    (hu : unread s = bin 32 s.params.huffTag ++ (itemBits items ++ tail)) (ho : unfinished 1 items = true)
    (hl : items.all HeaderItem.legal = true) (hn : items.length = Config.nodeCap) (ht : tail ≠ []) :
    ∃ ns s1, s1 = headerAt ns (BitVec.ofNat 10 items.length) (BitVec.ofNat 32 ((itemBits items).length + 1))
        (s.inPos + 32 + (itemBits items).length + 1) s ∧
      runReadHeader s = raise .treeOverflow (BitVec.ofNat 32 Config.nodeCap) .readHeader s1 ∧ HeaderStopped s s1 := by
  obtain ⟨ns, d, s1, h1, h2, h3, h4, _, h6⟩ := runReadHeader_reaches hu ho hl hn.le
  cases tail with
  | nil => exact absurd rfl ht
  | cons b rest =>
    have hle := inPos_le_of_unread (bs := [b]) h3 (by simp)
    have e : countHdrBits 1 (inMove (s1.inPos + 1) s1) = headerAt ns (BitVec.ofNat 10 items.length)
        (BitVec.ofNat 32 ((itemBits items).length + 1)) (s.inPos + 32 + (itemBits items).length + 1) s := by
      rw [h1, headerAt_read, BitVec.ofNat_add]; rfl
    refine ⟨ns, _, e, h6 hn.le _ _ _ _ (by rw [des, desNode_full h3 (h4.trans hn)]; rfl), ?_⟩
    rw [e]
    rw [h1] at hle
    exact headerStopped_at h2 (by rw [BitVec.toNat_ofNat, hn]; exact Nat.mod_le _ _) hle

/-- The state after the kind bit and the placeholder of a leaf (R201). -/
theorem nodeRead_headerAt {ns : List (Nat × Node)} {k h p : Nat} (s : State) (hk : k < Config.nodeCap) :
    ∃ ns1, nodeRead (headerAt ns (BitVec.ofNat 10 k) (BitVec.ofNat 32 h) p s) =
        headerAt ns1 (BitVec.ofNat 10 (k + 1)) (BitVec.ofNat 32 (h + 1)) (p + 1) s ∧
      (memWf nodeDefault Config.nodeCap ns = true → memWf nodeDefault Config.nodeCap ns1 = true) := by
  have hcap : Config.nodeCap = 513 := rfl
  refine ⟨memSet nodeDefault ns (BitVec.ofNat 10 k).toNat (.internal 0 0 0), ?_, fun h => memWf_memSet _ h ?_⟩
  · rw [BitVec.ofNat_add, BitVec.ofNat_add]; cases s; rfl
  · rw [BitVec.toNat_ofNat]; omega

/-- A symbol field that breaks off (R201). -/
theorem runReadHeader_noSymbol {s : State} {items : List HeaderItem} {rest : List Bool}
    (hu : unread s = bin 32 s.params.huffTag ++ (itemBits items ++ true :: rest)) (ho : unfinished 1 items = true)
    (hl : items.all HeaderItem.legal = true) (hn : items.length < Config.nodeCap) (ht : rest.length < 9) :
    ∃ ns s1, s1 = headerAt ns (BitVec.ofNat 10 (items.length + 1)) (BitVec.ofNat 32 ((itemBits items).length + 1))
        (s.inPos + 32 + (itemBits items).length + 1) s ∧
      s.inPos + 32 + (itemBits items).length + 1 ≤ 8 * s.inBytes.length ∧
      runReadHeader s = raise .truncatedStream (noData s1).hdrBits .readHeader (noData s1) ∧ HeaderStopped s (noData s1) := by
  have hcap : Config.nodeCap = 513 := rfl
  obtain ⟨ns, d, s1, h1, h2, h3, h4, _, h6⟩ := runReadHeader_reaches hu ho hl hn.le
  obtain ⟨ns1, e, hw⟩ := nodeRead_headerAt (ns := ns) (h := (itemBits items).length) (p := s.inPos + 32 + (itemBits items).length) s hn
  have hle := inPos_le_of_unread (bs := [true]) h3 (by simp)
  rw [← h1] at e
  rw [h1] at hle
  refine ⟨ns1, nodeRead s1, e, hle, h6 hn.le _ _ _ _
    (by rw [des_leaf h3 (by omega), desLeaf_short (by rw [unread_nodeRead h3]; exact ht)]; rfl), headerStopped_noData ?_⟩
  rw [e]
  exact headerStopped_at (fun h => hw (h2 h)) (by rw [BitVec.toNat_ofNat]; omega) hle

/-- A symbol field above 256 (R201). -/
theorem runReadHeader_badSymbol {s : State} {items : List HeaderItem} {v : Sym} {rest : List Bool}
    (hu : unread s = bin 32 s.params.huffTag ++ (itemBits items ++ true :: (bin 9 v ++ rest))) (ho : unfinished 1 items = true)
    (hl : items.all HeaderItem.legal = true) (hn : items.length < Config.nodeCap) (hv : Config.pseudoEof < v.toNat) :
    ∃ ns s1, s1 = headerAt ns (BitVec.ofNat 10 (items.length + 1)) (BitVec.ofNat 32 ((itemBits items).length + 10))
        (s.inPos + 32 + (itemBits items).length + 10) s ∧
      runReadHeader s = raise .badSymbol (BitVec.setWidth 32 v) .readHeader s1 ∧ HeaderStopped s s1 := by
  have hcap : Config.nodeCap = 513 := rfl
  obtain ⟨ns, d, s1, h1, h2, h3, h4, _, h6⟩ := runReadHeader_reaches hu ho hl hn.le
  obtain ⟨ns1, e, hw⟩ := nodeRead_headerAt (ns := ns) (h := (itemBits items).length) (p := s.inPos + 32 + (itemBits items).length) s hn
  have hle := inPos_le_of_unread (bs := true :: bin 9 v) h3 (by simp)
  rw [← h1] at e
  rw [List.length_cons, bin_length, h1] at hle
  have e2 : countHdrBits 9 (inMove ((nodeRead s1).inPos + 9) (nodeRead s1)) =
      headerAt ns1 (BitVec.ofNat 10 (items.length + 1)) (BitVec.ofNat 32 ((itemBits items).length + 10))
        (s.inPos + 32 + (itemBits items).length + 10) s := by
    rw [e, headerAt_read, show (itemBits items).length + 10 = (itemBits items).length + 1 + 9 by omega, BitVec.ofNat_add _ 9]; rfl
  refine ⟨ns1, _, e2, h6 hn.le _ _ _ _ (by rw [des_leaf h3 (by omega), desLeaf_bad (unread_nodeRead h3) hv]; rfl), ?_⟩
  rw [e2]
  exact headerStopped_at (fun h => hw (h2 h)) (by rw [BitVec.toNat_ofNat]; omega) hle

/-- Everything READ_HEADER can do: load a whole header, or raise an error with only the store, its count, HDR_BITS and IN touched;
MALFORMED_HEADER, or one of the stops of R201. -/
theorem runReadHeader_cases (s : State) :
    (∃ (t : Tree) (rest : List Bool), unread s = bin 32 s.params.huffTag ++ (t.header ++ rest) ∧ t.symsOk = true ∧
        t.size ≤ Config.nodeCap) ∨
    (∃ e info s1, runReadHeader s = raise e info .readHeader s1 ∧ e.isExecution = true ∧ HeaderStopped s s1 ∧
      (e = .malformedHeader ∨ ∃ items tail, unread s = bin 32 s.params.huffTag ++ (itemBits items ++ tail) ∧
        unfinished 1 items = true ∧ items.all HeaderItem.legal = true ∧ items.length ≤ Config.nodeCap ∧
        StopsAt items.length tail)) := by
  have hst : HeaderStopped s (headerStart s) :=
    ⟨s.nodes, 0, 0, s.inPos, s.draws, by cases s; rfl, id, fun _ => by simp, id⟩
  by_cases hl : (unread s).length < 32
  · exact .inr ⟨_, _, _, runReadHeader_short hl, rfl, headerStopped_noData hst, .inl rfl⟩
  obtain ⟨v, hv⟩ : ∃ v : Word, bin 32 v = (unread s).take 32 := by
    have h32 : ((unread s).take 32).length = 32 := by simp; omega
    refine ⟨BitVec.ofNat 32 (ofBits 0 ((unread s).take 32)), ?_⟩
    have := bin_ofBits ((unread s).take 32)
    rw [h32] at this
    exact this
  have hu : unread s = bin 32 v ++ (unread s).drop 32 := by rw [hv, List.take_append_drop]
  have hle := inPos_le_of_unread hu (by simp)
  rw [bin_length] at hle
  by_cases ht : v = s.params.huffTag
  · subst ht
    rcases header_cases ((unread s).drop 32) with ⟨t, rest, h1, h2, h3⟩ | ⟨items, tail, h1, h2, h3, h4, h5⟩
    · rw [h1] at hu
      exact .inl ⟨t, rest, hu, h2, h3⟩
    · rw [h1] at hu
      have hstop : ∃ items tail, unread s = bin 32 s.params.huffTag ++ (itemBits items ++ tail) ∧ unfinished 1 items = true ∧
          items.all HeaderItem.legal = true ∧ items.length ≤ Config.nodeCap ∧ StopsAt items.length tail :=
        ⟨items, tail, hu, h2, h3, h4, h5⟩
      right
      rcases h5 with h5 | ⟨h5, h6⟩ | ⟨h5, rest, rfl, h6⟩ | ⟨h5, v, rest, rfl, h6⟩
      · obtain ⟨_, s1, _, h7, h8⟩ := runReadHeader_noKind hu h2 h3 h4 h5
        exact ⟨_, _, s1, h7, rfl, h8, .inr hstop⟩
      · obtain ⟨_, s1, _, h7, h8⟩ := runReadHeader_noRoom hu h2 h3 h5 h6
        exact ⟨_, _, s1, h7, rfl, h8, .inr hstop⟩
      · obtain ⟨_, s1, _, _, h7, h8⟩ := runReadHeader_noSymbol hu h2 h3 h5 h6
        exact ⟨_, _, _, h7, rfl, h8, .inr hstop⟩
      · obtain ⟨_, s1, _, h7, h8⟩ := runReadHeader_badSymbol hu h2 h3 h5 h6
        exact ⟨_, _, s1, h7, rfl, h8, .inr hstop⟩
  · exact .inr ⟨_, _, _, runReadHeader_tag hu ht, rfl,
      ⟨s.nodes, 0, 0, s.inPos + 32, s.draws, by cases s; rfl, id, fun _ => by simp, fun _ => hle⟩, .inl rfl⟩

/-- A header that is cut off after the tag (R201). -/
theorem runReadHeader_truncated {s : State} {t : Tree} {rest : List Bool}
    (hu : unread s = bin 32 s.params.huffTag ++ rest) (hp : rest <+: t.header) (hlt : rest.length < t.header.length)
    (hs : t.symsOk = true) (hn : t.size ≤ Config.nodeCap) :
    ∃ s1, runReadHeader s = raise .truncatedStream s1.hdrBits .readHeader s1 := by
  obtain ⟨items, tail, rfl, h1, h2, h3, h4 | ⟨rest, rfl, h4⟩⟩ := cut_header t hs rest hp hlt
  · obtain ⟨_, s1, _, h5, _⟩ := runReadHeader_noKind hu h1 h2 (by omega) h4
    exact ⟨s1, h5⟩
  · obtain ⟨_, s1, _, _, h5, _⟩ := runReadHeader_noSymbol hu h1 h2 (by omega) h4
    exact ⟨_, h5⟩

end Sys2Proof.Machine
end

