-- ==== Sys2Proof/Laws/Compress.lean ====
section
/-! SUPPORT. The code table of a built tree (41_encoder R158, R159), and the two macros COMPRESS (R167) and DECOMPRESS (42_decoder R207),
up to the round trip (R208) and truncation (R209). -/

set_option autoImplicit false

namespace Sys2Proof.Machine

/-! ### The code table of a built tree -/

theorem ofNat9_toNat {k : Nat} (hk : k < Config.alphabetSize) : (BitVec.ofNat 9 k).toNat = k := by
  simp only [Config.alphabetSize] at hk
  rw [BitVec.toNat_ofNat]; omega

theorem node_mem_codes {t : Tree} {sym : Sym} {w : Word} (h : Node.leaf sym w ∈ t.leaves) :
    ∃ c ∈ t.codes, c.sym = sym ∧ c.weight = w := by
  rw [← t.codes_map_node, List.mem_map] at h
  obtain ⟨c, hc, he⟩ := h
  injection he with h1 h2
  exact ⟨c, hc, h1, h2⟩

theorem codes_mem_node {t : Tree} {c : LeafCode} (h : c ∈ t.codes) : Node.leaf c.sym c.weight ∈ t.leaves := by
  rw [← t.codes_map_node]
  exact List.mem_map_of_mem (f := fun c : LeafCode => Node.leaf c.sym c.weight) h

theorem builtFor_mem {s : State} {t : Tree} (h : BuiltFor s t) {k : Nat} (hk : k < Config.alphabetSize) (hf : freqAt s k ≠ 0) :
    ∃ c ∈ t.codes, c.sym = BitVec.ofNat 9 k ∧ c.weight = freqAt s k := by
  have hm : Node.leaf (BitVec.ofNat 9 k) (freqAt s k) ∈ buildLeaves s := by
    rw [buildLeaves_eq, countedLeaves, List.mem_map]
    exact ⟨k, by rw [countedSyms, List.mem_filter, List.mem_range, decide_eq_true_eq]; exact ⟨hk, hf⟩, rfl⟩
  exact node_mem_codes (List.mem_filter.1 (h.2.2.1.mem_iff.2 (by rw [← buildLeaves_eq]; exact hm))).1

theorem builtFor_weight {s : State} {t : Tree} (h : BuiltFor s t) {c : LeafCode} (hc : c ∈ t.codes) (hw : c.weight ≠ 0) :
    ∃ k, k < Config.alphabetSize ∧ c.sym = BitVec.ofNat 9 k ∧ c.weight = freqAt s k ∧ freqAt s k ≠ 0 := by
  have hm : Node.leaf c.sym c.weight ∈ t.leaves.filter fun n => n.weight ≠ 0 := by
    rw [List.mem_filter, decide_eq_true_eq]; exact ⟨codes_mem_node hc, hw⟩
  obtain ⟨k, hk, hf, he⟩ := mem_buildLeaves (by rw [buildLeaves_eq]; exact h.2.2.1.mem_iff.1 hm)
  injection he with h1 h2
  exact ⟨k, hk, h1, h2, hf⟩

/-- A symbol with a nonzero count gets the path of its leaf as its code (R110, R158). -/
theorem codeTable_counted {s : State} {t : Tree} (h : BuiltFor s t) {k : Nat} (hk : k < Config.alphabetSize) (hf : freqAt s k ≠ 0) :
    ∃ c ∈ t.codes, c.sym = BitVec.ofNat 9 k ∧ c.weight = freqAt s k ∧ memGet codeDefault (codeTable t) k = entryOf c.path := by
  obtain ⟨c, hc, h1, h2⟩ := builtFor_mem h hk hf
  refine ⟨c, hc, h1, h2, ?_⟩
  have := codeTable_mem t h.2.1 c hc (by rw [h2]; exact hf)
  rwa [h1, ofNat9_toNat hk] at this

/-- No other symbol gets a code (R158). -/
theorem codeTable_uncounted {s : State} {t : Tree} (h : BuiltFor s t) {k : Nat} (hf : freqAt s k = 0) :
    memGet codeDefault (codeTable t) k = codeDefault := by
  refine codeTable_not_mem t k fun c hc hw he => ?_
  obtain ⟨j, hj, h1, _, h3⟩ := builtFor_weight h hc hw
  rw [h1, ofNat9_toNat hj] at he
  rw [he] at h3
  exact h3 hf

theorem buildLeaves_length (s : State) : (buildLeaves s).length = (countedSyms s).length := by
  rw [buildLeaves_eq, countedLeaves, List.length_map]

/-- The nodes of a built tree, index by index (R152, R153, R155, R156). -/
theorem Built.allocatedAsBuilt {s : State} {ns : List (Nat × Node)} {t : Tree} (h : Built s (treeBuilt ns s) t) :
    AllocatedAsBuilt (treeBuilt ns s) := by
  have hle := buildLeaves_length_le s
  have hl := buildLeaves_length s
  simp only [Config.alphabetSize] at hle
  refine ⟨fun j sym hj => ?_, fun h2 k h3 h4 => ?_, fun sym h1 => ?_⟩
  · have hj : (countedSyms s)[j]? = some sym := hj
    have hjl : j < (countedSyms s).length := (List.getElem?_eq_some_iff.1 hj).1
    have := h.leavesAt j (by omega)
    show memGet nodeDefault (treeBuilt ns s).nodes (BitVec.ofNat 10 j).toNat = _
    rw [ofNat_toNat_of_lt (by omega), this, buildLeaves_eq, countedLeaves, List.getD_eq_getElem?_getD, List.getElem?_map, hj]
    rfl
  · have h2 : 2 ≤ (countedSyms s).length := h2
    have h3 : (countedSyms s).length ≤ k.toNat := h3
    have h4 : k.toNat < 2 * (countedSyms s).length - 1 := h4
    have := h.joins (by omega) k (by omega) (by rw [builtCount, if_neg (by omega)]; omega)
    rwa [hl] at this
  · have h1 : countedSyms s = [sym] := h1
    obtain ⟨_, w1, w2⟩ := h.wrap (BitVec.ofNat 9 sym) (freqAt s sym) (by rw [buildLeaves_eq, countedLeaves, h1]; rfl)
    have hs : sym < 257 := by
      have : sym ∈ countedSyms s := by rw [h1]; simp
      rw [countedSyms, List.mem_filter, List.mem_range] at this; exact this.1
    have hz : BitVec.ofNat 9 sym = 0 ↔ sym = 0 := by
      rw [← BitVec.toNat_inj, BitVec.toNat_ofNat]; simp; omega
    simp only [hz] at w1
    exact ⟨w1, w2⟩

theorem AllocatedAsBuilt.congr {s s1 : State} (h : AllocatedAsBuilt s) (hf : s1.freq = s.freq) (hn : s1.nodes = s.nodes) :
    AllocatedAsBuilt s1 := by
  have e1 : ∀ k, freqAt s1 k = freqAt s k := fun k => by rw [freqAt, hf]; rfl
  have e2 : ∀ i, nodeAt s1 i = nodeAt s i := fun i => by rw [nodeAt, hn]; rfl
  have e3 : countedSyms s1 = countedSyms s := by simp only [countedSyms, e1]
  unfold AllocatedAsBuilt
  simp only [e1, e2, e3]
  exact ⟨h.1, fun h2 k h3 h4 => (h.2.1 h2 k h3 h4).congr fun i _ => e2 i, h.2.2⟩

theorem path_length_le_max {s : State} {t : Tree} (h : storedTree s = some t) {c : LeafCode} (hc : c ∈ t.codes) :
    c.path.length ≤ Config.maxCodeLen := (t.path_length_le c hc).trans ((storedTree_iff s t).1 h).2

/-! ### COMPRESS -/

/-- The body of the bytes over the paths of a tree's leaves. -/
def pathOf (t : Tree) (k : Nat) : List Bool := codeString (memGet codeDefault (codeTable t) k)
def treeBody (t : Tree) (bytes : List Byte) : List Bool := bytes.flatMap (fun b => pathOf t b.toNat) ++ pathOf t Config.pseudoEof

/-- The state COUNT leaves with the table `f` (R150). -/
def counted (f : List (Nat × Word)) (s : State) : State :=
  flagsCounted (countedTo f (BitVec.ofNat 32 s.inBytes.length) (8 * s.inBytes.length) s)

/-- The state GENCODE leaves for the tree `t` (R158). -/
def coded (t : Tree) (s : State) : State := flagsCoded (setCodes (codeTable t) s)

/-- The state WRITE_HEADER leaves for the tree `t` (R160). -/
def headed (t : Tree) (s : State) : State :=
  flagsHeaderWritten (headerWritten t.header (outWrite 32 s.params.huffTag (hdrBitsZero s)))

/-- What COMPRESS leaves (R167): the state its components leave one after the other. -/
def compressed (f : List (Nat × Word)) (ns : List (Nat × Node)) (t : Tree) (s : State) : State :=
  bodyWritten (headed t (coded t (treeBuilt ns (counted f (cleared s)))))

/-- The counts of a COUNT. -/
def CountsOf (bytes : List Byte) (f : List (Nat × Word)) : Prop :=
  ∀ k, memGet freqDefault f k = if k = Config.pseudoEof then 1 else BitVec.ofNat 32 (occurrences bytes k)

theorem counts_ne_zero {bytes : List Byte} {f : List (Nat × Word)} (hf : CountsOf bytes f)
    (hl : bytes.length ≤ Config.countMax.toNat) {b : Byte} (hb : b ∈ bytes) : memGet freqDefault f b.toNat ≠ 0 := by
  have hmax : Config.countMax.toNat = 4294967294 := rfl
  have hlt := b.isLt
  rw [hf, if_neg (by simp [Config.pseudoEof]; omega)]
  have h1 : 0 < occurrences bytes b.toNat := by
    rw [occurrences, List.count_pos_iff]
    exact List.mem_map_of_mem hb
  have h2 := occurrences_le bytes b.toNat
  intro h
  have := congrArg BitVec.toNat h
  rw [BitVec.toNat_ofNat, Nat.mod_eq_of_lt (by omega)] at this
  simp at this; omega

theorem counts_buildLeaves {s : State} (h : freqAt s Config.pseudoEof = 1) : buildLeaves s ≠ [] := by
  intro hn
  have : Node.leaf (BitVec.ofNat 9 Config.pseudoEof) (freqAt s Config.pseudoEof) ∈ buildLeaves s := by
    rw [buildLeaves_eq, countedLeaves, List.mem_map]
    refine ⟨Config.pseudoEof, ?_, rfl⟩
    rw [countedSyms, List.mem_filter, List.mem_range, decide_eq_true_eq, h]
    exact ⟨by simp [Config.pseudoEof, Config.alphabetSize], by decide⟩
  rw [hn] at this
  simp at this

/-- The facts about a compression that the rules after it rest on. -/
structure Compressed (s : State) (f : List (Nat × Word)) (ns : List (Nat × Node)) (t : Tree) : Prop where
  counts : CountsOf s.inBytes f
  freqWf : memWf freqDefault Config.alphabetSize f = true
  built : Built (counted f (cleared s)) (treeBuilt ns (counted f (cleared s))) t

theorem Compressed.leaf {s : State} {f : List (Nat × Word)} {ns : List (Nat × Node)} {t : Tree} (h : Compressed s f ns t) {k : Nat}
    (hk : k < Config.alphabetSize) (hf : memGet freqDefault f k ≠ 0) :
    ∃ c ∈ t.codes, c.sym = BitVec.ofNat 9 k ∧ memGet codeDefault (codeTable t) k = entryOf c.path ∧ pathOf t k = c.path := by
  obtain ⟨c, hc, h1, _, h3⟩ := codeTable_counted h.built.builtFor hk hf
  refine ⟨c, hc, h1, h3, ?_⟩
  rw [pathOf, h3, codeString_entryOf (path_length_le_max h.built.stored hc)]

theorem runCompress_eq (s : State) :
    runCompress s = (runCount (cleared s)).andThen fun _ s2 => (runBuild s2).andThen fun _ s3 =>
      (runGencode s3).andThen fun _ s4 => (runWriteHeader s4).andThen fun _ s5 => runEncode s5 := by
  rw [runCompress, runClear]
  simp only [Res.andThen]

theorem inBytes_headed (t : Tree) (s : State) : (headed t (coded t s)).inBytes = s.inBytes := by cases s; rfl

theorem inCount_headed (t : Tree) (s : State) : (headed t (coded t s)).inCount = s.inCount := by cases s; rfl

theorem inBytes_treeBuilt (ns : List (Nat × Node)) (f : List (Nat × Word)) (s : State) :
    (treeBuilt ns (counted f (cleared s))).inBytes = s.inBytes := by cases s; rfl

theorem inCount_treeBuilt (ns : List (Nat × Node)) (f : List (Nat × Word)) (s : State) :
    (treeBuilt ns (counted f (cleared s))).inCount = BitVec.ofNat 32 s.inBytes.length := by cases s; rfl

theorem codeAt_headed (t : Tree) (s : State) (k : Nat) : codeAt (headed t (coded t s)) k = memGet codeDefault (codeTable t) k := rfl

/-- GENCODE, WRITE_HEADER and ENCODE on a built tree whose counts are of the bytes in IN. -/
theorem runBack_ok {s : State} {t : Tree} (ht : storedTree s = some t) (hl : s.inBytes.length = s.inCount.toNat)
    (hv : ∀ b ∈ s.inBytes, (memGet codeDefault (codeTable t) b.toNat).valid = true) :
    ((runGencode s).andThen fun _ s4 => (runWriteHeader s4).andThen fun _ s5 => runEncode s5) =
      .ok () (bodyWritten (headed t (coded t s))) := by
  have h7 : runWriteHeader (coded t s) = .ok () (headed t (coded t s)) :=
    runWriteHeader_ok (s := coded t s) ((storedTree_congr (s := s) (s1 := coded t s) rfl rfl rfl).trans ht)
  have h8 : AllCoded (headed t (coded t s)) (headed t (coded t s)).inBytes := by
    intro b hb
    rw [inBytes_headed] at hb
    rw [codeAt_headed]
    exact hv b hb
  rw [runGencode_ok ht]
  simp only [Res.andThen]
  rw [show flagsCoded (setCodes (codeTable t) s) = coded t s from rfl, h7]
  dsimp only
  exact runEncode_ok (s := headed t (coded t s)) h8 (by rw [inBytes_headed, inCount_headed]; exact hl)

/-- COMPRESS of an IN it can count (R167). -/
theorem runCompress_ok {s : State} (hl : s.inBytes.length ≤ Config.countMax.toNat) :
    ∃ f ns t, runCompress s = .ok () (compressed f ns t s) ∧ Compressed s f ns t := by
  obtain ⟨f, h1, h2, h3⟩ := runCount_ok (cleared s) hl
  obtain ⟨ns, t, h4, h5⟩ := runBuild_ok (s := counted f (cleared s)) (counts_buildLeaves ((h2 _).trans (if_pos rfl)))
  have hc : Compressed s f ns t := ⟨h2, h3, h5⟩
  refine ⟨f, ns, t, ?_, hc⟩
  have hmax : Config.countMax.toNat = 4294967294 := rfl
  rw [runCompress_eq, h1]
  simp only [Res.andThen]
  rw [show flagsCounted (countedTo f (BitVec.ofNat 32 (cleared s).inBytes.length) (8 * (cleared s).inBytes.length) (cleared s)) =
    counted f (cleared s) from rfl, h4]
  dsimp only
  refine runBack_ok h5.stored ?_ ?_
  · rw [inBytes_treeBuilt, inCount_treeBuilt, BitVec.toNat_ofNat, Nat.mod_eq_of_lt (by omega)]
  · intro b hb
    rw [inBytes_treeBuilt] at hb
    obtain ⟨c, _, _, h8, _⟩ := hc.leaf (k := b.toNat) (by have := b.isLt; simp [Config.alphabetSize]; omega) (counts_ne_zero h2 hl hb)
    rw [h8]; rfl

/-- COMPRESS of more bytes than it can count (R167). -/
theorem runCompress_overflow {s : State} (hl : Config.countMax.toNat < s.inBytes.length) :
    ∃ f, runCompress s = .raised .lengthOverflow Config.countMax (opcode .count)
      (countedTo f Config.countMax (8 * (Config.countMax.toNat + 1)) (cleared s)) ∧
      memWf freqDefault Config.alphabetSize f = true := by
  obtain ⟨f, h1, h2⟩ := runCount_overflow (cleared s) hl
  exact ⟨f, by rw [runCompress_eq, h1]; rfl, h2⟩

/-- Everything after BUILD, field by field. -/
theorem bodyWritten_headed (t : Tree) (s : State) :
    bodyWritten (headed t (coded t s)) =
      { s with
        codeV    := true
        hdrV     := true
        codes    := codeTable t
        hdrBits  := 0 + BitVec.ofNat 32 t.header.length
        outBits  := s.outBits + 32 + BitVec.ofNat 32 t.header.length + BitVec.ofNat 32 (treeBody t s.inBytes).length
        encCount := s.inCount
        inPos    := 8 * s.inBytes.length
        out      := s.out ++ bin 32 s.params.huffTag ++ t.header ++ treeBody t s.inBytes ++
          padding ((s.out ++ bin 32 s.params.huffTag ++ t.header).length + (treeBody t s.inBytes).length) } := by
  cases s; rfl

theorem compressed_eq (f : List (Nat × Word)) (ns : List (Nat × Node)) (t : Tree) (s : State) :
    compressed f ns t s =
      { s with
        freqV     := true
        treeV     := true
        codeV     := true
        hdrV      := true
        treeSrc   := false
        inCount   := BitVec.ofNat 32 s.inBytes.length
        encCount  := BitVec.ofNat 32 s.inBytes.length
        decCount  := 0
        freq      := f
        nodes     := ns
        nodeCount := BitVec.ofNat 10 (builtCount (counted f (cleared s)))
        root      := BitVec.ofNat 10 (builtCount (counted f (cleared s)) - 1)
        codes     := codeTable t
        hdrBits   := BitVec.ofNat 32 t.header.length
        outBits   := BitVec.ofNat 32 (container s.params.huffTag t (treeBody t s.inBytes)).length
        inPos     := 8 * s.inBytes.length
        out       := s.out ++ container s.params.huffTag t (treeBody t s.inBytes) ++
          padding (s.out.length + (container s.params.huffTag t (treeBody t s.inBytes)).length) } := by
  rw [compressed, bodyWritten_headed]
  have h1 : (0 : Word) + BitVec.ofNat 32 t.header.length = BitVec.ofNat 32 t.header.length := BitVec.zero_add _
  have h2 : (0 : Word) + 32 + BitVec.ofNat 32 t.header.length + BitVec.ofNat 32 (treeBody t s.inBytes).length =
      BitVec.ofNat 32 (container s.params.huffTag t (treeBody t s.inBytes)).length := by
    rw [container, List.length_append, List.length_append, bin_length, BitVec.ofNat_add, BitVec.ofNat_add,
      show (0 : Word) + 32 = 32 from BitVec.zero_add _, BitVec.add_assoc]
    rfl
  have h3 : s.out ++ bin 32 s.params.huffTag ++ t.header ++ treeBody t s.inBytes =
      s.out ++ container s.params.huffTag t (treeBody t s.inBytes) := by simp only [container, List.append_assoc]
  have h4 : (s.out ++ bin 32 s.params.huffTag ++ t.header).length + (treeBody t s.inBytes).length =
      s.out.length + (container s.params.huffTag t (treeBody t s.inBytes)).length := by
    simp only [container, List.length_append, Nat.add_assoc]
  have h5 : (treeBuilt ns (counted f (cleared s))).outBits = 0 := by cases s; rfl
  have h6 : (treeBuilt ns (counted f (cleared s))).out = s.out := by cases s; rfl
  have h7 : (treeBuilt ns (counted f (cleared s))).params = s.params := by cases s; rfl
  rw [h5, h6, h7, inBytes_treeBuilt, inCount_treeBuilt, h1, h2, h4, h3]
  generalize hn : builtCount (counted f (cleared s)) = n
  have h8 : treeBuilt ns (counted f (cleared s)) =
      flagsBuilt (setRoot (BitVec.ofNat 10 (n - 1)) (grown ns (BitVec.ofNat 10 n) (counted f (cleared s)))) := by rw [← hn]; rfl
  rw [h8]
  generalize container s.params.huffTag t (treeBody t s.inBytes) = bits
  generalize codeTable t = table
  cases s; rfl

/-! ### The round trip (R208) -/

theorem Tree.symsOk_of_codes {t : Tree} (h : ∀ c ∈ t.codes, c.sym.toNat ≤ Config.pseudoEof) : t.symsOk = true := by
  induction t with
  | leaf sym w => simpa [Tree.symsOk, Tree.codes] using h
  | fork w l r ihl ihr =>
    rw [Tree.symsOk, Bool.and_eq_true]
    constructor
    · refine ihl fun c hc => h (c.under false) ?_
      rw [Tree.codes, List.mem_append]; exact .inl (List.mem_map_of_mem hc)
    · refine ihr fun c hc => h (c.under true) ?_
      rw [Tree.codes, List.mem_append]; exact .inr (List.mem_map_of_mem hc)

theorem storedTree_symsOk {s : State} {t : Tree} (h : storedTree s = some t) : t.symsOk = true :=
  Tree.symsOk_of_codes ((storedTree_iff s t).1 h).1.sym_le

theorem Tree.size_le_of_leaves {t : Tree} (h : t.leaves.length ≤ Config.alphabetSize) : t.size ≤ Config.nodeCap := by
  have := t.size_eq
  simp only [Config.alphabetSize, Config.nodeCap] at *
  omega

theorem mem_codes_shape {t : Tree} {c : LeafCode} (h : c ∈ t.codes) : { c with weight := 0 } ∈ t.shape.codes := by
  rw [Tree.codes_shape]
  exact List.mem_map_of_mem (f := fun c : LeafCode => { c with weight := 0 }) h

/-- The leaf, in the tree a header rebuilds, that the code of each byte leads to. -/
theorem Compressed.decodable {s : State} {f : List (Nat × Word)} {ns : List (Nat × Node)} {t : Tree} (h : Compressed s f ns t)
    (hl : s.inBytes.length ≤ Config.countMax.toNat) (bytes : List Byte) (hb : ∀ b ∈ bytes, b ∈ s.inBytes) :
    ∃ cs, AllLiteral t.shape cs ∧ pathBits cs = bytes.flatMap (fun b => pathOf t b.toNat) ∧ literals cs = bytes := by
  induction bytes with
  | nil => exact ⟨[], fun _ hc => by simp at hc, rfl, rfl⟩
  | cons b bytes ih =>
    obtain ⟨cs, h1, h2, h3⟩ := ih fun x hx => hb x (by simp [hx])
    have hlt := b.isLt
    obtain ⟨c, hc, h4, _, h6⟩ := h.leaf (k := b.toNat) (by simp [Config.alphabetSize]; omega)
      (counts_ne_zero h.counts hl (hb b (by simp)))
    have hs : c.sym.toNat = b.toNat := by rw [h4]; exact ofNat9_toNat (by simp [Config.alphabetSize]; omega)
    refine ⟨{ c with weight := 0 } :: cs, ?_, ?_, ?_⟩
    · intro d hd
      rcases List.mem_cons.1 hd with rfl | hd
      · exact ⟨mem_codes_shape hc, by show c.sym.toNat ≠ _; rw [hs]; simp [Config.pseudoEof]; omega⟩
      · exact h1 d hd
    · rw [show pathBits ({ c with weight := 0 } :: cs) = c.path ++ pathBits cs from List.flatMap_cons, List.flatMap_cons, h2, h6]
    · rw [show literals ({ c with weight := 0 } :: cs) = BitVec.setWidth 8 c.sym :: literals cs from rfl, h3]
      congr 1
      apply BitVec.eq_of_toNat_eq
      rw [BitVec.toNat_setWidth, hs]; omega

theorem Compressed.eofLeaf {s : State} {f : List (Nat × Word)} {ns : List (Nat × Node)} {t : Tree} (h : Compressed s f ns t) :
    ∃ e ∈ t.codes, e.sym.toNat = Config.pseudoEof ∧ pathOf t Config.pseudoEof = e.path := by
  obtain ⟨e, he, h1, _, h3⟩ := h.leaf (k := Config.pseudoEof) (by simp [Config.pseudoEof, Config.alphabetSize])
    (by rw [h.counts, if_pos rfl]; decide)
  exact ⟨e, he, by rw [h1]; exact ofNat9_toNat (by simp [Config.pseudoEof, Config.alphabetSize]), h3⟩

theorem Compressed.isFork {s : State} {f : List (Nat × Word)} {ns : List (Nat × Node)} {t : Tree} (h : Compressed s f ns t) :
    t.isFork = true := h.built.builtFor.1

/-- The state DECOMPRESS has reached once READ_HEADER is done. -/
theorem runDecompress_header {s1 : State} {t : Tree} {rest : List Bool}
    (hu : unread s1 = bin 32 s1.params.huffTag ++ (t.header ++ rest)) (hs : t.symsOk = true) (hn : t.size ≤ Config.nodeCap) :
    ∃ ns, runDecompress s1 = runDecodeBody (headerLoaded ns t (cleared s1)) ∧
      storedTree (headerLoaded ns t (cleared s1)) = some t.shape ∧ unread (headerLoaded ns t (cleared s1)) = rest ∧
      PlacedOver s1.nodes ns t 0 ∧
      (memWf nodeDefault Config.nodeCap s1.nodes = true → memWf nodeDefault Config.nodeCap ns = true) := by
  have hu' : unread (cleared s1) = bin 32 (cleared s1).params.huffTag ++ (t.header ++ rest) := hu
  obtain ⟨ns, h1, h2, h3, h4⟩ := runReadHeader_ok hu' hs hn
  refine ⟨ns, ?_, h4, ?_, h2, h3⟩
  · rw [runDecompress, runClear]
    simp only [Res.andThen]
    rw [h1]
  · refine unread_after (s := cleared s1) (bs := bin 32 (cleared s1).params.huffTag ++ t.header) (by rw [hu', List.append_assoc]) rfl ?_
    rw [List.length_append, bin_length]
    show (cleared s1).inPos + 32 + t.header.length = _
    exact Nat.add_assoc _ _ _

/-- DECOMPRESS of a container made by COMPRESS (R208): it ends well, and OUT is the bytes. -/
theorem runDecompress_compressed {s s1 : State} {f : List (Nat × Word)} {ns : List (Nat × Node)} {t : Tree}
    (h : Compressed s f ns t) (hl : s.inBytes.length ≤ Config.countMax.toNat) (htag : s1.params.huffTag = s.params.huffTag)
    {pad : List Bool} (hu : unread s1 = container s.params.huffTag t (treeBody t s.inBytes) ++ pad) :
    ∃ ns1 cs, runDecompress s1 =
        .ok () (outFlush (inMove (s1.inPos + 32 + t.header.length + (treeBody t s.inBytes).length)
          (decodedFrom cs (headerLoaded ns1 t (cleared s1))))) ∧
      literals cs = s.inBytes ∧ cs.length = s.inBytes.length := by
  obtain ⟨cs, h1, h2, h3⟩ := h.decodable hl s.inBytes fun _ hb => hb
  obtain ⟨e, he, h4, h5⟩ := h.eofLeaf
  have hu' : unread s1 = bin 32 s1.params.huffTag ++ (t.header ++ (treeBody t s.inBytes ++ pad)) := by
    rw [hu, htag, container]; simp only [List.append_assoc]
  obtain ⟨ns1, h6, h7, h8, _⟩ := runDecompress_header hu' (storedTree_symsOk h.built.stored)
    (Tree.size_le_of_leaves h.built.leavesLe)
  have hbody : treeBody t s.inBytes = pathBits cs ++ e.path := by rw [treeBody, h2, h5]
  have hu2 : unread (headerLoaded ns1 t (cleared s1)) = pathBits cs ++ (e.path ++ pad) := by
    rw [h8, hbody, List.append_assoc]
  have h9 := runDecodeBody_ok h7 (by rw [Tree.isFork_shape]; exact h.isFork) h1 (mem_codes_shape he) h4 hu2
  refine ⟨ns1, cs, ?_, h3, by rw [← h3, literals, List.length_map]⟩
  rw [h6, h9]
  congr 2
  rw [hbody, List.length_append, ← Nat.add_assoc]
  rfl

/-! ### Truncation (R209) -/

/-- Bits that break off before the end of an EOF code hold whole codes and then no whole code. -/
theorem Compressed.cut {s : State} {f : List (Nat × Word)} {ns : List (Nat × Node)} {t : Tree} (h : Compressed s f ns t)
    (hl : s.inBytes.length ≤ Config.countMax.toNat) (bytes : List Byte) (hb : ∀ b ∈ bytes, b ∈ s.inBytes) (q : List Bool)
    (hp : q <+: bytes.flatMap (fun b => pathOf t b.toNat) ++ pathOf t Config.pseudoEof)
    (hq : q.length < (bytes.flatMap (fun b => pathOf t b.toNat) ++ pathOf t Config.pseudoEof).length) :
    ∃ cs rest, AllLiteral t.shape cs ∧ q = pathBits cs ++ rest ∧ (∀ c ∈ t.shape.codes, ¬ c.path <+: rest) ∧
      cs.length ≤ bytes.length := by
  -- a strict prefix of one leaf's path holds no leaf's path
  have key : ∀ c ∈ t.codes, ∀ q : List Bool, q <+: c.path → q.length < c.path.length → ∀ d ∈ t.shape.codes, ¬ d.path <+: q := by
    intro c hc q h1 h2 d hd h3
    rw [Tree.codes_shape, List.mem_map] at hd
    obtain ⟨d', hd', rfl⟩ := hd
    have := t.prefix_free hd' hc (h3.trans h1)
    subst this
    have h4 : d'.path.length ≤ q.length := h3.length_le
    omega
  induction bytes generalizing q with
  | nil =>
    obtain ⟨e, he, _, h2⟩ := h.eofLeaf
    simp only [List.flatMap_nil, List.nil_append] at hp hq
    rw [h2] at hp hq
    exact ⟨[], q, fun _ hc => by simp at hc, rfl, key e he q hp hq, le_rfl⟩
  | cons b bytes ih =>
    have hlt := b.isLt
    obtain ⟨c, hc, h4, _, h6⟩ := h.leaf (k := b.toNat) (by simp [Config.alphabetSize]; omega)
      (counts_ne_zero h.counts hl (hb b (by simp)))
    rw [List.flatMap_cons, List.append_assoc, h6] at hp hq
    rcases Nat.lt_or_ge q.length c.path.length with hcut | hge
    · exact ⟨[], q, fun _ hc => by simp at hc, rfl,
        key c hc q (List.prefix_of_prefix_length_le hp (List.prefix_append _ _) (by omega)) hcut, by simp⟩
    · obtain ⟨q', rfl⟩ : ∃ q', q = c.path ++ q' := by
        obtain ⟨x, hx⟩ := List.prefix_of_prefix_length_le (List.prefix_append c.path _) hp hge
        exact ⟨x, hx.symm⟩
      have hp' := (List.prefix_append_right_inj _).1 hp
      obtain ⟨cs, rest, h7, h8, h9, h10⟩ := ih (fun x hx => hb x (by simp [hx])) q' hp' (by
        simp only [List.length_append] at hq ⊢; omega)
      have hs : c.sym.toNat = b.toNat := by rw [h4]; exact ofNat9_toNat (by simp [Config.alphabetSize]; omega)
      refine ⟨{ c with weight := 0 } :: cs, rest, ?_, ?_, h9, by simp; omega⟩
      · intro d hd
        rcases List.mem_cons.1 hd with rfl | hd
        · exact ⟨mem_codes_shape hc, by show c.sym.toNat ≠ _; rw [hs]; simp [Config.pseudoEof]; omega⟩
        · exact h7 d hd
      · rw [show pathBits ({ c with weight := 0 } :: cs) = c.path ++ pathBits cs from List.flatMap_cons, h8, List.append_assoc]

/-- DECOMPRESS of a container that breaks off after the tag and before the end of the EOF code (R209). -/
theorem runDecompress_cut {s s1 : State} {f : List (Nat × Word)} {ns : List (Nat × Node)} {t : Tree}
    (h : Compressed s f ns t) (hl : s.inBytes.length ≤ Config.countMax.toNat) (htag : s1.params.huffTag = s.params.huffTag)
    (hp : unread s1 <+: container s.params.huffTag t (treeBody t s.inBytes)) (h32 : 32 ≤ (unread s1).length)
    (hlt : (unread s1).length < (container s.params.huffTag t (treeBody t s.inBytes)).length) :
    ∃ info step s2, runDecompress s1 = .raised .truncatedStream info step s2 ∧
      (step = opcode .readHeader ∨ step = opcode .decodeBody) := by
  have hsym := storedTree_symsOk h.built.stored
  have hsz := Tree.size_le_of_leaves h.built.leavesLe
  rw [container] at hp hlt
  obtain ⟨q, hq⟩ : ∃ q, unread s1 = bin 32 s.params.huffTag ++ q := by
    obtain ⟨x, hx⟩ := List.prefix_of_prefix_length_le (List.prefix_append (bin 32 s.params.huffTag) _) hp (by rw [bin_length]; omega)
    exact ⟨x, hx.symm⟩
  rw [hq] at hp hlt
  have hp1 := (List.prefix_append_right_inj _).1 hp
  simp only [List.length_append, bin_length] at hlt
  rcases Nat.lt_or_ge q.length t.header.length with hcut | hge
  · have hu : unread (cleared s1) = bin 32 (cleared s1).params.huffTag ++ q := by
      show unread s1 = bin 32 s1.params.huffTag ++ q
      rw [hq, htag]
    obtain ⟨s2, h1⟩ := runReadHeader_truncated hu
      (List.prefix_of_prefix_length_le hp1 (List.prefix_append _ _) (by omega)) hcut hsym hsz
    refine ⟨s2.hdrBits, opcode .readHeader, s2, ?_, .inl rfl⟩
    rw [runDecompress, runClear]
    simp only [Res.andThen]
    rw [h1]
    rfl
  · obtain ⟨body, rfl⟩ : ∃ body, q = t.header ++ body := by
      obtain ⟨x, hx⟩ := List.prefix_of_prefix_length_le (List.prefix_append t.header _) hp1 hge
      exact ⟨x, hx.symm⟩
    have hp2 := (List.prefix_append_right_inj _).1 hp1
    obtain ⟨ns1, h6, h7, h8, _⟩ := runDecompress_header (rest := body) (by rw [hq, htag]) hsym hsz
    simp only [List.length_append] at hlt
    obtain ⟨cs, rest, h1, h2, h3, _⟩ := h.cut hl s.inBytes (fun _ hb => hb) body hp2 (by
      show body.length < (treeBody t s.inBytes).length
      omega)
    have h9 := runDecodeBody_truncated h7 (by rw [Tree.isFork_shape]; exact h.isFork) h1 (h8.trans h2) h3
    exact ⟨_, opcode .decodeBody, _, h6.trans h9, .inr rfl⟩

end Sys2Proof.Machine
end

