-- ==== Sys2Proof/Laws/Frame.lean ====
section
/-! SUPPORT. What a command's run leaves alone, for every command and every state: once over any relation the shared operations keep,
then for the relations the statements need. -/

set_option autoImplicit false

namespace Sys2Proof.Machine

/-! ### Once, over any relation -/

/-- A relation between a state and a later one. -/
structure Later (R : State → State → Prop) : Prop where
  refl : ∀ s, R s s
  trans : ∀ {a b c}, R a b → R b c → R a c

/-- Some fields are the same. -/
theorem later_field {α : Type} (f : State → α) : Later fun a b => f b = f a := ⟨fun _ => rfl, fun h k => k.trans h⟩

/-- A property of the state a run ends in, well or with an error. -/
def Res.Sat {α : Type} (P : State → Prop) : Res α → Prop
  | .ok _ s         => P s
  | .raised _ _ _ s => P s
  | .stuck _        => True

variable {R : State → State → Prop}

/-- A run after an update. -/
theorem Res.Sat.after {α : Type} (hR : Later R) {s s1 : State} {r : Res α} (h : R s s1) (hr : r.Sat (R s1)) : r.Sat (R s) := by
  cases r with
  | ok _ _ => exact hR.trans h hr
  | raised _ _ _ _ => exact hR.trans h hr
  | stuck _ => trivial

theorem Res.Sat.andThen {α β : Type} (hR : Later R) {s : State} {r : Res α} {f : α → State → Res β} (hr : r.Sat (R s))
    (hf : ∀ a s1, (f a s1).Sat (R s1)) : (r.andThen f).Sat (R s) := by
  cases r with
  | ok a s1 => exact Res.Sat.after hR hr (hf a s1)
  | raised _ _ _ _ => exact hr
  | stuck _ => trivial

theorem sat_checked (hR : Later R) {i : Instr} {run : State → Res Unit} {s : State} (h : (run s).Sat (R s)) :
    (checked i run s).Sat (R s) := by
  unfold checked
  split
  · exact h
  · exact hR.refl s

/-- The relation holds over a read of IN. -/
structure KeepsRead (R : State → State → Prop) : Prop where
  inMove : ∀ p s, R s (inMove p s)
  draw : ∀ s, R s (draw s)

theorem sat_noData (hR : Later R) (hk : KeepsRead R) (s : State) : R s (noData s) := by
  unfold noData
  dsimp only
  split
  · exact hR.refl s
  · exact hR.trans (hk.inMove _ s) (hk.draw _)

theorem sat_inRead (hR : Later R) (hk : KeepsRead R) (n : Nat) (s : State) : R s (inRead n s).2 := by
  unfold inRead
  split
  · exact sat_noData hR hk s
  · exact hk.inMove _ s

structure KeepsCount (R : State → State → Prop) : Prop extends KeepsRead R where
  countStart : ∀ s, R s (countStart s)
  countByte : ∀ r s, R s (countByte r s)
  countEnd : ∀ s, R s (countEnd s)

theorem sat_countLoop (hR : Later R) (hk : KeepsCount R) (bytes : List Byte) (s : State) : (countLoop bytes s).Sat (R s) := by
  induction bytes generalizing s with
  | nil => exact sat_inRead hR hk.toKeepsRead 8 s
  | cons b bytes ih =>
    have hr := sat_inRead hR hk.toKeepsRead 8 s
    rw [countLoop]
    split
    · rename_i h; rw [h] at hr; exact hr
    · rename_i h; rw [h] at hr
      split
      · exact hr
      · exact .after hR (hR.trans hr (hk.countByte _ _)) (ih _)

theorem sat_count (hR : Later R) (hk : KeepsCount R) (s : State) : (runCount s).Sat (R s) :=
  .andThen hR (.after hR (hk.countStart s) (sat_countLoop hR hk _ _)) fun _ s1 => hk.countEnd s1

structure KeepsBuild (R : State → State → Prop) : Prop where
  buildStart : ∀ s, R s (buildStart s)
  alloc : ∀ n s, R s (alloc n s)
  buildEnd : ∀ s, R s (buildEnd s)

theorem sat_allocAll (hR : Later R) (ha : ∀ n s, R s (alloc n s)) (ns : List Node) (s : State) : R s (allocAll ns s) := by
  induction ns generalizing s with
  | nil => exact hR.refl s
  | cons n ns ih => exact hR.trans (ha n s) (ih _)

theorem sat_mergeLoop (hR : Later R) (ha : ∀ n s, R s (alloc n s)) (k : Nat) (A : List NodeIx) (s : State) :
    R s (mergeLoop k A s) := by
  induction k generalizing A s with
  | zero => exact hR.refl s
  | succ k ih =>
    rw [mergeLoop]
    split
    · exact hR.refl s
    · split
      · exact hR.refl s
      · exact hR.trans (ha _ s) (ih _ _)

theorem sat_growTree (hR : Later R) (ha : ∀ n s, R s (alloc n s)) (k : Nat) (s : State) : R s (growTree k s) := by
  unfold growTree
  split
  · exact hR.trans (ha _ _) (ha _ _)
  · exact sat_mergeLoop hR ha _ _ s

theorem sat_build (hR : Later R) (hk : KeepsBuild R) (s : State) : (runBuild s).Sat (R s) := by
  unfold runBuild
  split
  · trivial
  · exact hR.trans (hR.trans (hR.trans (hk.buildStart s) (sat_allocAll hR hk.alloc _ _)) (sat_growTree hR hk.alloc _ _))
      (hk.buildEnd _)

theorem sat_gencode (hk : ∀ codes s, R s (flagsCoded (setCodes codes s))) (s : State) : (runGencode s).Sat (R s) := by
  unfold runGencode
  split
  · trivial
  · exact hk _ _

structure KeepsHeader (R : State → State → Prop) : Prop where
  hdrBitsZero : ∀ s, R s (hdrBitsZero s)
  outWrite : ∀ n v s, R s (outWrite n v s)
  addHdrBits : ∀ n s, R s (addHdrBits n s)
  headerWritten : ∀ s, R s (flagsHeaderWritten s)

theorem sat_ser (hR : Later R) (hk : KeepsHeader R) (d : Nat) (i : NodeIx) (s : State) : (ser d i s).Sat (R s) := by
  induction d generalizing i s with
  | zero => trivial
  | succ d ih =>
    rw [ser]
    split
    · trivial
    · exact .andThen hR (.after hR (hR.trans (hk.outWrite 1 0 s) (hk.addHdrBits 1 _)) (ih _ _)) fun _ s1 => ih _ s1
    · exact hR.trans (hR.trans (hk.outWrite 1 1 s) (hk.outWrite 9 _ _)) (hk.addHdrBits 10 _)

theorem sat_writeHeader (hR : Later R) (hk : KeepsHeader R) (s : State) : (runWriteHeader s).Sat (R s) :=
  .andThen hR (.after hR (hR.trans (hk.hdrBitsZero s) (hk.outWrite 32 _ _)) (sat_ser hR hk _ _ _)) fun _ s1 => hk.headerWritten s1

structure KeepsEncode (R : State → State → Prop) : Prop extends KeepsRead R where
  encodeStart : ∀ s, R s (encodeStart s)
  outWrite : ∀ n v s, R s (outWrite n v s)
  outFlush : ∀ s, R s (outFlush s)
  encCountUp : ∀ s, R s (encCountUp s)

theorem sat_emitCode (hR : Later R) (hw : ∀ n v s, R s (outWrite n v s)) (c : CodeEntry) (s : State) : R s (emitCode c s) := by
  unfold emitCode
  generalize (List.range c.len.toNat).reverse = l
  induction l generalizing s with
  | nil => exact hR.refl s
  | cons k l ih => exact hR.trans (hw 1 _ s) (ih _)

theorem sat_encodeLoop (hR : Later R) (hk : KeepsEncode R) (bytes : List Byte) (s : State) : (encodeLoop bytes s).Sat (R s) := by
  induction bytes generalizing s with
  | nil => exact sat_inRead hR hk.toKeepsRead 8 s
  | cons b bytes ih =>
    have hr := sat_inRead hR hk.toKeepsRead 8 s
    rw [encodeLoop]
    split
    · rename_i h; rw [h] at hr; exact hr
    · rename_i h; rw [h] at hr
      split
      · exact hr
      · split
        · exact .after hR (hR.trans hr (hR.trans (sat_emitCode hR hk.outWrite _ _) (hk.encCountUp _))) (ih _)
        · exact hr

theorem sat_encode (hR : Later R) (hk : KeepsEncode R) (s : State) : (runEncode s).Sat (R s) := by
  refine .andThen hR (.after hR (hk.encodeStart s) (sat_encodeLoop hR hk _ _)) fun _ s1 => ?_
  unfold encodeEnd
  split
  · exact hR.trans (sat_emitCode hR hk.outWrite _ s1) (hk.outFlush _)
  · exact hR.refl s1

structure KeepsParse (R : State → State → Prop) : Prop extends KeepsRead R where
  headerStart : ∀ s, R s (headerStart s)
  countHdrBits : ∀ n s, R s (countHdrBits n s)
  alloc : ∀ n s, R s (alloc n s)
  setNode : ∀ i n s, R s (setNode i n s)
  headerRead : ∀ root s, R s (flagsHeaderRead (setRoot root s))

theorem sat_desNode (hR : Later R) (hk : KeepsParse R) (s : State) : (desNode s).Sat (R s) := by
  have hr := sat_inRead hR hk.toKeepsRead 1 s
  unfold desNode
  split
  · rename_i h; rw [h] at hr; exact hr
  · rename_i h; rw [h] at hr
    dsimp only
    split
    · exact hR.trans hr (hk.countHdrBits _ _)
    · exact hR.trans (hR.trans hr (hk.countHdrBits _ _)) (hk.alloc _ _)

theorem sat_desLeaf (hR : Later R) (hk : KeepsParse R) (i : NodeIx) (s : State) : (desLeaf i s).Sat (R s) := by
  have hr := sat_inRead hR hk.toKeepsRead 9 s
  unfold desLeaf
  split
  · rename_i h; rw [h] at hr; exact hr
  · rename_i h; rw [h] at hr
    dsimp only
    split
    · exact hR.trans hr (hk.countHdrBits _ _)
    · exact hR.trans (hR.trans hr (hk.countHdrBits _ _)) (hk.setNode _ _ _)

theorem sat_des (hR : Later R) (hk : KeepsParse R) (d : Nat) (s : State) : (des d s).Sat (R s) := by
  induction d generalizing s with
  | zero => exact hR.refl s
  | succ d ih =>
    rw [des]
    refine .andThen hR (sat_desNode hR hk s) fun bi s1 => ?_
    split
    · exact sat_desLeaf hR hk _ _
    · exact .andThen hR (ih s1) fun l s2 => .andThen hR (ih s2) fun r s3 => hk.setNode _ _ s3

theorem sat_readHeader (hR : Later R) (hk : KeepsParse R) (s : State) : (runReadHeader s).Sat (R s) := by
  have hr := hR.trans (hk.headerStart s) (sat_inRead hR hk.toKeepsRead 32 (headerStart s))
  unfold runReadHeader
  split
  · rename_i h; rw [h] at hr; exact hr
  · rename_i h; rw [h] at hr
    split
    · exact .after hR hr (.andThen hR (sat_des hR hk _ _) fun root s2 => hk.headerRead root s2)
    · exact hr

structure KeepsDecode (R : State → State → Prop) : Prop extends KeepsRead R where
  decodeStart : ∀ s, R s (decodeStart s)
  outWrite : ∀ n v s, R s (outWrite n v s)
  outFlush : ∀ s, R s (outFlush s)
  decCountUp : ∀ s, R s (decCountUp s)

theorem sat_decodeLoop (hR : Later R) (hk : KeepsDecode R) (n : Nat) (cur : NodeIx) (s : State) :
    (decodeLoop n cur s).Sat (R s) := by
  induction n generalizing cur s with
  | zero => exact sat_inRead hR hk.toKeepsRead 1 s
  | succ n ih =>
    have hr := sat_inRead hR hk.toKeepsRead 1 s
    rw [decodeLoop]
    split
    · rename_i h; rw [h] at hr; exact hr
    · rename_i h; rw [h] at hr
      split
      · trivial
      · split
        · trivial
        · exact .after hR hr (ih _ _)
        · split
          · exact hR.trans hr (hk.outFlush _)
          · exact .after hR (hR.trans hr (hR.trans (hk.outWrite 8 _ _) (hk.decCountUp _))) (ih _ _)

theorem sat_decodeBody (hR : Later R) (hk : KeepsDecode R) (s : State) : (runDecodeBody s).Sat (R s) :=
  .after hR (hk.decodeStart s) (sat_decodeLoop hR hk _ _ _)

theorem sat_compress (hR : Later R) (hc : ∀ s, R s (cleared s)) (h1 : KeepsCount R) (h2 : KeepsBuild R)
    (h3 : ∀ codes s, R s (flagsCoded (setCodes codes s))) (h4 : KeepsHeader R) (h5 : KeepsEncode R) (s : State) :
    (runCompress s).Sat (R s) :=
  .andThen hR (hc s) fun _ s1 => .andThen hR (sat_count hR h1 s1) fun _ s2 => .andThen hR (sat_build hR h2 s2) fun _ s3 =>
    .andThen hR (sat_gencode h3 s3) fun _ s4 => .andThen hR (sat_writeHeader hR h4 s4) fun _ s5 => sat_encode hR h5 s5

theorem sat_decompress (hR : Later R) (hc : ∀ s, R s (cleared s)) (h1 : KeepsParse R) (h2 : KeepsDecode R) (s : State) :
    (runDecompress s).Sat (R s) :=
  .andThen hR (hc s) fun _ s1 => .andThen hR (sat_readHeader hR h1 s1) fun _ s2 => sat_decodeBody hR h2 s2

/-! ### What no command touches -/

/-- The fields no run of a command writes; and OUT only grows (20_memory R77). -/
structure Framed (s s1 : State) : Prop where
  params   : s1.params = s.params
  pending  : s1.pending = s.pending
  done     : s1.done = s.done
  err      : s1.err = s.err
  ign      : s1.ign = s.ign
  errCode  : s1.errCode = s.errCode
  lastOp   : s1.lastOp = s.lastOp
  errStep  : s1.errStep = s.errStep
  errInfo  : s1.errInfo = s.errInfo
  ie       : s1.ie = s.ie
  index    : s1.index = s.index
  wsel     : s1.wsel = s.wsel
  inBytes  : s1.inBytes = s.inBytes
  host     : s1.host = s.host
  reads    : s1.reads = s.reads
  schedule : s1.schedule = s.schedule
  out      : s.out <+: s1.out

theorem later_framed : Later Framed where
  refl _ := ⟨rfl, rfl, rfl, rfl, rfl, rfl, rfl, rfl, rfl, rfl, rfl, rfl, rfl, rfl, rfl, rfl, List.prefix_rfl⟩
  trans h k :=
    ⟨k.params.trans h.params, k.pending.trans h.pending, k.done.trans h.done, k.err.trans h.err, k.ign.trans h.ign,
      k.errCode.trans h.errCode, k.lastOp.trans h.lastOp, k.errStep.trans h.errStep, k.errInfo.trans h.errInfo, k.ie.trans h.ie,
      k.index.trans h.index, k.wsel.trans h.wsel, k.inBytes.trans h.inBytes, k.host.trans h.host, k.reads.trans h.reads,
      k.schedule.trans h.schedule, h.out.trans k.out⟩

theorem Framed.refl (s : State) : Framed s s := later_framed.refl s

theorem framed_inMove (p : Nat) (s : State) : Framed s (inMove p s) :=
  ⟨rfl, rfl, rfl, rfl, rfl, rfl, rfl, rfl, rfl, rfl, rfl, rfl, rfl, rfl, rfl, rfl, List.prefix_rfl⟩

theorem framed_draw (s : State) : Framed s (draw s) :=
  ⟨rfl, rfl, rfl, rfl, rfl, rfl, rfl, rfl, rfl, rfl, rfl, rfl, rfl, rfl, rfl, rfl, List.prefix_rfl⟩

theorem framed_countStart (s : State) : Framed s (countStart s) :=
  ⟨rfl, rfl, rfl, rfl, rfl, rfl, rfl, rfl, rfl, rfl, rfl, rfl, rfl, rfl, rfl, rfl, List.prefix_rfl⟩

theorem framed_countByte (r : Byte) (s : State) : Framed s (countByte r s) :=
  ⟨rfl, rfl, rfl, rfl, rfl, rfl, rfl, rfl, rfl, rfl, rfl, rfl, rfl, rfl, rfl, rfl, List.prefix_rfl⟩

theorem framed_countEnd (s : State) : Framed s (countEnd s) :=
  ⟨rfl, rfl, rfl, rfl, rfl, rfl, rfl, rfl, rfl, rfl, rfl, rfl, rfl, rfl, rfl, rfl, List.prefix_rfl⟩

theorem framed_buildStart (s : State) : Framed s (buildStart s) :=
  ⟨rfl, rfl, rfl, rfl, rfl, rfl, rfl, rfl, rfl, rfl, rfl, rfl, rfl, rfl, rfl, rfl, List.prefix_rfl⟩

theorem framed_alloc (n : Node) (s : State) : Framed s (alloc n s) :=
  ⟨rfl, rfl, rfl, rfl, rfl, rfl, rfl, rfl, rfl, rfl, rfl, rfl, rfl, rfl, rfl, rfl, List.prefix_rfl⟩

theorem framed_buildEnd (s : State) : Framed s (buildEnd s) :=
  ⟨rfl, rfl, rfl, rfl, rfl, rfl, rfl, rfl, rfl, rfl, rfl, rfl, rfl, rfl, rfl, rfl, List.prefix_rfl⟩

theorem framed_coded (codes : List (Nat × CodeEntry)) (s : State) : Framed s (flagsCoded (setCodes codes s)) :=
  ⟨rfl, rfl, rfl, rfl, rfl, rfl, rfl, rfl, rfl, rfl, rfl, rfl, rfl, rfl, rfl, rfl, List.prefix_rfl⟩

theorem framed_hdrBitsZero (s : State) : Framed s (hdrBitsZero s) :=
  ⟨rfl, rfl, rfl, rfl, rfl, rfl, rfl, rfl, rfl, rfl, rfl, rfl, rfl, rfl, rfl, rfl, List.prefix_rfl⟩

theorem framed_outWrite (n : Nat) (v : BitVec n) (s : State) : Framed s (outWrite n v s) :=
  ⟨rfl, rfl, rfl, rfl, rfl, rfl, rfl, rfl, rfl, rfl, rfl, rfl, rfl, rfl, rfl, rfl, List.prefix_append _ _⟩

theorem framed_addHdrBits (n : Word) (s : State) : Framed s (addHdrBits n s) :=
  ⟨rfl, rfl, rfl, rfl, rfl, rfl, rfl, rfl, rfl, rfl, rfl, rfl, rfl, rfl, rfl, rfl, List.prefix_rfl⟩

theorem framed_headerWritten (s : State) : Framed s (flagsHeaderWritten s) :=
  ⟨rfl, rfl, rfl, rfl, rfl, rfl, rfl, rfl, rfl, rfl, rfl, rfl, rfl, rfl, rfl, rfl, List.prefix_rfl⟩

theorem framed_encodeStart (s : State) : Framed s (encodeStart s) :=
  ⟨rfl, rfl, rfl, rfl, rfl, rfl, rfl, rfl, rfl, rfl, rfl, rfl, rfl, rfl, rfl, rfl, List.prefix_rfl⟩

theorem framed_outFlush (s : State) : Framed s (outFlush s) :=
  ⟨rfl, rfl, rfl, rfl, rfl, rfl, rfl, rfl, rfl, rfl, rfl, rfl, rfl, rfl, rfl, rfl, List.prefix_append _ _⟩

theorem framed_encCountUp (s : State) : Framed s (encCountUp s) :=
  ⟨rfl, rfl, rfl, rfl, rfl, rfl, rfl, rfl, rfl, rfl, rfl, rfl, rfl, rfl, rfl, rfl, List.prefix_rfl⟩

theorem framed_headerStart (s : State) : Framed s (headerStart s) :=
  ⟨rfl, rfl, rfl, rfl, rfl, rfl, rfl, rfl, rfl, rfl, rfl, rfl, rfl, rfl, rfl, rfl, List.prefix_rfl⟩

theorem framed_countHdrBits (n : Word) (s : State) : Framed s (countHdrBits n s) :=
  ⟨rfl, rfl, rfl, rfl, rfl, rfl, rfl, rfl, rfl, rfl, rfl, rfl, rfl, rfl, rfl, rfl, List.prefix_rfl⟩

theorem framed_setNode (i : NodeIx) (n : Node) (s : State) : Framed s (setNode i n s) :=
  ⟨rfl, rfl, rfl, rfl, rfl, rfl, rfl, rfl, rfl, rfl, rfl, rfl, rfl, rfl, rfl, rfl, List.prefix_rfl⟩

theorem framed_headerRead (root : NodeIx) (s : State) : Framed s (flagsHeaderRead (setRoot root s)) :=
  ⟨rfl, rfl, rfl, rfl, rfl, rfl, rfl, rfl, rfl, rfl, rfl, rfl, rfl, rfl, rfl, rfl, List.prefix_rfl⟩

theorem framed_decodeStart (s : State) : Framed s (decodeStart s) :=
  ⟨rfl, rfl, rfl, rfl, rfl, rfl, rfl, rfl, rfl, rfl, rfl, rfl, rfl, rfl, rfl, rfl, List.prefix_rfl⟩

theorem framed_decCountUp (s : State) : Framed s (decCountUp s) :=
  ⟨rfl, rfl, rfl, rfl, rfl, rfl, rfl, rfl, rfl, rfl, rfl, rfl, rfl, rfl, rfl, rfl, List.prefix_rfl⟩

theorem framed_cleared (s : State) : Framed s (cleared s) :=
  ⟨rfl, rfl, rfl, rfl, rfl, rfl, rfl, rfl, rfl, rfl, rfl, rfl, rfl, rfl, rfl, rfl, List.prefix_rfl⟩

/-- The run of each command, preconditions included (40_control R132, R133). -/
def runOf (i : Instr) (s : State) : Res Unit :=
  match i with
  | .nop         => checked .nop runNop s
  | .clear       => checked .clear runClear s
  | .count       => checked .count runCount s
  | .build       => checked .build runBuild s
  | .gencode     => checked .gencode runGencode s
  | .writeHeader => checked .writeHeader runWriteHeader s
  | .encode      => checked .encode runEncode s
  | .compress    => checked .compress runCompress s
  | .readHeader  => checked .readHeader runReadHeader s
  | .decodeBody  => checked .decodeBody runDecodeBody s
  | .decompress  => checked .decompress runDecompress s

theorem exec_eq (i : Instr) (s : State) : exec i s = complete (runOf i s) := by cases i <;> rfl

/-- No command writes the protocol fields, IRQ_EN, IDX, the bytes of IN or the model's own queues, and OUT only grows. -/
theorem framed_runOf (i : Instr) (s : State) : (runOf i s).Sat (Framed s) := by
  have hR := later_framed
  have k1 : KeepsCount Framed := { inMove := framed_inMove, draw := framed_draw, countStart := framed_countStart, countByte := framed_countByte, countEnd := framed_countEnd }
  have k2 : KeepsBuild Framed := { buildStart := framed_buildStart, alloc := framed_alloc, buildEnd := framed_buildEnd }
  have k3 : KeepsHeader Framed := { hdrBitsZero := framed_hdrBitsZero, outWrite := framed_outWrite, addHdrBits := framed_addHdrBits, headerWritten := framed_headerWritten }
  have k4 : KeepsEncode Framed := { inMove := framed_inMove, draw := framed_draw, encodeStart := framed_encodeStart, outWrite := framed_outWrite, outFlush := framed_outFlush, encCountUp := framed_encCountUp }
  have k5 : KeepsParse Framed := { inMove := framed_inMove, draw := framed_draw, headerStart := framed_headerStart, countHdrBits := framed_countHdrBits, alloc := framed_alloc, setNode := framed_setNode, headerRead := framed_headerRead }
  have k6 : KeepsDecode Framed := { inMove := framed_inMove, draw := framed_draw, decodeStart := framed_decodeStart, outWrite := framed_outWrite, outFlush := framed_outFlush, decCountUp := framed_decCountUp }
  cases i
  · exact sat_checked hR (hR.refl s)
  · exact sat_checked hR (framed_cleared s)
  · exact sat_checked hR (sat_count hR k1 s)
  · exact sat_checked hR (sat_build hR k2 s)
  · exact sat_checked hR (sat_gencode framed_coded s)
  · exact sat_checked hR (sat_writeHeader hR k3 s)
  · exact sat_checked hR (sat_encode hR k4 s)
  · exact sat_checked hR (sat_compress hR framed_cleared k1 k2 framed_coded k3 k4 s)
  · exact sat_checked hR (sat_readHeader hR k5 s)
  · exact sat_checked hR (sat_decodeBody hR k6 s)
  · exact sat_checked hR (sat_decompress hR framed_cleared k5 k6 s)

/-! ### What each command leaves alone -/

/-- The memories, the node store's registers, the count registers and the streams, one after the other. -/
structure Kept where
  freq : Bool := true
  nodes : Bool := true
  tree : Bool := true
  codes : Bool := true
  inCount : Bool := true
  encCount : Bool := true
  decCount : Bool := true
  outBits : Bool := true
  hdrBits : Bool := true
  out : Bool := true
  inPos : Bool := true

/-- Every field that `k` names is the same (`tree` is NODE_COUNT and root). -/
structure Kept.Rel (k : Kept) (s t : State) : Prop where
  freq : k.freq = true → t.freq = s.freq
  nodes : k.nodes = true → t.nodes = s.nodes
  nodeCount : k.tree = true → t.nodeCount = s.nodeCount
  root : k.tree = true → t.root = s.root
  codes : k.codes = true → t.codes = s.codes
  inCount : k.inCount = true → t.inCount = s.inCount
  encCount : k.encCount = true → t.encCount = s.encCount
  decCount : k.decCount = true → t.decCount = s.decCount
  outBits : k.outBits = true → t.outBits = s.outBits
  hdrBits : k.hdrBits = true → t.hdrBits = s.hdrBits
  out : k.out = true → t.out = s.out
  inPos : k.inPos = true → t.inPos = s.inPos

theorem later_kept (k : Kept) : Later k.Rel where
  refl _ := ⟨fun _ => rfl, fun _ => rfl, fun _ => rfl, fun _ => rfl, fun _ => rfl, fun _ => rfl, fun _ => rfl, fun _ => rfl, fun _ => rfl,
    fun _ => rfl, fun _ => rfl, fun _ => rfl⟩
  trans h1 h2 :=
    ⟨fun e => (h2.freq e).trans (h1.freq e), fun e => (h2.nodes e).trans (h1.nodes e), fun e => (h2.nodeCount e).trans (h1.nodeCount e),
      fun e => (h2.root e).trans (h1.root e), fun e => (h2.codes e).trans (h1.codes e), fun e => (h2.inCount e).trans (h1.inCount e),
      fun e => (h2.encCount e).trans (h1.encCount e), fun e => (h2.decCount e).trans (h1.decCount e),
      fun e => (h2.outBits e).trans (h1.outBits e), fun e => (h2.hdrBits e).trans (h1.hdrBits e), fun e => (h2.out e).trans (h1.out e),
      fun e => (h2.inPos e).trans (h1.inPos e)⟩

/-- What each command leaves alone, whether it ends well or not. -/
def keptBy : Instr → Kept
  | .nop         => {}
  | .clear       => { tree := false, inCount := false, encCount := false, decCount := false, outBits := false, hdrBits := false }
  | .count       => { freq := false, inCount := false, inPos := false }
  | .build       => { nodes := false, tree := false }
  | .gencode     => { codes := false }
  | .writeHeader => { outBits := false, hdrBits := false, out := false }
  | .encode      => { encCount := false, outBits := false, out := false, inPos := false }
  | .compress    => { freq := false, nodes := false, tree := false, codes := false, inCount := false, encCount := false,
                      decCount := false, outBits := false, hdrBits := false, out := false, inPos := false }
  | .readHeader  => { nodes := false, tree := false, hdrBits := false, inPos := false }
  | .decodeBody  => { decCount := false, outBits := false, out := false, inPos := false }
  | .decompress  => { nodes := false, tree := false, inCount := false, encCount := false, decCount := false, outBits := false,
                      hdrBits := false, out := false, inPos := false }

theorem no {P : Prop} (h : false = true) : P := absurd h (by decide)

theorem kept_runOf (i : Instr) (s : State) : (runOf i s).Sat ((keptBy i).Rel s) := by
  cases i
  · exact sat_checked (later_kept _) ((later_kept _).refl s)
  · exact sat_checked (later_kept _) (show (keptBy .clear).Rel s (cleared s) from ⟨fun _ => rfl, fun _ => rfl, no, no, fun _ => rfl, no, no, no, no, no, fun _ => rfl, fun _ => rfl⟩)
  · exact sat_checked (later_kept _) (sat_count (later_kept _) { inMove := fun _ _ => ⟨no, fun _ => rfl, fun _ => rfl, fun _ => rfl, fun _ => rfl, no, fun _ => rfl, fun _ => rfl, fun _ => rfl, fun _ => rfl, fun _ => rfl, no⟩, draw := fun _ => ⟨no, fun _ => rfl, fun _ => rfl, fun _ => rfl, fun _ => rfl, no, fun _ => rfl, fun _ => rfl, fun _ => rfl, fun _ => rfl, fun _ => rfl, no⟩, countStart := fun _ => ⟨no, fun _ => rfl, fun _ => rfl, fun _ => rfl, fun _ => rfl, no, fun _ => rfl, fun _ => rfl, fun _ => rfl, fun _ => rfl, fun _ => rfl, no⟩, countByte := fun _ _ => ⟨no, fun _ => rfl, fun _ => rfl, fun _ => rfl, fun _ => rfl, no, fun _ => rfl, fun _ => rfl, fun _ => rfl, fun _ => rfl, fun _ => rfl, no⟩, countEnd := fun _ => ⟨no, fun _ => rfl, fun _ => rfl, fun _ => rfl, fun _ => rfl, no, fun _ => rfl, fun _ => rfl, fun _ => rfl, fun _ => rfl, fun _ => rfl, no⟩ } s)
  · exact sat_checked (later_kept _) (sat_build (later_kept _) { buildStart := fun _ => ⟨fun _ => rfl, no, no, no, fun _ => rfl, fun _ => rfl, fun _ => rfl, fun _ => rfl, fun _ => rfl, fun _ => rfl, fun _ => rfl, fun _ => rfl⟩, alloc := fun _ _ => ⟨fun _ => rfl, no, no, no, fun _ => rfl, fun _ => rfl, fun _ => rfl, fun _ => rfl, fun _ => rfl, fun _ => rfl, fun _ => rfl, fun _ => rfl⟩, buildEnd := fun _ => ⟨fun _ => rfl, no, no, no, fun _ => rfl, fun _ => rfl, fun _ => rfl, fun _ => rfl, fun _ => rfl, fun _ => rfl, fun _ => rfl, fun _ => rfl⟩ } s)
  · exact sat_checked (later_kept _) (sat_gencode (fun _ _ => ⟨fun _ => rfl, fun _ => rfl, fun _ => rfl, fun _ => rfl, no, fun _ => rfl, fun _ => rfl, fun _ => rfl, fun _ => rfl, fun _ => rfl, fun _ => rfl, fun _ => rfl⟩) s)
  · exact sat_checked (later_kept _) (sat_writeHeader (later_kept _) { hdrBitsZero := fun _ => ⟨fun _ => rfl, fun _ => rfl, fun _ => rfl, fun _ => rfl, fun _ => rfl, fun _ => rfl, fun _ => rfl, fun _ => rfl, no, no, no, fun _ => rfl⟩, outWrite := fun _ _ _ => ⟨fun _ => rfl, fun _ => rfl, fun _ => rfl, fun _ => rfl, fun _ => rfl, fun _ => rfl, fun _ => rfl, fun _ => rfl, no, no, no, fun _ => rfl⟩, addHdrBits := fun _ _ => ⟨fun _ => rfl, fun _ => rfl, fun _ => rfl, fun _ => rfl, fun _ => rfl, fun _ => rfl, fun _ => rfl, fun _ => rfl, no, no, no, fun _ => rfl⟩, headerWritten := fun _ => ⟨fun _ => rfl, fun _ => rfl, fun _ => rfl, fun _ => rfl, fun _ => rfl, fun _ => rfl, fun _ => rfl, fun _ => rfl, no, no, no, fun _ => rfl⟩ } s)
  · exact sat_checked (later_kept _) (sat_encode (later_kept _) { inMove := fun _ _ => ⟨fun _ => rfl, fun _ => rfl, fun _ => rfl, fun _ => rfl, fun _ => rfl, fun _ => rfl, no, fun _ => rfl, no, fun _ => rfl, no, no⟩, draw := fun _ => ⟨fun _ => rfl, fun _ => rfl, fun _ => rfl, fun _ => rfl, fun _ => rfl, fun _ => rfl, no, fun _ => rfl, no, fun _ => rfl, no, no⟩, encodeStart := fun _ => ⟨fun _ => rfl, fun _ => rfl, fun _ => rfl, fun _ => rfl, fun _ => rfl, fun _ => rfl, no, fun _ => rfl, no, fun _ => rfl, no, no⟩, outWrite := fun _ _ _ => ⟨fun _ => rfl, fun _ => rfl, fun _ => rfl, fun _ => rfl, fun _ => rfl, fun _ => rfl, no, fun _ => rfl, no, fun _ => rfl, no, no⟩, outFlush := fun _ => ⟨fun _ => rfl, fun _ => rfl, fun _ => rfl, fun _ => rfl, fun _ => rfl, fun _ => rfl, no, fun _ => rfl, no, fun _ => rfl, no, no⟩, encCountUp := fun _ => ⟨fun _ => rfl, fun _ => rfl, fun _ => rfl, fun _ => rfl, fun _ => rfl, fun _ => rfl, no, fun _ => rfl, no, fun _ => rfl, no, no⟩ } s)
  · have hall : ∀ s t, (keptBy .compress).Rel s t := fun _ _ => ⟨no, no, no, no, no, no, no, no, no, no, no, no⟩
    cases runOf .compress s with
    | ok _ _ => exact hall _ _
    | raised _ _ _ _ => exact hall _ _
    | stuck _ => trivial
  · exact sat_checked (later_kept _) (sat_readHeader (later_kept _) { inMove := fun _ _ => ⟨fun _ => rfl, no, no, no, fun _ => rfl, fun _ => rfl, fun _ => rfl, fun _ => rfl, fun _ => rfl, no, fun _ => rfl, no⟩, draw := fun _ => ⟨fun _ => rfl, no, no, no, fun _ => rfl, fun _ => rfl, fun _ => rfl, fun _ => rfl, fun _ => rfl, no, fun _ => rfl, no⟩, headerStart := fun _ => ⟨fun _ => rfl, no, no, no, fun _ => rfl, fun _ => rfl, fun _ => rfl, fun _ => rfl, fun _ => rfl, no, fun _ => rfl, no⟩, countHdrBits := fun _ _ => ⟨fun _ => rfl, no, no, no, fun _ => rfl, fun _ => rfl, fun _ => rfl, fun _ => rfl, fun _ => rfl, no, fun _ => rfl, no⟩, alloc := fun _ _ => ⟨fun _ => rfl, no, no, no, fun _ => rfl, fun _ => rfl, fun _ => rfl, fun _ => rfl, fun _ => rfl, no, fun _ => rfl, no⟩, setNode := fun _ _ _ => ⟨fun _ => rfl, no, no, no, fun _ => rfl, fun _ => rfl, fun _ => rfl, fun _ => rfl, fun _ => rfl, no, fun _ => rfl, no⟩, headerRead := fun _ _ => ⟨fun _ => rfl, no, no, no, fun _ => rfl, fun _ => rfl, fun _ => rfl, fun _ => rfl, fun _ => rfl, no, fun _ => rfl, no⟩ } s)
  · exact sat_checked (later_kept _) (sat_decodeBody (later_kept _) { inMove := fun _ _ => ⟨fun _ => rfl, fun _ => rfl, fun _ => rfl, fun _ => rfl, fun _ => rfl, fun _ => rfl, fun _ => rfl, no, no, fun _ => rfl, no, no⟩, draw := fun _ => ⟨fun _ => rfl, fun _ => rfl, fun _ => rfl, fun _ => rfl, fun _ => rfl, fun _ => rfl, fun _ => rfl, no, no, fun _ => rfl, no, no⟩, decodeStart := fun _ => ⟨fun _ => rfl, fun _ => rfl, fun _ => rfl, fun _ => rfl, fun _ => rfl, fun _ => rfl, fun _ => rfl, no, no, fun _ => rfl, no, no⟩, outWrite := fun _ _ _ => ⟨fun _ => rfl, fun _ => rfl, fun _ => rfl, fun _ => rfl, fun _ => rfl, fun _ => rfl, fun _ => rfl, no, no, fun _ => rfl, no, no⟩, outFlush := fun _ => ⟨fun _ => rfl, fun _ => rfl, fun _ => rfl, fun _ => rfl, fun _ => rfl, fun _ => rfl, fun _ => rfl, no, no, fun _ => rfl, no, no⟩, decCountUp := fun _ => ⟨fun _ => rfl, fun _ => rfl, fun _ => rfl, fun _ => rfl, fun _ => rfl, fun _ => rfl, fun _ => rfl, no, no, fun _ => rfl, no, no⟩ } s)
  · exact sat_checked (later_kept _) (sat_decompress (later_kept _) (fun _ => ⟨fun _ => rfl, no, no, no, fun _ => rfl, no, no, no, no, no, no, no⟩)
      { inMove := fun _ _ => ⟨fun _ => rfl, no, no, no, fun _ => rfl, no, no, no, no, no, no, no⟩, draw := fun _ => ⟨fun _ => rfl, no, no, no, fun _ => rfl, no, no, no, no, no, no, no⟩, headerStart := fun _ => ⟨fun _ => rfl, no, no, no, fun _ => rfl, no, no, no, no, no, no, no⟩, countHdrBits := fun _ _ => ⟨fun _ => rfl, no, no, no, fun _ => rfl, no, no, no, no, no, no, no⟩, alloc := fun _ _ => ⟨fun _ => rfl, no, no, no, fun _ => rfl, no, no, no, no, no, no, no⟩, setNode := fun _ _ _ => ⟨fun _ => rfl, no, no, no, fun _ => rfl, no, no, no, no, no, no, no⟩, headerRead := fun _ _ => ⟨fun _ => rfl, no, no, no, fun _ => rfl, no, no, no, no, no, no, no⟩ }
      { inMove := fun _ _ => ⟨fun _ => rfl, no, no, no, fun _ => rfl, no, no, no, no, no, no, no⟩, draw := fun _ => ⟨fun _ => rfl, no, no, no, fun _ => rfl, no, no, no, no, no, no, no⟩, decodeStart := fun _ => ⟨fun _ => rfl, no, no, no, fun _ => rfl, no, no, no, no, no, no, no⟩, outWrite := fun _ _ _ => ⟨fun _ => rfl, no, no, no, fun _ => rfl, no, no, no, no, no, no, no⟩, outFlush := fun _ => ⟨fun _ => rfl, no, no, no, fun _ => rfl, no, no, no, no, no, no, no⟩, decCountUp := fun _ => ⟨fun _ => rfl, no, no, no, fun _ => rfl, no, no, no, no, no, no, no⟩ } s)

/-- Everything a completion can answer (40_control R131). -/
theorem complete_cases (r : Res Unit) :
    (∃ s1, r = .ok () s1 ∧ complete r = .next (retire { s1 with err := false })) ∨
    (∃ e info step s1, r = .raised e info step s1 ∧ complete r = .next (retire (enterError e info step s1))) ∨
    (∃ f, r = .stuck f ∧ complete r = .fault f) := by
  cases r with
  | ok a s1 => exact .inl ⟨s1, rfl, rfl⟩
  | raised e info step s1 => exact .inr (.inl ⟨e, info, step, s1, rfl, rfl⟩)
  | stuck f => exact .inr (.inr ⟨f, rfl, rfl⟩)

end Sys2Proof.Machine
end

