-- ==== Sys2Proof/Laws/Invariant.lean ====
section
/-! SUPPORT. What each command does to the invariant of Safety.lean. -/

set_option autoImplicit false

namespace Sys2Proof.Machine

/-- The invariant's part about memories, flags and IN: all of it that a command's run can change. -/
structure Store (s : State) : Prop where
  freqWf  : memWf freqDefault Config.alphabetSize s.freq = true
  nodesWf : memWf nodeDefault Config.nodeCap s.nodes = true
  codesWf : memWf codeDefault Config.alphabetSize s.codes = true
  inPosOk : s.inPos ≤ 8 * s.inBytes.length
  nodeCountOk : s.nodeCount.toNat ≤ Config.nodeCap
  srcTree : s.treeSrc = true → s.treeV = true
  codeTree : s.codeV = true → s.treeV = true ∧ s.treeSrc = false ∧ s.freqV = true
  builtFreq : s.treeV = true → s.treeSrc = false → s.freqV = true ∧ ∃ t, storedTree s = some t ∧ BuiltFor s t
  counted : s.freqV = true →
    freqAt s Config.pseudoEof = 1 ∧ freqTotal s = s.inCount.toNat + 1 ∧ s.inCount.toNat ≤ Config.countMax.toNat
  treeStored : s.treeV = true → ∃ t, storedTree s = some t ∧ t.leaves.length ≤ Config.alphabetSize
  coded : s.codeV = true → walkCodes s (Config.maxCodeLen + 1) s.root 0 0 [] = some s.codes

theorem Inv.store {s : State} (h : Inv s) : Store s :=
  ⟨h.freqWf, h.nodesWf, h.codesWf, h.inPosOk, h.nodeCountOk, h.srcTree, h.codeTree, h.builtFreq, h.counted, h.treeStored, h.coded⟩

/-- The invariant, from its parts. -/
theorem Store.inv {s : State} (h : Store s)
    (hb : ∀ w, s.pending = some w →
      s.done = false ∧ s.err = false ∧ s.errCode = 0 ∧ s.errStep = 0 ∧ s.errInfo = 0 ∧ s.lastOp = opField w)
    (he : s.err = true → s.done = true) (hc : s.errCode.toNat ≤ 9) : Inv s :=
  ⟨h.freqWf, h.nodesWf, h.codesWf, h.inPosOk, h.nodeCountOk, hb, he, hc, h.srcTree, h.codeTree, h.builtFreq, h.counted, h.treeStored,
    h.coded⟩

/-- Two states alike in what the store part reads. -/
structure SameStore (s s1 : State) : Prop where
  freq : s1.freq = s.freq
  nodes : s1.nodes = s.nodes
  codes : s1.codes = s.codes
  nodeCount : s1.nodeCount = s.nodeCount
  root : s1.root = s.root
  inCount : s1.inCount = s.inCount
  freqV : s1.freqV = s.freqV
  treeV : s1.treeV = s.treeV
  codeV : s1.codeV = s.codeV
  treeSrc : s1.treeSrc = s.treeSrc

theorem builtFor_congr {s s1 : State} (h : s1.freq = s.freq) {t : Tree} (hb : BuiltFor s t) : BuiltFor s1 t :=
  ⟨hb.1, hb.2.1, by rw [← buildLeaves_eq, buildLeaves_congr h, buildLeaves_eq]; exact hb.2.2.1, hb.2.2.2⟩

theorem freqAt_congr {s s1 : State} (h : s1.freq = s.freq) (k : Nat) : freqAt s1 k = freqAt s k := by rw [freqAt, freqAt, h]

theorem freqTotal_congr {s s1 : State} (h : s1.freq = s.freq) : freqTotal s1 = freqTotal s := by
  rw [freqTotal, freqTotal]; simp only [freqAt_congr h]

theorem Store.same {s s1 : State} (h : Store s) (e : SameStore s s1) (hp : s1.inPos ≤ 8 * s1.inBytes.length) : Store s1 := by
  obtain ⟨e1, e2, e3, e4, e5, e6, e7, e8, e9, e10⟩ := e
  refine ⟨by rw [e1]; exact h.freqWf, by rw [e2]; exact h.nodesWf, by rw [e3]; exact h.codesWf, hp, by rw [e4]; exact h.nodeCountOk,
    by rw [e8, e10]; exact h.srcTree, by rw [e7, e8, e9, e10]; exact h.codeTree, ?_, ?_, ?_, ?_⟩
  · rw [e7, e8, e10, storedTree_congr e2 e4 e5]
    intro h1 h2
    obtain ⟨h3, t, h4, h5⟩ := h.builtFreq h1 h2
    exact ⟨h3, t, h4, builtFor_congr e1 h5⟩
  · rw [e7, e6, freqAt_congr e1, freqTotal_congr e1]; exact h.counted
  · rw [e8, storedTree_congr e2 e4 e5]; exact h.treeStored
  · rw [e9, e5, e3, walkCodes_congr e2 e4]; exact h.coded

/-- With no flag set only the forms of the memories and the bounds are left. -/
theorem Store.dropped {s : State} (h1 : memWf freqDefault Config.alphabetSize s.freq = true)
    (h2 : memWf nodeDefault Config.nodeCap s.nodes = true) (h3 : memWf codeDefault Config.alphabetSize s.codes = true)
    (h4 : s.inPos ≤ 8 * s.inBytes.length) (h5 : s.nodeCount.toNat ≤ Config.nodeCap) : Store (flagsDropped s) :=
  ⟨h1, h2, h3, h4, h5, by simp, by simp, by simp, by simp, by simp, by simp⟩

/-- A run that keeps the store part, once an error has dropped the flags if there was one. -/
def Res.Keeps {α : Type} : Res α → Prop
  | .ok _ s         => Store s
  | .raised e _ _ s => Store (if e.isExecution then flagsDropped s else s)
  | .stuck _        => False

theorem Res.Keeps.andThen {α β : Type} {r : Res α} {f : α → State → Res β} (hr : r.Keeps)
    (hf : ∀ a s1, r = .ok a s1 → (f a s1).Keeps) : (r.andThen f).Keeps := by
  cases r with
  | ok a s1 => exact hf a s1 rfl
  | raised e info step s1 => exact hr
  | stuck f => exact hr

/-! ### COUNT -/

theorem sum_indicator (n b : Nat) : ((List.range n).map fun k => if b = k then 1 else 0).sum = if b < n then 1 else 0 := by
  induction n with
  | zero => rfl
  | succ n ih =>
    rw [List.range_succ, List.map_append, List.sum_append, ih]
    simp only [List.map_cons, List.map_nil, List.sum_cons, List.sum_nil]
    split <;> split <;> split <;> omega

theorem sum_occurrences (bytes : List Byte) :
    ((List.range 256).map fun k => occurrences bytes k).sum = bytes.length := by
  induction bytes with
  | nil =>
    rw [show (fun k => occurrences [] k) = fun _ => 0 from rfl, List.map_const', List.sum_replicate, smul_zero]
    rfl
  | cons b bytes ih =>
    simp only [occurrences_cons]
    rw [List.sum_map_add, ih, sum_indicator, if_pos b.isLt, List.length_cons]

theorem freqTotal_counts {s : State} {bytes : List Byte} (h : CountsOf bytes s.freq) (hl : bytes.length ≤ Config.countMax.toNat) :
    freqTotal s = bytes.length + 1 := by
  have hmax : Config.countMax.toNat = 4294967294 := rfl
  have e : ∀ k ∈ List.range 256, (freqAt s k).toNat = occurrences bytes k := by
    intro k hk
    rw [List.mem_range] at hk
    have := occurrences_le bytes k
    rw [freqAt, h, if_neg (by simp [Config.pseudoEof]; omega), BitVec.toNat_ofNat, Nat.mod_eq_of_lt (by omega)]
  rw [freqTotal, show Config.alphabetSize = 256 + 1 from rfl, List.range_succ, List.map_append, List.sum_append,
    List.map_congr_left e, sum_occurrences]
  simp only [List.map_cons, List.map_nil, List.sum_cons, List.sum_nil]
  rw [freqAt, show (256 : Nat) = Config.pseudoEof from rfl, h, if_pos rfl]
  rfl

theorem keeps_count {s : State} (h : Store s) : (runCount s).Keeps := by
  have hmax : Config.countMax.toNat = 4294967294 := rfl
  rcases Nat.lt_or_ge Config.countMax.toNat s.inBytes.length with hl | hl
  · obtain ⟨f, h1, h2⟩ := runCount_overflow s hl
    rw [h1]
    refine Store.dropped (s := countedTo f _ _ s) h2 h.nodesWf h.codesWf ?_ h.nodeCountOk
    show 8 * (Config.countMax.toNat + 1) ≤ 8 * s.inBytes.length
    omega
  · obtain ⟨f, h1, h2, h3⟩ := runCount_ok s hl
    rw [h1]
    refine ⟨h3, h.nodesWf, h.codesWf, ?_, h.nodeCountOk, by simp, by simp, by simp, fun _ => ⟨?_, ?_, ?_⟩, by simp, by simp⟩
    · show 8 * s.inBytes.length ≤ 8 * s.inBytes.length
      exact le_rfl
    · exact (h2 _).trans (if_pos rfl)
    · refine (freqTotal_counts (s := flagsCounted (countedTo f _ _ s)) (bytes := s.inBytes) h2 hl).trans ?_
      show _ = (BitVec.ofNat 32 s.inBytes.length).toNat + 1
      rw [BitVec.toNat_ofNat, Nat.mod_eq_of_lt (by omega)]
    · show (BitVec.ofNat 32 s.inBytes.length).toNat ≤ _
      rw [BitVec.toNat_ofNat, Nat.mod_eq_of_lt (by omega)]
      exact hl

/-! ### The other commands -/

theorem keeps_clear {s : State} (h : Store s) : (runClear s).Keeps :=
  ⟨h.freqWf, h.nodesWf, h.codesWf, h.inPosOk, by simp [cleared], by simp [cleared], by simp [cleared], by simp [cleared],
    by simp [cleared], by simp [cleared], by simp [cleared]⟩

theorem builtCount_le (s : State) : builtCount s ≤ Config.nodeCap := by
  have := buildLeaves_length_le s
  simp only [Config.alphabetSize, Config.nodeCap] at *
  rw [builtCount]; split <;> omega

theorem keeps_build {s : State} (h : Store s) (hf : s.freqV = true) : (runBuild s).Keeps := by
  obtain ⟨ns, t, h1, h2⟩ := runBuild_ok (s := s) (counts_buildLeaves (h.counted hf).1)
  rw [h1]
  refine ⟨h.freqWf, h2.wf h.nodesWf, h.codesWf, h.inPosOk, ?_, by simp [treeBuilt], by simp [treeBuilt],
    fun _ _ => ⟨hf, t, h2.stored, h2.builtFor⟩, fun _ => h.counted hf, fun _ => ⟨t, h2.stored, h2.leavesLe⟩, by simp [treeBuilt]⟩
  have := builtCount_le s
  show (BitVec.ofNat 10 (builtCount s)).toNat ≤ _
  rw [ofNat_toNat_of_lt (by simp only [Config.nodeCap] at this; omega)]
  exact this

theorem keeps_gencode {s : State} (h : Store s) (ht : s.treeV = true) (hs : s.treeSrc = false) : (runGencode s).Keeps := by
  obtain ⟨t, h1, _⟩ := h.treeStored ht
  obtain ⟨h3, h4⟩ := h.builtFreq ht hs
  obtain ⟨hh, hd⟩ := (storedTree_iff s t).1 h1
  rw [runGencode_ok h1]
  have ef : (flagsCoded (setCodes (codeTable t) s)).freq = s.freq := rfl
  have es : storedTree (flagsCoded (setCodes (codeTable t) s)) = storedTree s := storedTree_congr rfl rfl rfl
  refine ⟨h.freqWf, h.nodesWf, codeTable_wf h1, h.inPosOk, h.nodeCountOk, h.srcTree, fun _ => ⟨ht, hs, h3⟩, ?_, ?_, ?_, fun _ => ?_⟩
  · obtain ⟨t', h5, h6⟩ := h4
    exact fun _ _ => ⟨h3, t', es.trans h5, builtFor_congr ef h6⟩
  · rw [freqAt_congr ef, freqTotal_congr ef]; exact h.counted
  · rw [es]; exact h.treeStored
  · exact (walkCodes_congr (s1 := flagsCoded (setCodes (codeTable t) s)) (s := s) rfl rfl _ _ _ _ _).trans
      (walkCodes_eq hh (by omega) 0 0 [])

theorem sameStore_headed (t : Tree) (s : State) :
    SameStore s (headed t s) ∧ (headed t s).inPos = s.inPos ∧ (headed t s).inBytes = s.inBytes := by
  cases s
  exact ⟨⟨rfl, rfl, rfl, rfl, rfl, rfl, rfl, rfl, rfl, rfl⟩, rfl, rfl⟩

theorem keeps_writeHeader {s : State} (h : Store s) (ht : s.treeV = true) : (runWriteHeader s).Keeps := by
  obtain ⟨t, h1, _⟩ := h.treeStored ht
  rw [show runWriteHeader s = .ok () (headed t s) from runWriteHeader_ok h1]
  obtain ⟨h2, h3, h4⟩ := sameStore_headed t s
  exact h.same h2 (by rw [h3, h4]; exact h.inPosOk)

theorem sameStore_encode {s s1 : State} (h : EncodeTouched s s1) : SameStore s s1 ∧ s1.inPos ≤ 8 * s1.inBytes.length := by
  obtain ⟨bits, w, c, p, rfl, hp⟩ := h
  exact ⟨⟨rfl, rfl, rfl, rfl, rfl, rfl, rfl, rfl, rfl, rfl⟩, hp⟩

theorem keeps_encode {s : State} (h : Store s) : (runEncode s).Keeps := by
  rcases runEncode_cases s with ⟨s1, h1, h2⟩ | ⟨e, info, s1, h1, h2, h3⟩
  · rw [h1]
    obtain ⟨h4, h5⟩ := sameStore_encode h2
    exact h.same h4 h5
  · rw [h1]
    obtain ⟨h4, h5⟩ := sameStore_encode h3
    have hk := h.same h4 h5
    show Store (if e.isExecution then flagsDropped s1 else s1)
    rw [if_pos h2]
    exact Store.dropped hk.freqWf hk.nodesWf hk.codesWf hk.inPosOk hk.nodeCountOk

theorem keeps_readHeader {s : State} (h : Store s) : (runReadHeader s).Keeps := by
  rcases runReadHeader_cases s with ⟨t, rest, hu, hs, hn⟩ | ⟨e, info, s1, h1, h2, ⟨ns, c, hb, p, d, rfl, a, b, e1⟩, _⟩
  · obtain ⟨ns, h1, h2, h3, h4⟩ := runReadHeader_ok hu hs hn
    have hsz := t.size_eq
    have hcap : Config.nodeCap = 513 := rfl
    have halpha : Config.alphabetSize = 257 := rfl
    rw [h1]
    refine ⟨h.freqWf, h3 h.nodesWf, h.codesWf, ?_, ?_, by simp [headerLoaded], by simp [headerLoaded], by simp [headerLoaded],
      fun hf => h.counted hf, fun _ => ⟨t.shape, h4, ?_⟩, by simp [headerLoaded]⟩
    · have := unread_length s
      have h11 := t.header_length
      have hlp := t.leaves_pos
      rw [hu, List.length_append, List.length_append, bin_length] at this
      show s.inPos + 32 + t.header.length ≤ 8 * s.inBytes.length
      omega
    · show (BitVec.ofNat 10 t.size).toNat ≤ _
      rw [ofNat_toNat_of_lt (by omega)]; exact hn
    · rw [Tree.leaves_shape_length]; omega
  · rw [h1]
    show Store (if e.isExecution then _ else _)
    rw [if_pos h2]
    exact Store.dropped (s := { headerAt ns c hb p s with draws := d }) h.freqWf (a h.nodesWf) h.codesWf (e1 h.inPosOk) (b h.nodeCountOk)

theorem sameStore_decode {s s1 : State} (h : DecodeTouched s s1) (hp : s.inPos ≤ 8 * s.inBytes.length) :
    SameStore s s1 ∧ s1.inPos ≤ 8 * s1.inBytes.length := by
  obtain ⟨bits, w, c, p, d, rfl, h⟩ := h
  exact ⟨⟨rfl, rfl, rfl, rfl, rfl, rfl, rfl, rfl, rfl, rfl⟩, h hp⟩

theorem keeps_decodeBody {s : State} (h : Store s) (ht : s.treeV = true) : (runDecodeBody s).Keeps := by
  obtain ⟨t, h1, _⟩ := h.treeStored ht
  rcases runDecodeBody_cases h1 with ⟨s1, h2, h3⟩ | ⟨s1, h2, h3⟩
  · rw [h2]
    obtain ⟨h4, h5⟩ := sameStore_decode h3 h.inPosOk
    exact h.same h4 h5
  · rw [h2]
    obtain ⟨h4, h5⟩ := sameStore_decode h3 h.inPosOk
    have hk := h.same h4 h5
    exact Store.dropped hk.freqWf hk.nodesWf hk.codesWf hk.inPosOk hk.nodeCountOk

/-! ### The macros -/

theorem runCount_freqV {s s1 : State} (h : runCount s = .ok () s1) : s1.freqV = true := by
  rcases Nat.lt_or_ge Config.countMax.toNat s.inBytes.length with hl | hl
  · obtain ⟨f, h1, _⟩ := runCount_overflow s hl; rw [h1] at h; simp at h
  · obtain ⟨f, h1, _⟩ := runCount_ok s hl
    rw [h1] at h; injection h with _ h; subst h; rfl

theorem runBuild_treeV {s s1 : State} (h : runBuild s = .ok () s1) : s1.treeV = true ∧ s1.treeSrc = false := by
  unfold runBuild at h
  split at h
  · simp at h
  · injection h with _ h; subst h; exact ⟨rfl, rfl⟩

theorem runGencode_treeV {s s1 : State} (h : runGencode s = .ok () s1) : s1.treeV = s.treeV := by
  unfold runGencode at h
  split at h
  · simp at h
  · injection h with _ h; subst h; rfl

theorem runReadHeader_treeV {s s1 : State} (h : runReadHeader s = .ok () s1) : s1.treeV = true := by
  rcases runReadHeader_cases s with ⟨t, rest, hu, hs, hn⟩ | ⟨e, info, s1, h1, _⟩
  · obtain ⟨ns, h1, _⟩ := runReadHeader_ok hu hs hn
    rw [h1] at h; injection h with _ h; subst h; rfl
  · rw [h1] at h; simp [raise] at h

theorem keeps_compress {s : State} (h : Store s) : (runCompress s).Keeps := by
  have h0 : Store (cleared s) := keeps_clear h
  refine .andThen (keeps_clear h) fun _ s1 e1 => ?_
  injection e1 with _ e1; subst e1
  refine .andThen (keeps_count h0) fun _ s2 e2 => ?_
  have k2 := keeps_count h0; rw [e2] at k2
  refine .andThen (keeps_build k2 (runCount_freqV e2)) fun _ s3 e3 => ?_
  have k3 := keeps_build k2 (runCount_freqV e2); rw [e3] at k3
  have f3 := runBuild_treeV e3
  refine .andThen (keeps_gencode k3 f3.1 f3.2) fun _ s4 e4 => ?_
  have k4 := keeps_gencode k3 f3.1 f3.2; rw [e4] at k4
  have f4 := (runGencode_treeV e4).trans f3.1
  refine .andThen (keeps_writeHeader k4 f4) fun _ s5 e5 => ?_
  have k5 := keeps_writeHeader k4 f4; rw [e5] at k5
  exact keeps_encode k5

theorem keeps_decompress {s : State} (h : Store s) : (runDecompress s).Keeps := by
  have h0 : Store (cleared s) := keeps_clear h
  refine .andThen (keeps_clear h) fun _ s1 e1 => ?_
  injection e1 with _ e1; subst e1
  refine .andThen (keeps_readHeader h0) fun _ s2 e2 => ?_
  have k2 := keeps_readHeader h0; rw [e2] at k2
  exact keeps_decodeBody k2 (runReadHeader_treeV e2)

/-! ### The preconditions -/

theorem maskIf_eq_zero {c : Bool} {m : Word} (hm : m ≠ 0) : maskIf c m = 0 ↔ c = true := by
  cases c
  · simp only [maskIf]; exact ⟨fun h => absurd h hm, fun h => by simp at h⟩
  · exact ⟨fun _ => rfl, fun _ => rfl⟩

theorem missing_build {s : State} (h : missing .build s = 0) : s.freqV = true := (maskIf_eq_zero (by decide)).1 h

theorem missing_tree {s : State} (h : missing .writeHeader s = 0) : s.treeV = true := (maskIf_eq_zero (by decide)).1 h

theorem missing_encode {s : State} (h : missing .encode s = 0) : s.codeV = true := (maskIf_eq_zero (by decide)).1 h

theorem missing_gencode {s : State} (h : missing .gencode s = 0) : s.treeV = true ∧ s.treeSrc = false := by
  simp only [missing, maskIf] at h
  cases h1 : s.treeV <;> cases h2 : s.treeSrc <;> rw [h1, h2] at h <;> first | exact absurd h (by decide) | exact ⟨rfl, rfl⟩

theorem keeps_checked {i : Instr} {run : State → Res Unit} {s : State} (h : Store s) (hr : missing i s = 0 → (run s).Keeps) :
    (checked i run s).Keeps := by
  unfold checked
  split
  · exact hr ‹_›
  · exact h

/-- Every command keeps the store part, and none is stuck (R134). -/
theorem keeps_runOf (i : Instr) {s : State} (h : Store s) : (runOf i s).Keeps := by
  cases i
  · exact keeps_checked h fun _ => h
  · exact keeps_checked h fun _ => keeps_clear h
  · exact keeps_checked h fun _ => keeps_count h
  · exact keeps_checked h fun hm => keeps_build h (missing_build hm)
  · exact keeps_checked h fun hm => keeps_gencode h (missing_gencode hm).1 (missing_gencode hm).2
  · exact keeps_checked h fun hm => keeps_writeHeader h (missing_tree hm)
  · exact keeps_checked h fun _ => keeps_encode h
  · exact keeps_checked h fun _ => keeps_compress h
  · exact keeps_checked h fun _ => keeps_readHeader h
  · exact keeps_checked h fun hm => keeps_decodeBody h (missing_tree hm)
  · exact keeps_checked h fun _ => keeps_decompress h

end Sys2Proof.Machine
end

