-- ==== Sys2Proof/Laws/Agents.lean ====
section
/-! SUPPORT. What each agent's move does to the invariant of Safety.lean: the block's (40_control R131), the host's (30_encoding R113) and
reset's (70_reset R270). -/

set_option autoImplicit false

namespace Sys2Proof.Machine

theorem sameStore_refl (s : State) : SameStore s s := ⟨rfl, rfl, rfl, rfl, rfl, rfl, rfl, rfl, rfl, rfl⟩

theorem Err.code_le (e : Err) : e.code.toNat ≤ 9 := by cases e <;> decide

/-! ### The block -/

/-- A completion keeps the invariant, and is no stop. -/
theorem inv_complete {s : State} (h : Inv s) {r : Res Unit} (hk : r.Keeps) (hf : r.Sat (Framed s)) :
    ∃ t, complete r = .next t ∧ Inv t := by
  cases r with
  | ok a s1 =>
    have hs : Store s1 := hk
    have hfr : Framed s s1 := hf
    refine ⟨_, rfl, Store.inv (hs.same (s1 := retire { s1 with err := false }) ⟨rfl, rfl, rfl, rfl, rfl, rfl, rfl, rfl, rfl, rfl⟩
      hs.inPosOk) ?_ ?_ ?_⟩
    · intro w hw; simp at hw
    · intro _; rfl
    · show s1.errCode.toNat ≤ 9
      rw [hfr.errCode]; exact h.errCodeOk
  | raised e info step s1 =>
    have hs : Store (if e.isExecution then flagsDropped s1 else s1) := hk
    have he : enterError e info step s1 = { (if e.isExecution then flagsDropped s1 else s1) with
        err := true, errCode := e.code, errStep := step, errInfo := info } := by
      unfold enterError
      cases e.isExecution <;> rfl
    refine ⟨_, rfl, ?_⟩
    rw [he]
    generalize (if e.isExecution then flagsDropped s1 else s1) = s2 at hs
    refine Store.inv (hs.same ⟨rfl, rfl, rfl, rfl, rfl, rfl, rfl, rfl, rfl, rfl⟩ hs.inPosOk) ?_ ?_ ?_
    · intro w hw; simp at hw
    · intro _; rfl
    · exact e.code_le
  | stuck f => exact absurd hk id

/-- Every command, from a state that meets the invariant, completes in one that meets it. -/
theorem inv_exec (i : Instr) {s : State} (h : Inv s) : ∃ t, exec i s = .next t ∧ Inv t := by
  rw [exec_eq]
  exact inv_complete h (keeps_runOf i h.store) (framed_runOf i s)

theorem inv_completeIllegal (w : Word) {s : State} (h : Inv s) : ∃ t, completeIllegal w s = .next t ∧ Inv t :=
  inv_complete h (r := .raised .illegalCmd w (opField w) s) h.store (Framed.refl s)

theorem inv_blockMove {s : State} (h : Inv s) : ∃ t, blockMove s = .next t ∧ Inv t := by
  unfold blockMove
  split
  · exact ⟨s, rfl, h⟩
  · split
    · exact inv_exec _ h
    · exact inv_completeIllegal _ h

/-! ### The host -/

theorem inv_writeReg (r : Reg) (w : Word) {s : State} (h : Inv s) : Inv (writeReg r w s) := by
  have hst := h.store
  cases r
  case cmd =>
    show Inv (writeCmd w s)
    unfold writeCmd
    split
    · refine Store.inv (hst.same (s1 := { s with ign := true }) ⟨rfl, rfl, rfl, rfl, rfl, rfl, rfl, rfl, rfl, rfl⟩ h.inPosOk)
        h.busyOk h.errDone h.errCodeOk
    · refine Store.inv (hst.same (s1 := accept w s) ⟨rfl, rfl, rfl, rfl, rfl, rfl, rfl, rfl, rfl, rfl⟩ h.inPosOk) ?_ ?_ ?_
      · intro w' hw
        have : w = w' := by simpa using hw
        subst this
        exact ⟨rfl, rfl, rfl, rfl, rfl, rfl⟩
      · intro he; simp at he
      · simp
  case status =>
    refine Store.inv (hst.same (s1 := ackStatus w s) ⟨rfl, rfl, rfl, rfl, rfl, rfl, rfl, rfl, rfl, rfl⟩ h.inPosOk) ?_ ?_ h.errCodeOk
    · intro w' hw
      obtain ⟨h1, h2, h3, h4, h5, h6⟩ := h.busyOk w' hw
      exact ⟨by show (s.done && _) = false; rw [h1]; rfl, by show (s.err && _) = false; rw [h2]; rfl, h3, h4, h5, h6⟩
    · intro he
      obtain ⟨h1, h2⟩ := (Bool.and_eq_true _ _).mp (show (s.err && !w.getLsbD 1) = true from he)
      exact (Bool.and_eq_true _ _).mpr ⟨h.errDone h1, h2⟩
  case irqEn =>
    exact Store.inv (hst.same (s1 := writeIrqEn w s) ⟨rfl, rfl, rfl, rfl, rfl, rfl, rfl, rfl, rfl, rfl⟩ h.inPosOk)
      h.busyOk h.errDone h.errCodeOk
  case idx =>
    exact Store.inv (hst.same (s1 := writeIdx w s) ⟨rfl, rfl, rfl, rfl, rfl, rfl, rfl, rfl, rfl, rfl⟩ h.inPosOk)
      h.busyOk h.errDone h.errCodeOk
  all_goals exact h

theorem inv_memWrite (addr width : Nat) (w : Word) {s : State} (h : Inv s) : Inv (memWrite addr width w s) := by
  unfold memWrite
  split
  · split
    · exact inv_writeReg _ w h
    · exact h
  · exact h

theorem inv_setInPort {bytes : List Byte} {pos : Nat} {s t : State} (h : Inv s) (ht : setInPort bytes pos s = .next t) : Inv t := by
  unfold setInPort at ht
  split at ht
  · unfold whileIdle at ht
    split at ht
    · simp at ht
    · injection ht with ht; subst ht
      exact Store.inv (h.store.same (s1 := { s with inBytes := bytes, inPos := pos })
        ⟨rfl, rfl, rfl, rfl, rfl, rfl, rfl, rfl, rfl, rfl⟩ ‹_›) h.busyOk h.errDone h.errCodeOk
  · simp at ht

theorem inv_hostExec {i : HostInstr} {s t : State} (h : Inv s) (ht : hostExec i s = .next t) : Inv t := by
  cases i with
  | wr addr width v => injection ht with ht; subst ht; exact inv_memWrite addr width v h
  | rd addr width =>
    injection ht with ht; subst ht
    exact Store.inv (h.store.same (s1 := { s with reads := memRead addr width s :: s.reads })
      ⟨rfl, rfl, rfl, rfl, rfl, rfl, rfl, rfl, rfl, rfl⟩ h.inPosOk) h.busyOk h.errDone h.errCodeOk
  | poll addr mask value =>
    simp only [hostExec] at ht
    split at ht
    · injection ht with ht; subst ht; exact h
    · injection ht with ht; subst ht
      exact Store.inv (h.store.same (s1 := { s with host := .poll addr mask value :: s.host })
        ⟨rfl, rfl, rfl, rfl, rfl, rfl, rfl, rfl, rfl, rfl⟩ h.inPosOk) h.busyOk h.errDone h.errCodeOk
  | setIn bytes pos => exact inv_setInPort h ht
  | seekIn pos => exact inv_setInPort h ht
  | setOut bits =>
    simp only [hostExec, whileIdle] at ht
    split at ht
    · simp at ht
    · injection ht with ht; subst ht
      exact Store.inv (h.store.same (s1 := { s with out := bits }) ⟨rfl, rfl, rfl, rfl, rfl, rfl, rfl, rfl, rfl, rfl⟩ h.inPosOk)
        h.busyOk h.errDone h.errCodeOk

/-- The model's own queue and schedule do not enter the invariant. -/
theorem inv_queues {s : State} (h : Inv s) (host : List HostInstr) (schedule : List Agent) :
    Inv { s with host := host, schedule := schedule } :=
  Store.inv (h.store.same (s1 := { s with host := host, schedule := schedule })
    ⟨rfl, rfl, rfl, rfl, rfl, rfl, rfl, rfl, rfl, rfl⟩ h.inPosOk) h.busyOk h.errDone h.errCodeOk

theorem inv_hostMove {s t : State} (h : Inv s) (ht : hostMove s = .next t) : Inv t := by
  unfold hostMove at ht
  split at ht
  · injection ht with ht; subst ht; exact h
  · rename_i i rest _
    exact inv_hostExec (inv_queues h rest s.schedule) ht

/-! ### Reset -/

theorem freeUpTo_le (room free : Nat) : freeUpTo room free ≤ room := by
  unfold freeUpTo
  split
  · omega
  · have := Nat.mod_lt free (y := room + 1) (by omega); omega

theorem inv_resetBlock {s : State} (h : s.inPos ≤ 8 * s.inBytes.length) : Inv (resetBlock s) := by
  refine Store.inv ⟨rfl, rfl, rfl, h, by simp [resetBlock, State.reset], ?_, ?_, ?_, ?_, ?_, ?_⟩ ?_ ?_ ?_
  · intro h; simp [resetBlock, State.reset] at h
  · intro h; simp [resetBlock, State.reset] at h
  · intro h; simp [resetBlock, State.reset] at h
  · intro h; simp [resetBlock, State.reset] at h
  · intro h; simp [resetBlock, State.reset] at h
  · intro h; simp [resetBlock, State.reset] at h
  · intro w hw; simp [resetBlock, State.reset] at hw
  · intro he; simp [resetBlock, State.reset] at he
  · simp [resetBlock, State.reset]

/-- Reset leaves the invariant whatever state it finds, but for a position the host has put outside IN. -/
theorem inv_resetMove {s : State} (h : s.inPos ≤ 8 * s.inBytes.length) : Inv (resetMove s) := by
  unfold resetMove
  split
  · exact inv_resetBlock (freeUpTo_le _ _)
  · exact inv_resetBlock h

/-! ### Who moves -/

/-- The three moves a step can be (00_scope R14). -/
theorem step_cases (s : State) :
    (nextAgent s = .host ∧ step s = hostMove { s with schedule := s.schedule.tail }) ∨
    (nextAgent s = .block ∧ step s = blockMove { s with schedule := s.schedule.tail }) ∨
    (nextAgent s = .reset ∧ step s = .next (resetMove { s with schedule := s.schedule.tail })) := by
  unfold step
  cases h : nextAgent s with
  | host => exact .inl ⟨rfl, rfl⟩
  | block => exact .inr (.inl ⟨rfl, rfl⟩)
  | reset => exact .inr (.inr ⟨rfl, rfl⟩)

end Sys2Proof.Machine
end

