-- ==== Sys2Proof/Laws/Determinism.lean ====
section
/-! SUPPORT. BUILD is a function of the counts (41_encoder R157), and its weights are exact (R152). -/

set_option autoImplicit false

namespace Sys2Proof.Machine

/-! ### The merges are determined -/

theorem Before.asymm {s : State} {i j : NodeIx} (h : Before s i j) : ¬ Before s j i := by
  rw [before_iff, goesBefore_iff] at *
  omega

/-- The first two of an active set are determined by the nodes before. -/
theorem JoinsFirstTwo.unique {s s1 : State} {leaves : Nat} {k : NodeIx} (hs : SameBelow k.toNat s s1)
    (h : JoinsFirstTwo s leaves k) (h1 : JoinsFirstTwo s1 leaves k) : nodeAt s1 k = nodeAt s k := by
  obtain ⟨a, b, e, hab, ha, hb, hfa, hfb⟩ := h
  obtain ⟨a1, b1, e1, hab1, ha1, hb1, hfa1, hfb1⟩ := h1
  have haa : a = a1 := by
    by_contra hne
    have := hfa a1 (ha1.congr hs.symm) (Ne.symm hne)
    exact (this.congr hs ha.1 ha1.1).asymm (hfa1 a (ha.congr hs) hne)
  subst haa
  have hbb : b = b1 := by
    by_contra hne
    have := hfb b1 (hb1.congr hs.symm) hab1.symm (Ne.symm hne)
    exact (this.congr hs hb.1 hb1.1).asymm (hfb1 b (hb.congr hs) hab.symm hne)
  subst hbb
  rw [e, e1, hs a ha.1, hs b hb.1]

/-- Two builds over the same counts store the same nodes. -/
theorem Built.same {s s1 u u1 : State} {t t1 : Tree} (h : Built s u t) (h1 : Built s1 u1 t1) (hf : s1.freq = s.freq)
    (hne : buildLeaves s ≠ []) : SameBelow (builtCount s) u u1 := by
  have hl : buildLeaves s1 = buildLeaves s := buildLeaves_congr hf
  have hcount : builtCount s1 = builtCount s := by rw [builtCount, builtCount, hl]
  have hpos : 0 < (buildLeaves s).length := List.length_pos_iff.2 hne
  have hleaf : ∀ j : NodeIx, j.toNat < (buildLeaves s).length → nodeAt u1 j = nodeAt u j := by
    intro j hj
    rw [nodeAt, nodeAt, h.leavesAt _ hj, h1.leavesAt _ (by rw [hl]; exact hj), hl]
  by_cases h2 : 2 ≤ (buildLeaves s).length
  · have key : ∀ n, n ≤ builtCount s → SameBelow n u u1 := by
      intro n
      induction n with
      | zero => intro _ j hj; omega
      | succ n ih =>
        intro hn j hj
        by_cases hjn : j.toNat < n
        · exact ih (by omega) j hjn
        · have hjn : j.toNat = n := by omega
          by_cases hjl : j.toNat < (buildLeaves s).length
          · exact hleaf j hjl
          · have hj1 := h1.joins (by rw [hl]; exact h2) j (by rw [hl]; omega) (by rw [hcount]; omega)
            rw [hl] at hj1
            exact JoinsFirstTwo.unique (by rw [hjn]; exact ih (by omega)) (h.joins h2 j (by omega) (by omega)) hj1
    exact key _ le_rfl
  · obtain ⟨n, hn⟩ := List.length_eq_one_iff.1 (show (buildLeaves s).length = 1 by omega)
    obtain ⟨k, _, _, rfl⟩ := mem_buildLeaves (s := s) (n := n) (by rw [hn]; simp)
    obtain ⟨_, a1, a2⟩ := h.wrap _ _ hn
    obtain ⟨_, b1, b2⟩ := h1.wrap _ _ (hl.trans hn)
    have hc : builtCount s = 3 := by rw [builtCount, hn]; rfl
    intro j hj
    rw [hc] at hj
    have : j.toNat = 0 ∨ j = 1 ∨ j = 2 := by
      rcases Nat.lt_or_ge j.toNat 1 with h0 | h0
      · exact .inl (by omega)
      · rcases Nat.lt_or_ge j.toNat 2 with h3 | h3
        · exact .inr (.inl (BitVec.eq_of_toNat_eq (by show j.toNat = 1; omega)))
        · exact .inr (.inr (BitVec.eq_of_toNat_eq (by show j.toNat = 2; omega)))
    rcases this with h0 | rfl | rfl
    · exact hleaf j (by omega)
    · rw [a1, b1]
    · rw [a2, b2]

theorem walkNode_same {u u1 : State} (hc : u1.nodeCount = u.nodeCount) (hs : SameBelow u.nodeCount.toNat u u1) (i : NodeIx) :
    walkNode u1 i = walkNode u i := by
  unfold walkNode
  rw [hc]
  by_cases h : i < u.nodeCount ∧ i.toNat < Config.nodeCap
  · rw [if_pos h, if_pos h, hs i h.1]
  · rw [if_neg h, if_neg h]

theorem treeAt_same {u u1 : State} (hc : u1.nodeCount = u.nodeCount) (hs : SameBelow u.nodeCount.toNat u u1) (d : Nat) (i : NodeIx) :
    treeAt u1 d i = treeAt u d i := by
  induction d generalizing i with
  | zero => rfl
  | succ d ih => simp only [treeAt, walkNode_same hc hs, ih]

/-- Two builds over the same counts build the same tree. -/
theorem Built.sameTree {s s1 : State} {ns ns1 : List (Nat × Node)} {t t1 : Tree} (h : Built s (treeBuilt ns s) t)
    (h1 : Built s1 (treeBuilt ns1 s1) t1) (hf : s1.freq = s.freq) (hne : buildLeaves s ≠ []) : t1 = t := by
  have hcount : builtCount s1 = builtCount s := by rw [builtCount, builtCount, buildLeaves_congr hf]
  have hcn : (treeBuilt ns1 s1).nodeCount = (treeBuilt ns s).nodeCount := by
    show BitVec.ofNat 10 (builtCount s1) = BitVec.ofNat 10 (builtCount s)
    rw [hcount]
  have hr : (treeBuilt ns1 s1).root = (treeBuilt ns s).root := by
    show BitVec.ofNat 10 (builtCount s1 - 1) = BitVec.ofNat 10 (builtCount s - 1)
    rw [hcount]
  have hle := builtCount_le s
  have hs : SameBelow (treeBuilt ns s).nodeCount.toNat (treeBuilt ns s) (treeBuilt ns1 s1) := by
    show SameBelow (BitVec.ofNat 10 (builtCount s)).toNat _ _
    rw [ofNat_toNat_of_lt (by simp only [Config.nodeCap] at hle; omega)]
    exact h.same h1 hf hne
  have e1 := h.stored
  have e2 := h1.stored
  rw [storedTree, hr, treeAt_same hcn hs, ← storedTree, e1] at e2
  exact (Option.some.inj e2).symm

/-- Two compressions of the same bytes build the same tree. -/
theorem Compressed.sameTree {s s1 : State} {f f1 : List (Nat × Word)} {ns ns1 : List (Nat × Node)} {t t1 : Tree}
    (h : Compressed s f ns t) (h1 : Compressed s1 f1 ns1 t1) (hb : s1.inBytes = s.inBytes) : t1 = t := by
  have hf : f1 = f := memWf_ext h1.freqWf h.freqWf fun k => by rw [h1.counts k, h.counts k, hb]
  refine h.built.sameTree h1.built hf ?_
  exact counts_buildLeaves ((h.counts _).trans (if_pos rfl))

/-! ### Weights are exact -/

/-- The sum of the weights on the leaves. -/
def leafTotal (l : List Node) : Nat := (l.map fun n => n.weight.toNat).sum

theorem weight_exact (t : Tree) (h : t.weightsAdd = true) (hlt : leafTotal t.leaves < 2 ^ 32) :
    t.weight.toNat = leafTotal t.leaves := by
  induction t with
  | leaf sym w => simp [Tree.weight, leafTotal, Tree.leaves, Node.weight]
  | fork w l r ihl ihr =>
    simp only [Tree.weightsAdd, Bool.and_eq_true, beq_iff_eq] at h
    obtain ⟨⟨hw, hl⟩, hr⟩ := h
    have e : leafTotal (Tree.fork w l r).leaves = leafTotal l.leaves + leafTotal r.leaves := by
      simp [leafTotal, Tree.leaves]
    rw [e] at hlt ⊢
    have h1 := ihl hl (by omega)
    have h2 := ihr hr (by omega)
    rw [Tree.weight, hw, BitVec.toNat_add, h1, h2, Nat.mod_eq_of_lt hlt]

theorem leafTotal_filter (l : List Node) : leafTotal (l.filter fun n => n.weight ≠ 0) = leafTotal l := by
  induction l with
  | nil => rfl
  | cons n l ih =>
    by_cases h : n.weight = 0
    · rw [List.filter_cons_of_neg (by rw [decide_eq_true_eq]; exact fun hn => hn h), ih]
      simp [leafTotal, h]
    · rw [List.filter_cons_of_pos (by rw [decide_eq_true_eq]; exact h)]
      simp only [leafTotal, List.map_cons, List.sum_cons] at ih ⊢
      rw [ih]

theorem leafTotal_counted (s : State) : leafTotal (countedLeaves s) = freqTotal s := by
  unfold leafTotal countedLeaves countedSyms freqTotal
  induction List.range Config.alphabetSize with
  | nil => rfl
  | cons k l ih =>
    by_cases h : freqAt s k = 0
    · rw [List.filter_cons_of_neg (by rw [decide_eq_true_eq]; exact fun hn => hn h), ih]
      simp [h]
    · rw [List.filter_cons_of_pos (by rw [decide_eq_true_eq]; exact h), List.map_cons, List.map_cons, List.sum_cons, ih,
        List.map_cons, List.sum_cons]
      rfl

/-- The weight of the root is the exact sum of all counts. -/
theorem builtFor_weight_total {s : State} {t : Tree} (h : BuiltFor s t) (hlt : freqTotal s < 2 ^ 32) :
    t.weight.toNat = freqTotal s := by
  have e : leafTotal t.leaves = freqTotal s := by
    rw [← leafTotal_filter, ← leafTotal_counted]
    exact (h.2.2.1.map _).sum_eq
  rw [weight_exact t h.2.2.2 (by rw [e]; exact hlt), e]

/-- … and it stands in the store at the root. -/
theorem stored_weight {s : State} {t : Tree} (h : storedTree s = some t) : (nodeAt s s.root).weight = t.weight := by
  obtain ⟨hh, _⟩ := (storedTree_iff s t).1 h
  rcases hh.walk with ⟨sym, w, rfl, hw⟩ | ⟨w, l, r, a, b, rfl, hw, _, _⟩
  · rw [(walkNode_eq_some hw).2]; rfl
  · rw [(walkNode_eq_some hw).2]; rfl

end Sys2Proof.Machine
end

