-- ==== Sys2Proof/Laws/Errors.lean ====
section
/-! SUPPORT. The errors a run can raise, with the component and the detail 60_exceptions R230 gives each. -/

set_option autoImplicit false

namespace Sys2Proof.Machine

/-- A row of R230's table: the ERR_STEP and the ERRINFO an execution-time error comes with, in the state it is raised in. -/
def ErrorRow (e : Err) (info : Word) (step : Nibble) (s : State) : Prop :=
  match e with
  | .malformedHeader => step = 0x8 ∧ (info = 0 ∨ info ≠ s.params.huffTag)
  | .truncatedStream => (step = 0x8 ∧ info = s.hdrBits) ∨ (step = 0x9 ∧ info = s.decCount)
  | .badSymbol       => step = 0x8 ∧ 257 ≤ info.toNat ∧ info.toNat ≤ 511
  | .treeOverflow    => step = 0x8 ∧ info = 513
  | .lengthOverflow  => step = 0x2 ∧ info = Config.countMax
  | .noCode          => step = 0x6 ∧ info.toNat < 256
  | .sourceMismatch  => step = 0x6 ∧ (info = s.inCount + 1 ∨ info = s.encCount)
  | .illegalCmd      => False
  | .sequenceErr     => False

theorem ErrorRow.isExecution {e : Err} {info : Word} {step : Nibble} {s : State} (h : ErrorRow e info step s) :
    e.isExecution = true := by
  cases e <;> first | rfl | exact h.elim

/-- A run raises no error but those of R230's execution rows. -/
def Res.Raises {α : Type} : Res α → Prop
  | .ok _ _              => True
  | .raised e info step s => ErrorRow e info step s
  | .stuck _             => True

theorem Res.Raises.andThen {α β : Type} {r : Res α} {f : α → State → Res β} (hr : r.Raises) (hf : ∀ a s1, (f a s1).Raises) :
    (r.andThen f).Raises := by
  cases r with
  | ok a s1 => exact hf a s1
  | raised _ _ _ _ => exact hr
  | stuck _ => trivial

theorem raises_countLoop (bytes : List Byte) (s : State) : (countLoop bytes s).Raises := by
  induction bytes generalizing s with
  | nil => trivial
  | cons b bytes ih =>
    rw [countLoop]
    split
    · trivial
    · split
      · rename_i h; exact ⟨rfl, h⟩
      · exact ih _

theorem raises_count (s : State) : (runCount s).Raises := .andThen (raises_countLoop _ _) fun _ _ => trivial

theorem raises_build (s : State) : (runBuild s).Raises := by
  unfold runBuild
  split <;> trivial

theorem raises_gencode (s : State) : (runGencode s).Raises := by
  unfold runGencode
  split <;> trivial

theorem raises_ser (d : Nat) (i : NodeIx) (s : State) : (ser d i s).Raises := by
  induction d generalizing i s with
  | zero => trivial
  | succ d ih =>
    rw [ser]
    split
    · trivial
    · exact .andThen (ih _ _) fun _ s1 => ih _ s1
    · trivial

theorem raises_writeHeader (s : State) : (runWriteHeader s).Raises := .andThen (raises_ser _ _ _) fun _ _ => trivial

theorem raises_encodeLoop (bytes : List Byte) (s : State) : (encodeLoop bytes s).Raises := by
  induction bytes generalizing s with
  | nil => trivial
  | cons b bytes ih =>
    rw [encodeLoop]
    split
    · trivial
    · rename_i r s1 _
      split
      · rename_i h; exact ⟨rfl, .inl (by rw [h])⟩
      · split
        · exact ih _
        · refine ⟨rfl, ?_⟩
          have := r.isLt
          rw [BitVec.toNat_setWidth]; omega

theorem raises_encode (s : State) : (runEncode s).Raises := by
  refine .andThen (raises_encodeLoop _ _) fun _ s1 => ?_
  unfold encodeEnd
  split
  · trivial
  · exact ⟨rfl, .inr rfl⟩

theorem raises_compress (s : State) : (runCompress s).Raises :=
  .andThen (r := runClear s) trivial fun _ s1 => .andThen (raises_count s1) fun _ s2 => .andThen (raises_build s2) fun _ s3 =>
    .andThen (raises_gencode s3) fun _ s4 => .andThen (raises_writeHeader s4) fun _ s5 => raises_encode s5

theorem raises_desNode (s : State) : (desNode s).Raises := by
  unfold desNode
  split
  · exact .inl ⟨rfl, rfl⟩
  · dsimp only
    split
    · exact ⟨rfl, rfl⟩
    · trivial

theorem raises_desLeaf (i : NodeIx) (s : State) : (desLeaf i s).Raises := by
  unfold desLeaf
  split
  · exact .inl ⟨rfl, rfl⟩
  · rename_i v s1 _
    dsimp only
    split
    · rename_i h
      have hlt := v.isLt
      have e : (BitVec.setWidth 32 v).toNat = v.toNat := by rw [BitVec.toNat_setWidth]; omega
      refine ⟨rfl, ?_, ?_⟩ <;> rw [e] <;> simp only [Config.pseudoEof] at h <;> omega
    · trivial

theorem raises_des (d : Nat) (s : State) : (des d s).Raises := by
  induction d generalizing s with
  | zero => exact ⟨rfl, rfl⟩
  | succ d ih =>
    rw [des]
    refine .andThen (raises_desNode s) fun bi s1 => ?_
    split
    · exact raises_desLeaf _ _
    · exact .andThen (ih s1) fun l s2 => .andThen (ih s2) fun r s3 => trivial

theorem raises_readHeader (s : State) : (runReadHeader s).Raises := by
  unfold runReadHeader
  split
  · exact ⟨rfl, .inl rfl⟩
  · split
    · exact .andThen (raises_des _ _) fun root s2 => trivial
    · rename_i h; exact ⟨rfl, .inr h⟩

theorem raises_decodeLoop (n : Nat) (cur : NodeIx) (s : State) : (decodeLoop n cur s).Raises := by
  induction n generalizing cur s with
  | zero => exact .inr ⟨rfl, rfl⟩
  | succ n ih =>
    rw [decodeLoop]
    split
    · exact .inr ⟨rfl, rfl⟩
    · split
      · trivial
      · split
        · trivial
        · exact ih _ _
        · split
          · trivial
          · exact ih _ _

theorem raises_decodeBody (s : State) : (runDecodeBody s).Raises := raises_decodeLoop _ _ _

theorem raises_decompress (s : State) : (runDecompress s).Raises :=
  .andThen (r := runClear s) trivial fun _ s1 => .andThen (raises_readHeader s1) fun _ s2 => raises_decodeBody s2

/-- The command itself, without its preconditions. -/
def bodyOf (i : Instr) (s : State) : Res Unit :=
  match i with
  | .nop         => runNop s
  | .clear       => runClear s
  | .count       => runCount s
  | .build       => runBuild s
  | .gencode     => runGencode s
  | .writeHeader => runWriteHeader s
  | .encode      => runEncode s
  | .compress    => runCompress s
  | .readHeader  => runReadHeader s
  | .decodeBody  => runDecodeBody s
  | .decompress  => runDecompress s

theorem raises_bodyOf (i : Instr) (s : State) : (bodyOf i s).Raises := by
  cases i
  · trivial
  · trivial
  · exact raises_count s
  · exact raises_build s
  · exact raises_gencode s
  · exact raises_writeHeader s
  · exact raises_encode s
  · exact raises_compress s
  · exact raises_readHeader s
  · exact raises_decodeBody s
  · exact raises_decompress s

theorem runOf_eq (i : Instr) (s : State) :
    runOf i s = if missing i s = 0 then bodyOf i s else raise .sequenceErr (missing i s) i s := by cases i <;> rfl

/-- Everything the completion of a command can be (40_control R131, R132, 60_exceptions R230, R233, R235). -/
theorem exec_cases (i : Instr) (s : State) :
    (missing i s ≠ 0 ∧ exec i s = .next (State.failedWith 9 (missing i s) (opcode i) s)) ∨
    (missing i s = 0 ∧ ∃ s1, bodyOf i s = .ok () s1 ∧ exec i s = .next s1.completed) ∨
    (missing i s = 0 ∧ ∃ e info step s1, bodyOf i s = .raised e info step s1 ∧ ErrorRow e info step s1 ∧
      exec i s = .next (State.failedWith e.code info step s1.flagless)) ∨
    (missing i s = 0 ∧ ∃ f, bodyOf i s = .stuck f ∧ exec i s = .fault f) := by
  rw [exec_eq, runOf_eq]
  by_cases hm : missing i s = 0
  · rw [if_pos hm]
    have hr := raises_bodyOf i s
    cases h : bodyOf i s with
    | ok a s1 => exact .inr (.inl ⟨hm, s1, rfl, rfl⟩)
    | raised e info step s1 =>
      rw [h] at hr
      refine .inr (.inr (.inl ⟨hm, e, info, step, s1, rfl, hr, ?_⟩))
      have hx : e.isExecution = true := ErrorRow.isExecution hr
      show Host.Outcome.next (retire (enterError e info step s1)) = _
      rw [enterError, if_pos hx]
      rfl
    | stuck f => exact .inr (.inr (.inr ⟨hm, f, rfl, rfl⟩))
  · rw [if_neg hm]
    exact .inl ⟨hm, rfl⟩

theorem framed_bodyOf (i : Instr) {s : State} (hm : missing i s = 0) : (bodyOf i s).Sat (Framed s) := by
  have h := framed_runOf i s
  rwa [runOf_eq, if_pos hm] at h

theorem kept_bodyOf (i : Instr) {s : State} (hm : missing i s = 0) : (bodyOf i s).Sat ((keptBy i).Rel s) := by
  have h := kept_runOf i s
  rwa [runOf_eq, if_pos hm] at h

end Sys2Proof.Machine
end

