-- ==== Sys2Proof/Laws/Protocol.lean ====
section
/-! SUPPORT. No command's run reads the protocol fields that acceptance and completion write (40_control R130, R131), so a macro and the
sequence of its components do the same (30_encoding R115). -/

set_option autoImplicit false

namespace Sys2Proof.Machine

/-- A result with every state mapped. -/
def Res.mapState {α : Type} (f : State → State) : Res α → Res α
  | .ok a s               => .ok a (f s)
  | .raised e info step s => .raised e info step (f s)
  | .stuck x              => .stuck x

theorem Res.mapState_andThen {α β : Type} {f : State → State} {r r1 : Res α} (hr : r1 = r.mapState f) {g g1 : α → State → Res β}
    (hg : ∀ a s, g1 a (f s) = (g a s).mapState f) : r1.andThen g1 = (r.andThen g).mapState f := by
  subst hr
  cases r with
  | ok a s => exact hg a s
  | raised _ _ _ _ => rfl
  | stuck _ => rfl

variable (p s : State)

theorem noData_protocol : noData (s.withProtocolOf p) = (noData s).withProtocolOf p := by
  unfold noData
  dsimp only
  rw [show (s.withProtocolOf p).inBytes = s.inBytes from rfl, show (s.withProtocolOf p).inPos = s.inPos from rfl]
  split <;> rfl

theorem inRead_protocol (n : Nat) : inRead n (s.withProtocolOf p) = ((inRead n s).1, (inRead n s).2.withProtocolOf p) := by
  unfold inRead
  rw [show (s.withProtocolOf p).inBytes = s.inBytes from rfl, show (s.withProtocolOf p).inPos = s.inPos from rfl]
  split
  · rw [noData_protocol]
  · rfl

theorem countLoop_protocol (bytes : List Byte) :
    countLoop bytes (s.withProtocolOf p) = (countLoop bytes s).mapState (·.withProtocolOf p) := by
  induction bytes generalizing s with
  | nil => rw [countLoop, countLoop, inRead_protocol]; rfl
  | cons b bytes ih =>
    rw [countLoop, countLoop, inRead_protocol]
    obtain ⟨r, s1⟩ := inRead 8 s
    cases r with
    | none => rfl
    | some r =>
      simp only
      rw [show (s1.withProtocolOf p).inCount = s1.inCount from rfl]
      split
      · rfl
      · exact ih (countByte r s1)

theorem runCount_protocol : runCount (s.withProtocolOf p) = (runCount s).mapState (·.withProtocolOf p) :=
  Res.mapState_andThen (countLoop_protocol p (countStart s) s.inBytes) fun _ _ => rfl

theorem allocAll_protocol (ns : List Node) : allocAll ns (s.withProtocolOf p) = (allocAll ns s).withProtocolOf p := by
  induction ns generalizing s with
  | nil => rfl
  | cons n ns ih => exact ih (alloc n s)

theorem popMin_protocol (A : List NodeIx) : popMin (s.withProtocolOf p) A = popMin s A := rfl

theorem mergeLoop_protocol (k : Nat) (A : List NodeIx) : mergeLoop k A (s.withProtocolOf p) = (mergeLoop k A s).withProtocolOf p := by
  induction k generalizing A s with
  | zero => rfl
  | succ k ih =>
    rw [mergeLoop, mergeLoop, popMin_protocol]
    cases popMin s A with
    | none => rfl
    | some x =>
      obtain ⟨a, A1⟩ := x
      simp only
      rw [popMin_protocol]
      cases popMin s A1 with
      | none => rfl
      | some y => exact ih (alloc (joined s a y.1) s) _

theorem growTree_protocol (k : Nat) : growTree k (s.withProtocolOf p) = (growTree k s).withProtocolOf p := by
  unfold growTree
  split
  · rfl
  · exact mergeLoop_protocol p s _ _

theorem runBuild_protocol : runBuild (s.withProtocolOf p) = (runBuild s).mapState (·.withProtocolOf p) := by
  have e : buildLeaves (s.withProtocolOf p) = buildLeaves s := rfl
  unfold runBuild
  rw [e]
  cases buildLeaves s with
  | nil => rfl
  | cons n ns =>
    simp only [Res.mapState]
    rw [show buildStart (s.withProtocolOf p) = (buildStart s).withProtocolOf p from rfl, allocAll_protocol, growTree_protocol]
    rfl

theorem walkCodes_protocol (d : Nat) (i : NodeIx) (len val : Nat) (codes : List (Nat × CodeEntry)) :
    walkCodes (s.withProtocolOf p) d i len val codes = walkCodes s d i len val codes := by
  induction d generalizing i len val codes with
  | zero => rfl
  | succ d ih =>
    simp only [walkCodes, ih]
    rfl

theorem runGencode_protocol : runGencode (s.withProtocolOf p) = (runGencode s).mapState (·.withProtocolOf p) := by
  unfold runGencode
  rw [walkCodes_protocol, show (s.withProtocolOf p).root = s.root from rfl]
  split <;> rfl

theorem ser_protocol (d : Nat) (i : NodeIx) : ser d i (s.withProtocolOf p) = (ser d i s).mapState (·.withProtocolOf p) := by
  induction d generalizing i s with
  | zero => rfl
  | succ d ih =>
    rw [ser, ser, show walkNode (s.withProtocolOf p) i = walkNode s i from rfl]
    cases walkNode s i with
    | none => rfl
    | some n =>
      cases n with
      | leaf sym w => rfl
      | internal w l r => exact Res.mapState_andThen (ih (addHdrBits 1 (outWrite 1 0 s)) l) fun _ s1 => ih s1 r

theorem runWriteHeader_protocol : runWriteHeader (s.withProtocolOf p) = (runWriteHeader s).mapState (·.withProtocolOf p) :=
  Res.mapState_andThen (ser_protocol p (outWrite 32 s.params.huffTag (hdrBitsZero s)) _ s.root) fun _ _ => rfl

theorem emitCode_protocol (c : CodeEntry) : emitCode c (s.withProtocolOf p) = (emitCode c s).withProtocolOf p := by
  unfold emitCode
  generalize (List.range c.len.toNat).reverse = l
  induction l generalizing s with
  | nil => rfl
  | cons k l ih => exact ih (outWrite 1 (BitVec.ofBool (c.val.getLsbD k)) s)

theorem encodeLoop_protocol (bytes : List Byte) :
    encodeLoop bytes (s.withProtocolOf p) = (encodeLoop bytes s).mapState (·.withProtocolOf p) := by
  induction bytes generalizing s with
  | nil => rw [encodeLoop, encodeLoop, inRead_protocol]; rfl
  | cons b bytes ih =>
    rw [encodeLoop, encodeLoop, inRead_protocol]
    obtain ⟨r, s1⟩ := inRead 8 s
    cases r with
    | none => rfl
    | some r =>
      simp only
      rw [show (s1.withProtocolOf p).inCount = s1.inCount from rfl, show (s1.withProtocolOf p).encCount = s1.encCount from rfl,
        show codeAt (s1.withProtocolOf p) r.toNat = codeAt s1 r.toNat from rfl]
      split
      · rfl
      · split
        · have e : encodeByte r (s1.withProtocolOf p) = (encodeByte r s1).withProtocolOf p := by
            rw [encodeByte, show codeAt (s1.withProtocolOf p) r.toNat = codeAt s1 r.toNat from rfl, emitCode_protocol]; rfl
          rw [e]
          exact ih (encodeByte r s1)
        · rfl

theorem encodeEnd_protocol : encodeEnd (s.withProtocolOf p) = (encodeEnd s).mapState (·.withProtocolOf p) := by
  unfold encodeEnd
  rw [show (s.withProtocolOf p).inCount = s.inCount from rfl, show (s.withProtocolOf p).encCount = s.encCount from rfl,
    show codeAt (s.withProtocolOf p) Config.pseudoEof = codeAt s Config.pseudoEof from rfl, emitCode_protocol]
  split <;> rfl

theorem runEncode_protocol : runEncode (s.withProtocolOf p) = (runEncode s).mapState (·.withProtocolOf p) :=
  Res.mapState_andThen (encodeLoop_protocol p (encodeStart s) s.inBytes) fun _ s1 => encodeEnd_protocol p s1

theorem desNode_protocol : desNode (s.withProtocolOf p) = (desNode s).mapState (·.withProtocolOf p) := by
  unfold desNode
  rw [inRead_protocol]
  obtain ⟨r, s1⟩ := inRead 1 s
  cases r with
  | none => rfl
  | some b =>
    dsimp only
    rw [show (countHdrBits 1 (s1.withProtocolOf p)).nodeCount = (countHdrBits 1 s1).nodeCount from rfl]
    split <;> rfl

theorem desLeaf_protocol (i : NodeIx) : desLeaf i (s.withProtocolOf p) = (desLeaf i s).mapState (·.withProtocolOf p) := by
  unfold desLeaf
  rw [inRead_protocol]
  obtain ⟨r, s1⟩ := inRead 9 s
  cases r with
  | none => rfl
  | some v =>
    dsimp only
    split <;> rfl

theorem des_protocol (d : Nat) : des d (s.withProtocolOf p) = (des d s).mapState (·.withProtocolOf p) := by
  induction d generalizing s with
  | zero => rfl
  | succ d ih =>
    rw [des, des]
    refine Res.mapState_andThen (desNode_protocol p s) fun bi s1 => ?_
    split
    · exact desLeaf_protocol p s1 bi.2
    · exact Res.mapState_andThen (ih s1) fun l s2 => Res.mapState_andThen (ih s2) fun r s3 => rfl

theorem runReadHeader_protocol : runReadHeader (s.withProtocolOf p) = (runReadHeader s).mapState (·.withProtocolOf p) := by
  unfold runReadHeader
  rw [show headerStart (s.withProtocolOf p) = (headerStart s).withProtocolOf p from rfl, inRead_protocol]
  obtain ⟨r, s1⟩ := inRead 32 (headerStart s)
  cases r with
  | none => rfl
  | some t =>
    dsimp only
    rw [show (s1.withProtocolOf p).params = s1.params from rfl]
    split
    · exact Res.mapState_andThen (des_protocol p s1 _) fun _ _ => rfl
    · rfl

theorem decodeLoop_protocol (n : Nat) (cur : NodeIx) :
    decodeLoop n cur (s.withProtocolOf p) = (decodeLoop n cur s).mapState (·.withProtocolOf p) := by
  induction n generalizing cur s with
  | zero => rw [decodeLoop, decodeLoop, inRead_protocol]; rfl
  | succ n ih =>
    rw [decodeLoop, decodeLoop, inRead_protocol]
    obtain ⟨r, s1⟩ := inRead 1 s
    cases r with
    | none => rfl
    | some b =>
      dsimp only
      rw [show cursorStep (b == 1) (s1.withProtocolOf p) cur = cursorStep (b == 1) s1 cur from rfl]
      cases cursorStep (b == 1) s1 cur with
      | none => rfl
      | some cur1 =>
        dsimp only
        rw [show walkNode (s1.withProtocolOf p) cur1 = walkNode s1 cur1 from rfl]
        cases walkNode s1 cur1 with
        | none => rfl
        | some n =>
          cases n with
          | internal w l r => exact ih s1 cur1
          | leaf sym w =>
            dsimp only
            split
            · rfl
            · exact ih (emitByte sym s1) s1.root

theorem runDecodeBody_protocol : runDecodeBody (s.withProtocolOf p) = (runDecodeBody s).mapState (·.withProtocolOf p) :=
  decodeLoop_protocol p (decodeStart s) _ s.root

end Sys2Proof.Machine
end

