-- ==== Sys2Proof/Laws/Macros.lean ====
section
/-! SUPPORT. A macro ends as the sequence of its components, issued one by one, ends (30_encoding R115). -/

set_option autoImplicit false

namespace Sys2Proof.Machine

theorem bodyOf_protocol (i : Instr) (hi : i ≠ .compress ∧ i ≠ .decompress) (p s : State) :
    bodyOf i (s.withProtocolOf p) = (bodyOf i s).mapState (·.withProtocolOf p) := by
  cases i
  · rfl
  · rfl
  · exact runCount_protocol p s
  · exact runBuild_protocol p s
  · exact runGencode_protocol p s
  · exact runWriteHeader_protocol p s
  · exact runEncode_protocol p s
  · exact absurd rfl hi.1
  · exact runReadHeader_protocol p s
  · exact runDecodeBody_protocol p s
  · exact absurd rfl hi.2

/-- The components of a macro, one after the other. -/
def chain : List Instr → State → Res Unit
  | [], s        => .ok () s
  | i :: rest, s => (bodyOf i s).andThen fun _ s1 => chain rest s1

/-- Every component of the chain finds its precondition met, and is no macro itself. -/
def Chainable : List Instr → State → Prop
  | [], _        => True
  | i :: rest, s => missing i s = 0 ∧ (i ≠ .compress ∧ i ≠ .decompress) ∧ ∀ s1, bodyOf i s = .ok () s1 → Chainable rest s1

theorem missing_protocol (i : Instr) (p s : State) : missing i (s.withProtocolOf p) = missing i s := by cases i <;> rfl

theorem chainable_protocol (l : List Instr) (p s : State) (h : Chainable l s) : Chainable l (s.withProtocolOf p) := by
  induction l generalizing s with
  | nil => trivial
  | cons i rest ih =>
    obtain ⟨h1, h2, h3⟩ := h
    refine ⟨by rw [missing_protocol]; exact h1, h2, fun s1 hs => ?_⟩
    rw [bodyOf_protocol i h2] at hs
    cases hb : bodyOf i s with
    | ok a s2 =>
      rw [hb] at hs
      injection hs with _ hs
      subst hs
      exact ih s2 (h3 s2 hb)
    | raised _ _ _ _ => rw [hb] at hs; simp [Res.mapState] at hs
    | stuck _ => rw [hb] at hs; simp [Res.mapState] at hs

/-- How a sequence of components ends, as its last LAST_OP apart. -/
def ended (op : Nibble) (r : Res Unit) : Host.Outcome State Fault Refusal :=
  match r with
  | .ok _ s               => .next { (accept 0 s).completed with lastOp := op }
  | .raised e info step s => .next { State.failedWith e.code info step (accept 0 s).flagless with lastOp := op }
  | .stuck f              => .fault f

theorem ended_protocol (op : Nibble) (p : State) (r : Res Unit) : ended op (r.mapState (·.withProtocolOf p)) = ended op r := by
  cases r <;> rfl

theorem chain_protocol (l : List Instr) (p s : State) (h : Chainable l s) :
    chain l (s.withProtocolOf p) = (chain l s).mapState (·.withProtocolOf p) := by
  induction l generalizing s with
  | nil => rfl
  | cons i rest ih =>
    obtain ⟨_, h2, h3⟩ := h
    rw [chain, chain, bodyOf_protocol i h2]
    cases hb : bodyOf i s with
    | ok a s1 => exact ih s1 (h3 s1 hb)
    | raised _ _ _ _ => rfl
    | stuck _ => rfl

/-- One component issued and completed. -/
theorem issue_eq (i : Instr) (hi : i ≠ .compress ∧ i ≠ .decompress) (s : State) (hb : s.busy = false) (hm : missing i s = 0) :
    exec i (memWrite 0x00 4 (encode i) s) =
      complete ((bodyOf i s).mapState (·.withProtocolOf (accept (encode i) s))) := by
  have e : memWrite 0x00 4 (encode i) s = s.withProtocolOf (accept (encode i) s) := by
    show writeCmd (encode i) s = _
    rw [writeCmd, if_neg (by rw [hb]; simp)]
    rfl
  rw [e, exec_eq, runOf_eq, missing_protocol, if_pos hm, bodyOf_protocol i hi]

/-- A sequence that is not empty ends as its chain does. -/
theorem runSequence_eq (op : Nibble) (i : Instr) (rest : List Instr) (s : State) (hb : s.busy = false)
    (h : Chainable (i :: rest) s) : withLastOp op (runSequence (i :: rest) s) = ended op (chain (i :: rest) s) := by
  induction rest generalizing i s with
  | nil =>
    obtain ⟨h1, h2, _⟩ := h
    have hr := raises_bodyOf i s
    rw [runSequence, issue_eq i h2 s hb h1, chain]
    cases hbody : bodyOf i s with
    | ok a s1 => rfl
    | raised e info step s1 =>
      rw [hbody] at hr
      show withLastOp op (match Host.Outcome.next (retire (enterError e info step (s1.withProtocolOf (accept (encode i) s)))) with
        | .next t    => if t.err then .next t else runSequence [] t
        | .fault f   => .fault f
        | .refused r => .refused r) = _
      rw [enterError, if_pos (ErrorRow.isExecution hr)]
      rfl
    | stuck f => rfl
  | cons j rest ih =>
    obtain ⟨h1, h2, h3⟩ := h
    have hr := raises_bodyOf i s
    rw [runSequence, issue_eq i h2 s hb h1, chain]
    cases hbody : bodyOf i s with
    | ok a s1 =>
      have hc : Chainable (j :: rest) s1 := h3 s1 hbody
      have e : (retire { s1.withProtocolOf (accept (encode i) s) with err := false }) =
          s1.withProtocolOf (retire { accept (encode i) s with err := false }) := rfl
      show withLastOp op (if (retire { s1.withProtocolOf (accept (encode i) s) with err := false }).err then _ else
        runSequence (j :: rest) (retire { s1.withProtocolOf (accept (encode i) s) with err := false })) = ended op (chain (j :: rest) s1)
      rw [if_neg (by simp), e, ih j _ (by rfl) (chainable_protocol _ _ _ hc), chain_protocol _ _ _ hc, ended_protocol]
    | raised e info step s1 =>
      rw [hbody] at hr
      show withLastOp op (match Host.Outcome.next (retire (enterError e info step (s1.withProtocolOf (accept (encode i) s)))) with
        | .next t    => if t.err then .next t else runSequence (j :: rest) t
        | .fault f   => .fault f
        | .refused r => .refused r) = _
      rw [enterError, if_pos (ErrorRow.isExecution hr)]
      rfl
    | stuck f => rfl

/-- The components of COMPRESS. -/
def compressSteps : List Instr := [.clear, .count, .build, .gencode, .writeHeader, .encode]

/-- The components of DECOMPRESS. -/
def decompressSteps : List Instr := [.clear, .readHeader, .decodeBody]

theorem andThen_ok_right (r : Res Unit) : (r.andThen fun _ s => .ok () s) = r := by cases r <;> rfl

theorem chain_compress (s : State) : chain compressSteps s = runCompress s := by
  have e : ∀ s, chain [.encode] s = runEncode s := fun s => andThen_ok_right (runEncode s)
  have e2 : (fun (_ : Unit) s => chain [.encode] s) = fun _ s => runEncode s := by funext _ s; exact e s
  rw [compressSteps]
  simp only [chain, bodyOf]
  rw [runCompress]
  simp only [andThen_ok_right]

theorem chain_decompress (s : State) : chain decompressSteps s = runDecompress s := by
  rw [decompressSteps]
  simp only [chain, bodyOf]
  rw [runDecompress]
  simp only [andThen_ok_right]

theorem chainable_compress (s : State) : Chainable compressSteps s := by
  refine ⟨rfl, by decide, fun s1 _ => ⟨rfl, by decide, fun s2 h2 => ⟨?_, by decide, fun s3 h3 => ⟨?_, by decide, fun s4 h4 =>
    ⟨?_, by decide, fun s5 h5 => ⟨?_, by decide, fun _ _ => trivial⟩⟩⟩⟩⟩⟩
  · exact (maskIf_eq_zero (by decide)).2 (runCount_freqV h2)
  · obtain ⟨h6, h7⟩ := runBuild_treeV h3
    rw [missing, h6, h7]; rfl
  · have := (runGencode_treeV h4).trans (runBuild_treeV h3).1
    exact (maskIf_eq_zero (by decide)).2 this
  · have hc : s4.codeV = true := by
      have h4' : runGencode s3 = .ok () s4 := h4
      unfold runGencode at h4'
      split at h4'
      · simp at h4'
      · injection h4' with _ h4'; subst h4'; rfl
    have hk := sat_writeHeader (R := fun a b => b.codeV = a.codeV) (later_field State.codeV)
      { hdrBitsZero := fun _ => rfl, outWrite := fun _ _ _ => rfl, addHdrBits := fun _ _ => rfl, headerWritten := fun _ => rfl } s4
    have h5' : runWriteHeader s4 = .ok () s5 := h5
    rw [h5'] at hk
    exact (maskIf_eq_zero (by decide)).2 (hk.trans hc)

theorem chainable_decompress (s : State) : Chainable decompressSteps s := by
  refine ⟨rfl, by decide, fun s1 _ => ⟨rfl, by decide, fun s2 h2 => ⟨?_, by decide, fun _ _ => trivial⟩⟩⟩
  exact (maskIf_eq_zero (by decide)).2 (runReadHeader_treeV h2)

/-- A macro, accepted and completed, ends as its chain of components does. -/
theorem macro_protocol {i : Instr} {l : List Instr} (hchain : ∀ s, chain l s = bodyOf i s) (hl : ∀ s, Chainable l s)
    (hm : ∀ s, missing i s = 0) (s : State) (hb : s.busy = false) :
    exec i (memWrite 0x00 4 (encode i) s) = ended (opcode i) (chain l s) := by
  have e : memWrite 0x00 4 (encode i) s = s.withProtocolOf (accept (encode i) s) := by
    show writeCmd (encode i) s = _
    rw [writeCmd, if_neg (by rw [hb]; simp)]
    rfl
  rw [e, exec_eq, runOf_eq, if_pos (hm _), ← hchain, chain_protocol l _ _ (hl s)]
  have hr := raises_bodyOf i s
  rw [← hchain] at hr
  cases h : chain l s with
  | ok a s1 => rfl
  | raised er info step s1 =>
    rw [h] at hr
    show Host.Outcome.next (retire (enterError er info step (s1.withProtocolOf (accept (encode i) s)))) = _
    rw [enterError, if_pos (ErrorRow.isExecution hr)]
    rfl
  | stuck f => rfl

end Sys2Proof.Machine
end

