-- ==== Sys2Proof/Laws/PerInstr.lean ====
section
/-! SUPPORT. Per-command statements: the word of each command (30_encoding R100 to R103). -/

set_option autoImplicit false

namespace Sys2Proof.Laws

/-- A command's word has RSV = 0, its OP field is the command's row of R101, and the decoder reads the command from it. -/
def Encoding.Statement (i : Instr) : Prop :=
  i.wf = true ∧ (cmdFields (encode i)).wf = true ∧ instrOfOp (opcode i) = some i ∧ decodeWord (encode i) = .ok i ∧
    decodeTableWord 32 (encode i).toNat = some i

theorem Encoding.nop : Encoding.Statement .nop := ⟨rfl, rfl, rfl, rfl, rfl⟩
theorem Encoding.clear : Encoding.Statement .clear := ⟨rfl, rfl, rfl, rfl, rfl⟩
theorem Encoding.count : Encoding.Statement .count := ⟨rfl, rfl, rfl, rfl, rfl⟩
theorem Encoding.build : Encoding.Statement .build := ⟨rfl, rfl, rfl, rfl, rfl⟩
theorem Encoding.gencode : Encoding.Statement .gencode := ⟨rfl, rfl, rfl, rfl, rfl⟩
theorem Encoding.writeHeader : Encoding.Statement .writeHeader := ⟨rfl, rfl, rfl, rfl, rfl⟩
theorem Encoding.encode : Encoding.Statement .encode := ⟨rfl, rfl, rfl, rfl, rfl⟩
theorem Encoding.compress : Encoding.Statement .compress := ⟨rfl, rfl, rfl, rfl, rfl⟩
theorem Encoding.readHeader : Encoding.Statement .readHeader := ⟨rfl, rfl, rfl, rfl, rfl⟩
theorem Encoding.decodeBody : Encoding.Statement .decodeBody := ⟨rfl, rfl, rfl, rfl, rfl⟩
theorem Encoding.decompress : Encoding.Statement .decompress := ⟨rfl, rfl, rfl, rfl, rfl⟩

end Sys2Proof.Laws
end

