-- ==== Sys2Proof/Laws/Unallocated.lean ====
section
/-! SUPPORT. The entries of NODE from `node_count` on, which 10_state R60 leaves open and the model keeps (log 16). -/

set_option autoImplicit false

namespace Sys2Proof.Machine

/-- The unallocated nodes of the later state hold what they held. -/
def TailKept (s s1 : State) : Prop := ∀ j, s1.nodeCount.toNat ≤ j → memGet nodeDefault s1.nodes j = memGet nodeDefault s.nodes j

/-- Nodes were only allocated, and rewritten only where allocated. -/
structure Grows (s s1 : State) : Prop where
  le : s.nodeCount.toNat ≤ s1.nodeCount.toNat
  cap : s1.nodeCount.toNat ≤ Config.nodeCap
  tail : TailKept s s1

theorem Grows.refl {s : State} (h : s.nodeCount.toNat ≤ Config.nodeCap) : Grows s s := ⟨le_rfl, h, fun _ _ => rfl⟩

theorem Grows.trans {a b c : State} (h : Grows a b) (k : Grows b c) : Grows a c :=
  ⟨h.le.trans k.le, k.cap, fun j hj => (k.tail j hj).trans (h.tail j (k.le.trans hj))⟩

theorem Grows.congr {s s1 s2 : State} (h : Grows s s1) (hn : s2.nodes = s1.nodes) (hc : s2.nodeCount = s1.nodeCount) : Grows s s2 :=
  ⟨by rw [hc]; exact h.le, by rw [hc]; exact h.cap, fun j hj => by rw [hn]; exact h.tail j (by rwa [hc] at hj)⟩

theorem grows_alloc {s : State} (n : Node) (h : s.nodeCount.toNat < Config.nodeCap) : Grows s (alloc n s) := by
  have e : (alloc n s).nodeCount.toNat = s.nodeCount.toNat + 1 := toNat_nodeCount_add (c := s.nodeCount) (k := 1) (by omega)
  exact ⟨by omega, by omega, fun j hj => memGet_memSet_ne _ _ (by omega) _⟩

theorem Grows.setNode {s s1 : State} (h : Grows s s1) {i : NodeIx} (hi : i.toNat < s1.nodeCount.toNat) (n : Node) :
    Grows s (setNode i n s1) := by
  refine ⟨h.le, h.cap, fun j hj => ?_⟩
  have hj : s1.nodeCount.toNat ≤ j := hj
  exact (memGet_memSet_ne _ _ (by omega) _).trans (h.tail j hj)

theorem inRead_store (n : Nat) (s : State) : (inRead n s).2.nodes = s.nodes ∧ (inRead n s).2.nodeCount = s.nodeCount :=
  ⟨sat_inRead (later_field State.nodes) ⟨fun _ _ => rfl, fun _ => rfl⟩ n s,
    sat_inRead (later_field State.nodeCount) ⟨fun _ _ => rfl, fun _ => rfl⟩ n s⟩

theorem grows_inRead {s : State} (h : s.nodeCount.toNat ≤ Config.nodeCap) (n : Nat) : Grows s (inRead n s).2 :=
  (Grows.refl h).congr (inRead_store n s).1 (inRead_store n s).2

theorem grows_desLeaf {s : State} {i : NodeIx} (hi : i.toNat < s.nodeCount.toNat) (hc : s.nodeCount.toNat ≤ Config.nodeCap) :
    (desLeaf i s).Sat (Grows s) := by
  have h := grows_inRead hc 9
  have hn := (inRead_store 9 s).2
  unfold desLeaf
  split
  · rename_i e; rw [e] at h; exact h
  · rename_i v s1 e
    rw [e] at h hn
    dsimp only at h hn ⊢
    split
    · exact h.congr rfl rfl
    · exact (h.congr (s2 := countHdrBits 9 s1) rfl rfl).setNode (by show i.toNat < s1.nodeCount.toNat; rw [hn]; exact hi) _

/-- `Des()` only allocates, and rewrites only its own nodes (R201). -/
theorem grows_des (d : Nat) (s : State) (hc : s.nodeCount.toNat ≤ Config.nodeCap) (hd : Config.nodeCap < d + s.nodeCount.toNat) :
    (des d s).Sat (Grows s) := by
  induction d generalizing s with
  | zero => omega
  | succ d ih =>
    cases hb : unread s with
    | nil => rw [des, desNode_end hb]; exact .refl hc
    | cons b rest =>
      by_cases hfull : s.nodeCount.toNat = Config.nodeCap
      · rw [des, desNode_full hb hfull]; exact (Grows.refl hc).congr rfl rfl
      have hlt : s.nodeCount.toNat < Config.nodeCap := by omega
      have hn := nodeRead_nodeCount hlt
      have h0 : Grows s (nodeRead s) :=
        ((Grows.refl hc).congr (s2 := countHdrBits 1 (inMove (s.inPos + 1) s)) rfl rfl).trans (grows_alloc _ hlt)
      cases b with
      | true =>
        rw [des_leaf hb hlt]
        have := grows_desLeaf (s := nodeRead s) (i := s.nodeCount) (by omega) (by omega)
        cases hr : desLeaf s.nodeCount (nodeRead s) with
        | ok => rw [hr] at this; exact h0.trans this
        | raised => rw [hr] at this; exact h0.trans this
        | stuck => trivial
      | false =>
        rw [des_fork hb hlt]
        have h1 := ih (nodeRead s) (by omega) (by omega)
        cases hl : des d (nodeRead s) with
        | raised => rw [hl] at h1; exact h0.trans h1
        | stuck => trivial
        | ok l s2 =>
          rw [hl] at h1
          have h1 : Grows (nodeRead s) s2 := h1
          have h2 := ih s2 h1.cap (by have := h1.le; omega)
          simp only [Res.andThen]
          cases hr : des d s2 with
          | raised => rw [hr] at h2; exact (h0.trans h1).trans h2
          | stuck => trivial
          | ok r s3 =>
            rw [hr] at h2
            have h2 : Grows s2 s3 := h2
            exact ((h0.trans h1).trans h2).setNode (by have := h1.le; have := h2.le; omega) _

/-- READ_HEADER, whether it ends well or with an error (R200). -/
theorem tail_readHeader (s : State) : (runReadHeader s).Sat (TailKept s) := by
  have h0 := grows_inRead (s := headerStart s) (by simp) 32
  have hn := (inRead_store 32 (headerStart s)).2
  unfold runReadHeader
  split
  · rename_i e; rw [e] at h0; exact h0.tail
  · rename_i t s1 e
    rw [e] at h0 hn
    have h0 : Grows (headerStart s) s1 := h0
    split
    · have h1 := grows_des (Config.nodeCap + 1) s1 h0.cap (by omega)
      cases hr : des (Config.nodeCap + 1) s1 with
      | raised => rw [hr] at h1; exact (h0.trans h1).tail
      | stuck => trivial
      | ok root s2 => rw [hr] at h1; exact (h0.trans h1).tail
    · exact h0.tail

/-- BUILD (R152). -/
theorem tail_build (s : State) : (runBuild s).Sat (TailKept s) := by
  by_cases hne : buildLeaves s = []
  · unfold runBuild; rw [hne]; trivial
  · obtain ⟨ns, t, h1, h2⟩ := runBuild_ok hne
    rw [h1]
    intro j hj
    refine h2.above j ?_
    have hle := builtCount_le s
    have hj : (BitVec.ofNat 10 (builtCount s)).toNat ≤ j := hj
    rwa [ofNat_toNat_of_lt (by simp only [Config.nodeCap] at hle; omega)] at hj

/-! ### The commands -/

/-- The node store and its count are the same. -/
def SameNodes (s s1 : State) : Prop := s1.nodes = s.nodes ∧ s1.nodeCount = s.nodeCount

theorem later_sameNodes : Later SameNodes := ⟨fun _ => ⟨rfl, rfl⟩, fun h k => ⟨k.1.trans h.1, k.2.trans h.2⟩⟩

theorem SameNodes.tail {s s1 : State} (h : SameNodes s s1) : TailKept s s1 := fun _ _ => by rw [h.1]

theorem TailKept.before {s s1 s2 : State} (hn : s1.nodes = s.nodes) (h : TailKept s1 s2) : TailKept s s2 :=
  fun j hj => by rw [h j hj, hn]

theorem TailKept.after {s s1 s2 : State} (h : TailKept s s1) (k : SameNodes s1 s2) : TailKept s s2 :=
  fun j hj => by rw [k.1]; exact h j (by rwa [k.2] at hj)

theorem Res.Sat.imp {α : Type} {P Q : State → Prop} {r : Res α} (h : r.Sat P) (hpq : ∀ s, P s → Q s) : r.Sat Q := by
  cases r with
  | ok a s => exact hpq s h
  | raised e i st s => exact hpq s h
  | stuck f => trivial

/-- `f` after a run that keeps the tail. -/
theorem tail_andThen {α β : Type} {s : State} {r : Res α} {f : α → State → Res β} (hr : r.Sat (TailKept s))
    (hf : ∀ a s1, (f a s1).Sat (SameNodes s1)) : (r.andThen f).Sat (TailKept s) := by
  cases r with
  | ok a s1 => exact (hf a s1).imp fun _ h => TailKept.after hr h
  | raised e i st s1 => exact hr
  | stuck f => trivial

theorem same_count (s : State) : (runCount s).Sat (SameNodes s) :=
  sat_count later_sameNodes { inMove := fun _ _ => ⟨rfl, rfl⟩, draw := fun _ => ⟨rfl, rfl⟩, countStart := fun _ => ⟨rfl, rfl⟩,
                              countByte := fun _ _ => ⟨rfl, rfl⟩, countEnd := fun _ => ⟨rfl, rfl⟩ } s

theorem same_gencode (s : State) : (runGencode s).Sat (SameNodes s) := sat_gencode (fun _ _ => ⟨rfl, rfl⟩) s

theorem same_writeHeader (s : State) : (runWriteHeader s).Sat (SameNodes s) :=
  sat_writeHeader later_sameNodes { hdrBitsZero := fun _ => ⟨rfl, rfl⟩, outWrite := fun _ _ _ => ⟨rfl, rfl⟩,
                                    addHdrBits := fun _ _ => ⟨rfl, rfl⟩, headerWritten := fun _ => ⟨rfl, rfl⟩ } s

theorem same_encode (s : State) : (runEncode s).Sat (SameNodes s) :=
  sat_encode later_sameNodes { inMove := fun _ _ => ⟨rfl, rfl⟩, draw := fun _ => ⟨rfl, rfl⟩, encodeStart := fun _ => ⟨rfl, rfl⟩,
                               outWrite := fun _ _ _ => ⟨rfl, rfl⟩, outFlush := fun _ => ⟨rfl, rfl⟩,
                               encCountUp := fun _ => ⟨rfl, rfl⟩ } s

theorem same_decodeBody (s : State) : (runDecodeBody s).Sat (SameNodes s) :=
  sat_decodeBody later_sameNodes { inMove := fun _ _ => ⟨rfl, rfl⟩, draw := fun _ => ⟨rfl, rfl⟩, decodeStart := fun _ => ⟨rfl, rfl⟩,
                                   outWrite := fun _ _ _ => ⟨rfl, rfl⟩, outFlush := fun _ => ⟨rfl, rfl⟩,
                                   decCountUp := fun _ => ⟨rfl, rfl⟩ } s

theorem tail_compress (s : State) : (runCompress s).Sat (TailKept s) := by
  rw [runCompress, runClear]
  simp only [Res.andThen]
  have h := same_count (cleared s)
  cases hc : runCount (cleared s) with
  | stuck => trivial
  | raised => rw [hc] at h; exact TailKept.before (s1 := cleared s) rfl h.tail
  | ok a s2 =>
    rw [hc] at h
    have hn : s2.nodes = s.nodes := h.1
    exact tail_andThen ((tail_build s2).imp fun _ k => k.before hn) fun _ s3 =>
      .andThen later_sameNodes (same_gencode s3) fun _ s4 =>
        .andThen later_sameNodes (same_writeHeader s4) fun _ s5 => same_encode s5

theorem tail_decompress (s : State) : (runDecompress s).Sat (TailKept s) := by
  rw [runDecompress, runClear]
  simp only [Res.andThen]
  exact tail_andThen ((tail_readHeader (cleared s)).imp fun _ k => k.before rfl) fun _ s2 => same_decodeBody s2

/-- No command writes an unallocated node. -/
theorem tail_runOf (i : Instr) (s : State) : (runOf i s).Sat (TailKept s) := by
  have key : ∀ (i : Instr) (run : State → Res Unit), (run s).Sat (TailKept s) → (checked i run s).Sat (TailKept s) := by
    intro i run h
    unfold checked
    split
    · exact h
    · exact fun _ _ => rfl
  have same : ∀ {r : Res Unit}, r.Sat (SameNodes s) → r.Sat (TailKept s) := fun h => h.imp fun _ k => k.tail
  cases i
  · exact key _ _ fun _ _ => rfl
  · exact key _ _ fun _ _ => rfl
  · exact key _ _ (same (same_count s))
  · exact key _ _ (tail_build s)
  · exact key _ _ (same (same_gencode s))
  · exact key _ _ (same (same_writeHeader s))
  · exact key _ _ (same (same_encode s))
  · exact key _ _ (tail_compress s)
  · exact key _ _ (tail_readHeader s)
  · exact key _ _ (same (same_decodeBody s))
  · exact key _ _ (tail_decompress s)

end Sys2Proof.Machine
end

