-- ==== Sys2Proof/Tests/Slice0.lean ====
section
/-! SUPPORT. Tests: ill-formed command words are refused; each command's word decodes; one or two steps of each command with the values
of spec/95_test_vectors.md; a witness for the hypotheses of each statement. -/

set_option autoImplicit false

namespace Sys2Proof.Tests

open Sys2Proof.Machine

/-! ### Helpers -/

/-- After reset, with the tag of the test vectors and `bytes` in IN. -/
def fresh (bytes : List Nat) : State :=
  { State.reset with params := { huffTag := 0xFACE8200, base := 0 }, inBytes := bytes.map (BitVec.ofNat 8) }

/-- The state a step ends in; the one it started from where it does not end in a state. -/
def endOf (s : State) : Host.Outcome State Fault Refusal → State
  | .next t    => t
  | .fault _   => s
  | .refused _ => s

/-- Whether a step ends in a state with the property `p`. -/
def ends (p : State → Bool) : Host.Outcome State Fault Refusal → Bool
  | .next t    => p t
  | .fault _   => false
  | .refused _ => false

/-- The state after a few commands. -/
def ran (is : List Instr) (s : State) : State := is.foldl (fun s i => endOf s (exec i s)) s

theorem inv_ran (is : List Instr) {s : State} (h : Inv s) : Inv (ran is s) := by
  induction is generalizing s with
  | nil => exact h
  | cons i is ih =>
    obtain ⟨t, e, ht⟩ := inv_exec i h
    exact ih (s := endOf s (exec i s)) (by rw [e]; exact ht)

theorem inv_fresh (bytes : List Nat) : Inv (fresh bytes) := by
  have h := inv_resetMove (s := fresh bytes) (Nat.zero_le _)
  exact h

/-- The OUT bytes. -/
def outNat (s : State) : List Nat := (outBytes s.out).map BitVec.toNat

/-- A state whose IN holds `bits`, padded to whole bytes. -/
def holding (bits : List Bool) : State := { fresh [] with inBytes := outBytes (bits ++ padding bits.length) }

theorem unread_holding (bits : List Bool) : unread (holding bits) = bits ++ padding bits.length := by
  rw [unread_of_rewound rfl]
  exact flatMap_bin_outBytes (by rw [List.length_append]; exact padding_length _)

/-! ### Well-formedness: each check refuses an ill-formed word (30_encoding R102) -/

theorem test_wf_rsv : ({ op := 0x2, rsv := 1 } : CmdFields).rsvOk = false := by decide
theorem test_wf_rsv_top : (cmdFields 0x80000002).wf = false := by decide
theorem test_wf_op_first_reserved : ({ op := 0xB, rsv := 0 } : CmdFields).opOk = false := by decide
theorem test_wf_op_last_reserved : (cmdFields 0x0000000F).wf = false := by decide
theorem test_wf_legal : (cmdFields 0x0000000A).wf = true := by decide
theorem test_reject_rsv : decodeWord 0x00000012#32 = .error (.reservedBits 1) := by rfl
theorem test_reject_op : decodeWord 0x0000000B#32 = .error (.reservedOp 0xB) := by rfl

/-! ### Each command's word, bit by bit: RSV (28 bits), OP (4 bits) (30_encoding R100, R101) -/

theorem test_decode_nop : decodeWord (0#28 ++ 0b0000#4) = .ok .nop := by rfl
theorem test_decode_clear : decodeWord (0#28 ++ 0b0001#4) = .ok .clear := by rfl
theorem test_decode_count : decodeWord (0#28 ++ 0b0010#4) = .ok .count := by rfl
theorem test_decode_build : decodeWord (0#28 ++ 0b0011#4) = .ok .build := by rfl
theorem test_decode_gencode : decodeWord (0#28 ++ 0b0100#4) = .ok .gencode := by rfl
theorem test_decode_writeHeader : decodeWord (0#28 ++ 0b0101#4) = .ok .writeHeader := by rfl
theorem test_decode_encode : decodeWord (0#28 ++ 0b0110#4) = .ok .encode := by rfl
theorem test_decode_compress : decodeWord (0#28 ++ 0b0111#4) = .ok .compress := by rfl
theorem test_decode_readHeader : decodeWord (0#28 ++ 0b1000#4) = .ok .readHeader := by rfl
theorem test_decode_decodeBody : decodeWord (0#28 ++ 0b1001#4) = .ok .decodeBody := by rfl
theorem test_decode_decompress : decodeWord (0#28 ++ 0b1010#4) = .ok .decompress := by rfl

/-! ### Every command runs as the first one after reset (log 7) -/

theorem test_first_step :
    ∀ k ∈ List.range 11, (decodeTableWord 32 k).isSome ∧ ends (fun t => t.done) (step (State.reset.withFetchWord 32 k)) = true := by
  decide +kernel

/-! ### One step of each command (95_test_vectors) -/

/-- R135's example. -/
theorem test_nop : ends (fun t => statusWord t == 0x001F0002) (exec .nop
    { fresh [] with freqV := true, treeV := true, codeV := true, hdrV := true, treeSrc := true }) = true := by decide +kernel

/-- R136's example. -/
theorem test_clear : ends (fun t => statusWord t == 0x00000102 && t.nodeCount == 0 && t.outBits == 0 && t.out == [true] && t.inPos == 3)
    (exec .clear { fresh [0] with lastOp := 1, freqV := true, treeSrc := true, nodeCount := 5, outBits := 9, out := [true], inPos := 3 }) =
    true := by decide +kernel

/-- V-CNT-6: COUNT rewinds first. -/
theorem test_count : ends (fun t => freqAt t 65 == 2 && freqAt t 256 == 1 && t.inCount == 2 && t.inPos == 16 && t.freqV && !t.treeV)
    (exec .count { fresh [0x41, 0x41] with inPos := 13, treeV := true }) = true := by decide +kernel

/-- V-CNT-7: byte number 2^32 − 1 is refused. -/
theorem test_count_overflow : ends (fun t => t.err && t.errCode == 5 && t.errInfo == 0xFFFFFFFE) (complete (countLoop [0x41]
    { fresh [0x41] with inCount := 0xFFFFFFFE })) = true := by decide +kernel

/-- The counts of V-CNT-3. -/
def abra : List (Nat × Word) := [(97, 5), (98, 2), (99, 1), (100, 1), (114, 2), (256, 1)]

/-- V-BLD-4: a tie between a leaf and an internal node. -/
theorem test_build : ends (fun t => t.nodeCount == 11 && t.root == 10 && nodeAt t 6 == .internal 2 2 3 && nodeAt t 7 == .internal 3 5 1 &&
    nodeAt t 8 == .internal 4 4 6 && nodeAt t 9 == .internal 7 7 8 && nodeAt t 10 == .internal 12 0 9)
    (exec .build { fresh [] with freqV := true, freq := abra }) = true := by decide +kernel

/-- V-BLD-2: the single leaf is wrapped. -/
theorem test_build_wrap : ends (fun t => t.nodeCount == 3 && t.root == 2 && nodeAt t 0 == .leaf 256 1 && nodeAt t 1 == .leaf 0 0 &&
    nodeAt t 2 == .internal 1 0 1) (exec .build { fresh [] with freqV := true, freq := [(256, 1)] }) = true := by decide +kernel

/-- The tree of V-BLD-3. -/
def treeAB : State :=
  { fresh [0x41, 0x42] with
    treeV := true, freqV := true, nodeCount := 5, root := 4, inCount := 2
    nodes := [(0, .leaf 65 1), (1, .leaf 66 1), (2, .leaf 256 1), (3, .internal 2 0 1), (4, .internal 3 2 3)] }

/-- V-GEN-3. -/
theorem test_gencode : ends (fun t => codeAt t 65 == ⟨true, 2, 2⟩ && codeAt t 66 == ⟨true, 2, 3⟩ && codeAt t 256 == ⟨true, 1, 0⟩ &&
    t.codeV) (exec .gencode treeAB) = true := by decide +kernel

/-- V-GEN-2: the synthesized leaf gets no code. -/
theorem test_gencode_wrap : ends (fun t => !(codeAt t 0).valid && codeAt t 256 == ⟨true, 1, 0⟩) (exec .gencode
    { treeAB with nodeCount := 3, root := 2, nodes := [(0, .leaf 256 1), (2, .internal 1 0 1)] }) = true := by decide +kernel

/-- V-WH-3. -/
theorem test_writeHeader : ends (fun t => outNat t == [0xFA, 0xCE, 0x82, 0x00, 0x60, 0x09, 0x06, 0x42] && t.hdrBits == 32 &&
    t.outBits == 64 && t.hdrV) (exec .writeHeader treeAB) = true := by decide +kernel

/-- The codes of V-GEN-3, after a header of 64 bits. -/
def codedAB (bytes : List Nat) : State :=
  { fresh bytes with
    codeV := true, inCount := 2, outBits := 64, codes := [(65, ⟨true, 2, 2⟩), (66, ⟨true, 2, 3⟩), (256, ⟨true, 1, 0⟩)] }

/-- V-ENC-3. -/
theorem test_encode : ends (fun t => outNat t == [0xB0] && t.outBits == 69 && t.encCount == 2 && !t.err) (exec .encode
    (codedAB [0x41, 0x42])) = true := by decide +kernel

/-- V-ENC-10: the length check comes before NO_CODE; the codes so far stay in OUT, unflushed. -/
theorem test_encode_longer : ends (fun t => t.errCode == 7 && t.errInfo == 3 && t.out == [true, false, true, true] && t.encCount == 2 &&
    !t.codeV) (exec .encode (codedAB [0x41, 0x42, 0x43])) = true := by decide +kernel

/-- V-CMP-1. -/
theorem test_compress : ends (fun t => outNat t == [0xFA, 0xCE, 0x82, 0x00, 0x60, 0x12, 0x0F, 0xC0] && t.outBits == 59 &&
    t.hdrBits == 21 && t.inCount == 5 && t.encCount == 5 && statusWord t == 0x000F0702)
    (step ((fresh [0x41, 0x41, 0x41, 0x41, 0x41]).withFetchWord 32 0x7)) = true := by decide +kernel

/-- V-CMP-2: the empty input. -/
theorem test_compress_empty : ends (fun t => outNat t == [0xFA, 0xCE, 0x82, 0x00, 0x60, 0x10, 0x00] && t.outBits == 54)
    (exec .compress (fresh [])) = true := by decide +kernel

/-- V-RH-12. -/
theorem test_readHeader : ends (fun t => nodeAt t 0 == .internal 0 1 2 && nodeAt t 1 == .leaf 256 0 && nodeAt t 2 == .leaf 65 0 &&
    t.nodeCount == 3 && t.hdrBits == 21 && t.inPos == 53 && t.treeSrc)
    (exec .readHeader (fresh [0xFA, 0xCE, 0x82, 0x00, 0x60, 0x12, 0x0F, 0xC0])) = true := by decide +kernel

/-- V-RH-8: symbol 257. -/
theorem test_readHeader_badSymbol : ends (fun t => statusWord t == 0x00008836 && t.errInfo == 257 && t.nodeCount == 1 && t.hdrBits == 10 &&
    t.inPos == 42) (step ((fresh [0xFA, 0xCE, 0x82, 0x00, 0xC0, 0x40]).withFetchWord 32 0x8)) = true := by decide +kernel

/-- The body of V-DEC-1, with a built tree. -/
theorem test_decodeBody : ends (fun t => outNat t == [65, 66] && t.decCount == 2 && t.inPos == 5)
    (exec .decodeBody { treeAB with inBytes := [0xB0] }) = true := by decide +kernel

/-- V-DEC-9's root-leaf tree: one byte a bit, then TRUNCATED_STREAM. -/
theorem test_decodeBody_rootLeaf : ends (fun t => t.errCode == 2 && t.errStep == 9 && t.errInfo == 6 && outNat t == [65, 65, 65, 65, 65, 65])
    (exec .decodeBody { fresh [0x60] with treeV := true, treeSrc := true, nodes := [(0, .leaf 65 0)], nodeCount := 1, inPos := 2 }) =
    true := by decide +kernel

/-- V-DEC-13: a trailing byte is never read. -/
theorem test_decompress : ends (fun t => outNat t == [65, 65, 65, 65, 65] && t.decCount == 5 && t.inPos == 59 &&
    statusWord t == 0x001A0A02)
    (step ((fresh [0xFA, 0xCE, 0x82, 0x00, 0x60, 0x12, 0x0F, 0xC0, 0xFF]).withFetchWord 32 0xA)) = true := by decide +kernel

/-- V-DEC-11: the container without its last byte. -/
theorem test_decompress_truncated : ends (fun t => statusWord t == 0x00009A26 && t.errInfo == 3 && outNat t == [65, 65, 65])
    (step ((fresh [0xFA, 0xCE, 0x82, 0x00, 0x60, 0x12, 0x0F]).withFetchWord 32 0xA)) = true := by decide +kernel

/-- R22: the registers' offsets, both ways. -/
theorem test_offsets : ∀ r ∈ [Reg.cmd, .status, .errInfo, .irqEn, .tag, .inCount, .encCount, .decCount, .outBits, .hdrBits, .root,
    .nodeCount, .idx, .freqData, .codeInfo, .codeData, .nodeInfo, .nodeWeight, .nodeLink], Reg.ofOffset r.offset = some r := by decide

/-! ### Witnesses: states that meet the hypotheses of the statements -/

/-- A command is pending and the block moves next. -/
def busyWith (w : Word) : State := { accept w (fresh []) with schedule := [.block] }

theorem inv_busy (w : Word) : Inv (accept w (fresh [])) := inv_writeReg .cmd w (inv_fresh [])

theorem witness_IllegalCommand :
    (∀ w ∈ [0xB, 0xF, 0x10, 0xFFFFFFFF], 0xB ≤ (BitVec.ofNat 32 w).toNat % 16 ∨ (BitVec.ofNat 32 w).toNat / 16 ≠ 0) ∧
    State.reset.busy = false ∧ (busyWith 0xB).pending = some 0xB ∧ nextAgent (busyWith 0xB) = .block ∧
    ¬ (0xB ≤ (0xA#32).toNat % 16 ∨ (0xA#32).toNat / 16 ≠ 0) := by decide

theorem witness_StepRunsPendingCommand :
    nextAgent (busyWith 0) = .block ∧ (busyWith 0).pending = some 0 ∧ decodeWord 0 = .ok .nop ∧
    nextAgent { fresh [] with schedule := [.block] } = .block ∧ State.pending { fresh [] with schedule := [.block] } = none :=
  ⟨rfl, rfl, rfl, rfl, rfl⟩

theorem witness_idle : State.reset.busy = false := rfl
theorem witness_busy : (busyWith 2).busy = true ∧ (busyWith 2).pending = some 2 := ⟨rfl, rfl⟩
theorem witness_StatusWrite : Inv (accept 2 (fresh [])) ∧ (accept 2 (fresh [])).busy = true := ⟨inv_busy 2, rfl⟩

theorem witness_accesses :
    (∀ c ∈ [(0x04, 1), (0x04, 2), (0x01, 4), (0x80, 4)], c.2 = 1 ∨ c.2 = 2 ∨ c.1 % 4 ≠ 0 ∨ 0x80 ≤ c.1) ∧
    (∀ a ∈ [0x4C, 0x7C], 0x4C ≤ a ∧ a ≤ 0x7C) ∧ 0x08 ∈ [0x08, 0x48] ∧
    (∀ a ∈ [0x00, 0x08, 0x48, 0x4C], a ≠ 0x04 ∧ a ≠ 0x0C ∧ a ≠ 0x10 ∧ a ≠ 0x30) := by decide

theorem witness_FreqAndCodeWindow :
    (∀ k ∈ [65, 256], (codedAB []).busy = false ∧ (codedAB []).codeV = true ∧ k ≤ 256 ∧ (codeAt (codedAB []) k).valid = true) ∧
    ¬ (State.reset.codeV = true ∧ State.reset.index.toNat ≤ 256 ∧ (codeAt State.reset State.reset.index.toNat).valid = true) ∧
    ¬ (codeAt (codedAB []) 257).valid = true := by decide

theorem witness_NodeWindow :
    treeAB.busy = false ∧ treeAB.treeV = true ∧ (0 : NodeIx) < treeAB.nodeCount ∧ nodeAt treeAB 0 = .leaf 65 1 ∧
    (4 : NodeIx) < treeAB.nodeCount ∧ nodeAt treeAB 4 = .internal 3 2 3 ∧ ¬ ((5 : NodeIx) < treeAB.nodeCount) := by decide

/-- The host has `l` to do. -/
def hostDoes (l : List HostInstr) (s : State) : State := { s with host := l, schedule := [.host] }

theorem witness_HostMoves :
    nextAgent (hostDoes [] (fresh [])) = .host ∧
    (∀ h ∈ [HostInstr.wr 0 4 0, .rd 4 4, .poll 4 2 2, .setIn [0x41] 0, .setIn [0x41] 8, .setIn [0x41] 9, .seekIn 0, .seekIn 1, .setOut [true]],
      nextAgent (hostDoes [h] (fresh [])) = .host ∧ (hostDoes [h] (fresh [])).host = [h]) ∧
    8 ≤ 8 * ([0x41] : List Byte).length ∧ 8 * ([0x41] : List Byte).length < 9 ∧ 0 ≤ 8 * (fresh []).inBytes.length ∧
    8 * (fresh []).inBytes.length < 1 ∧ (hostDoes [] (fresh [])).busy = false ∧ (hostDoes [] (busyWith 0)).busy = true := by decide

theorem witness_InterruptLine :
    ends (fun t => t.irq) (step { busyWith 0 with ie := true }) = true ∧ (busyWith 0).pending ≠ none ∧
    nextAgent (busyWith 0) = .block ∧ (0x2 : Word).getLsbD 1 = true ∧
    nextAgent { fresh [] with schedule := [.reset] } = .reset := by decide +kernel

theorem witness_BusyChanges :
    ends (fun t => t.busy) (step (hostDoes [.wr 0 4 0] (fresh []))) = true ∧ (hostDoes [.wr 0 4 0] (fresh [])).busy = false ∧
    ends (fun t => !t.busy) (step (busyWith 0)) = true ∧
    ends (fun t => !t.busy) (step { busyWith 0 with schedule := [.reset] }) = true := by decide +kernel

theorem witness_ResetMove :
    nextAgent { busyWith 0 with schedule := [.reset] } = .reset ∧ State.busy { busyWith 0 with schedule := [.reset] } = true ∧
    ends (fun _ => true) (blockMove (busyWith 0)) = true ∧ nextAgent { fresh [] with schedule := [.reset] } = .reset ∧
    State.busy { fresh [] with schedule := [.reset] } = false := by decide +kernel

theorem witness_StreamPacking : 0 < (List.replicate 8 true).length / 8 := by decide

theorem witness_InReadRule :
    (fresh [1, 2, 3, 4]).inPos + 32 ≤ 8 * (fresh [1, 2, 3, 4]).inBytes.length ∧
    8 * (fresh []).inBytes.length < (fresh []).inPos + 1 ∧ 8 * (fresh [1, 2, 3]).inBytes.length < (fresh [1, 2, 3]).inPos + 32 ∧
    (fresh [1, 2, 3]).inPos ≤ 8 * (fresh [1, 2, 3]).inBytes.length := by decide

theorem witness_SequenceErrors :
    State.reset.freqV = false ∧ State.reset.treeV = false ∧ State.reset.treeSrc = false ∧ State.reset.codeV = false ∧
    (State.treeV { treeAB with treeSrc := true } = true ∧ State.treeSrc { treeAB with treeSrc := true } = true) ∧
    (State.treeV { fresh [] with treeSrc := true } = false ∧ State.treeSrc { fresh [] with treeSrc := true } = true) ∧
    ends (fun t => t.err && t.errCode == 9) (exec .build (fresh [])) = true := by decide

/-- An IN of `n` zero bytes. -/
def zeros (n : Nat) : State := { fresh [] with inBytes := List.replicate n 0 }

theorem zeros_length (n : Nat) : (zeros n).inBytes.length = n := List.length_replicate

/-- The most bytes COUNT accepts, and one more. -/
theorem witness_CountResult : (zeros 4294967294).inBytes.length ≤ 2 ^ 32 - 2 ∧ 2 ^ 32 - 2 < (zeros 4294967295).inBytes.length := by
  rw [zeros_length, zeros_length]; decide

/-- After COUNT of no bytes: one counted symbol. -/
def countedNone : State := ran [.count] (fresh [])

/-- After COUNT of one byte: two counted symbols. -/
def countedOne : State := ran [.count] (fresh [0x41])

theorem witness_BuildResult :
    countedNone.freqV = true ∧ countedSyms countedNone = [256] ∧ countedOne.freqV = true ∧ countedSyms countedOne = [65, 256] := by
  decide +kernel

theorem witness_BuildResult_inv : Inv countedNone ∧ Inv countedOne := ⟨inv_ran _ (inv_fresh _), inv_ran _ (inv_fresh _)⟩

theorem witness_BuildDeterminism :
    countedOne.freq = State.freq { countedOne with nodeCount := 7 } ∧
    ends (fun _ => true) (exec .build countedOne) = true ∧ ends (fun _ => true) (exec .build { countedOne with nodeCount := 7 }) = true ∧
    ends (fun _ => true) (exec .count (fresh [0x41])) = true ∧ ends (fun _ => true) (exec .compress (fresh [0x41])) = true ∧
    ends (fun _ => true) (exec .compress { fresh [0x41] with out := [true] }) = true := by decide +kernel

/-- After COUNT and BUILD of one byte. -/
def builtOne : State := ran [.build] countedOne

/-- Its tree. -/
def treeOne : Machine.Tree := .fork 2 (.leaf 65 1) (.leaf 256 1)

theorem witness_GencodeResult :
    builtOne.treeV = true ∧ builtOne.treeSrc = false ∧ storedTree builtOne = some treeOne ∧ BuiltFor builtOne treeOne := by
  unfold BuiltFor; decide +kernel

theorem witness_PrefixFree : Inv builtOne ∧ builtOne.treeV = true ∧ builtOne.treeSrc = false :=
  ⟨inv_ran _ witness_BuildResult_inv.2, by decide +kernel, by decide +kernel⟩

theorem witness_WriteHeaderResult :
    storedTree treeAB = some (.fork 3 (.leaf 256 1) (.fork 2 (.leaf 65 1) (.leaf 66 1))) ∧ treeAB.treeV = true := by decide +kernel

theorem witness_EncodeResult :
    (codedAB [0x41, 0x42]).codeV = true ∧ (codedAB [0x41, 0x42]).inBytes.length = (codedAB [0x41, 0x42]).inCount.toNat ∧
    AllCoded (codedAB [0x41, 0x42]) (codedAB [0x41, 0x42]).inBytes := by unfold AllCoded; decide +kernel

theorem witness_EncodeErrors :
    (AllCoded (codedAB [0x41, 0x42, 0x43]) [0x41, 0x42] ∧ (codedAB [0x41, 0x42, 0x43]).inBytes = [0x41, 0x42] ++ (0x43 : Byte) :: [] ∧
      [0x41, 0x42].length = (codedAB [0x41, 0x42, 0x43]).inCount.toNat) ∧
    (AllCoded (codedAB [0x41]) [0x41] ∧ (codedAB [0x41]).inBytes = [0x41] ∧ [0x41].length < (codedAB [0x41]).inCount.toNat) ∧
    (AllCoded (codedAB [0x41, 0x43]) [0x41] ∧ (codedAB [0x41, 0x43]).inBytes = [0x41] ++ (0x43 : Byte) :: [] ∧
      (codeAt (codedAB [0x41, 0x43]) (0x43 : Byte).toNat).valid = false) := by unfold AllCoded; decide +kernel

/-- The two-leaf tree of "AAAAA", as a header carries it. -/
def treeA : Machine.Tree := .fork 0 (.leaf 256 0) (.leaf 65 0)

/-- A tree of `n` internal nodes, each with a leaf on the left. -/
def spine : Nat → Machine.Tree
  | 0     => .leaf 256 0
  | n + 1 => .fork 0 (.leaf 1 0) (spine n)

theorem witness_ReadHeaderResult :
    unread (holding (bin 32 0xFACE8200 ++ treeA.header)) =
      bin 32 (holding (bin 32 0xFACE8200 ++ treeA.header)).params.huffTag ++
        (treeA.header ++ padding (bin 32 0xFACE8200 ++ treeA.header).length) ∧
    treeA.symsOk = true ∧ treeA.size ≤ 513 ∧ (spine 256).size ≤ 513 ∧ (unread (fresh [1, 2, 3])).length < 32 ∧
    unread (fresh [1, 2, 3, 4]) = bin 32 0x01020304 ++ [] ∧ (0x01020304 : Word) ≠ (fresh [1, 2, 3, 4]).params.huffTag := by
  refine ⟨?_, by decide +kernel⟩
  rw [unread_holding, List.append_assoc]
  rfl

/-- The hypotheses of each clause: the tag, then whole bytes that hold nodes and a tail. The second is V-RH-10, 514 internal nodes; the
others stop before the first node and after some, at room for one node, with 8 bits of a symbol field, at 257 and at 511. -/
theorem witness_ReadHeaderErrors :
    (∀ bits : List Bool, bits.length % 8 = 0 →
      unread (holding (bin 32 0xFACE8200 ++ bits)) = bin 32 (holding (bin 32 0xFACE8200 ++ bits)).params.huffTag ++ bits) ∧
    (∀ c ∈ [(0, []), (8, []), (513, List.replicate 7 false), (7, true :: List.replicate 8 true), (512, true :: List.replicate 7 false),
        (6, true :: bin 9 257), (6, true :: bin 9 511), (510, true :: bin 9 257 ++ [])],
      unfinished 1 (List.replicate c.1 HeaderItem.fork) = true ∧ (List.replicate c.1 HeaderItem.fork).all HeaderItem.legal = true ∧
      (List.replicate c.1 HeaderItem.fork).length ≤ 513 ∧ StopsAt c.1 c.2 ∧
      (itemBits (List.replicate c.1 HeaderItem.fork) ++ c.2).length % 8 = 0) ∧
    ends (fun u => u.err && u.errCode != 1) (exec .readHeader (fresh [0xFA, 0xCE, 0x82, 0x00])) = true := by
  refine ⟨?_, ?_, by decide +kernel⟩
  · intro bits h
    rw [unread_holding, show padding (bin 32 0xFACE8200 ++ bits).length = [] from ?_, List.append_nil]
    · rfl
    · unfold padding
      rw [List.length_append, bin_length, show (8 - (32 + bits.length) % 8) % 8 = 0 by omega]
      rfl
  · intro c hc
    simp only [List.mem_cons, List.not_mem_nil, or_false] at hc
    rcases hc with rfl | rfl | rfl | rfl | rfl | rfl | rfl | rfl <;>
      refine ⟨by decide +kernel, by decide +kernel, by decide +kernel, ?_, by decide +kernel⟩
    · exact .inl rfl
    · exact .inl rfl
    · exact .inr (.inl ⟨rfl, by decide⟩)
    · exact .inr (.inr (.inl ⟨by decide, _, rfl, by decide⟩))
    · exact .inr (.inr (.inl ⟨by decide, _, rfl, by decide⟩))
    · exact .inr (.inr (.inr ⟨by decide, 257, [], rfl, by decide⟩))
    · exact .inr (.inr (.inr ⟨by decide, 511, [], rfl, by decide⟩))
    · exact .inr (.inr (.inr ⟨by decide, 257, [], rfl, by decide⟩))

/-- A body after a tree: IN holds `bits` padded, and the node store `treeA` at index 0. -/
def bodyOn (bits : List Bool) : State :=
  { holding bits with
    treeV := true, treeSrc := true, nodeCount := 3, root := 0
    nodes := [(0, .internal 0 1 2), (1, .leaf 256 0), (2, .leaf 65 0)] }

theorem unread_bodyOn (bits : List Bool) : unread (bodyOn bits) = bits ++ padding bits.length := unread_holding bits

theorem witness_DecodeBodyResult :
    (bodyOn []).treeV = true ∧ storedTree (bodyOn []) = some treeA ∧ treeA.isFork = true ∧
    AllLiteral treeA (List.replicate 8 ⟨65, 0, [true]⟩) ∧ (⟨256, 0, [false]⟩ : LeafCode) ∈ treeA.codes ∧
    unread (bodyOn [true, false]) = pathBits [⟨65, 0, [true]⟩] ++ ([false] ++ padding 2) ∧
    unread (bodyOn (List.replicate 8 true)) = pathBits (List.replicate 8 ⟨65, 0, [true]⟩) ++ [] ∧
    (∀ c ∈ treeA.codes, ¬ c.path <+: []) := by
  exact ⟨rfl, by decide +kernel, by decide, by unfold AllLiteral; decide, by decide, unread_bodyOn _, unread_bodyOn _, by decide⟩

theorem witness_DecodeBodyRootLeaf :
    (∀ sym ∈ [256, 65, 0], ∀ bytes ∈ [[0x60], []], storedTree
        { fresh bytes with treeV := true, nodes := memSet nodeDefault [] 0 (.leaf (BitVec.ofNat 9 sym) 0), nodeCount := 1 } =
      some (.leaf (BitVec.ofNat 9 sym) 0)) ∧ unread (fresh [0x60]) ≠ [] ∧ unread (fresh []) = [] := by decide +kernel

theorem witness_DecompressResult :
    (treeA.symsOk = true ∧ treeA.size ≤ 513 ∧ treeA.isFork = true ∧ AllLiteral treeA [⟨65, 0, [true]⟩] ∧
      (⟨256, 0, [false]⟩ : LeafCode) ∈ treeA.codes) ∧
    unread (holding (container 0xFACE8200 treeA [true, false])) =
      container (holding []).params.huffTag treeA (pathBits [⟨65, 0, [true]⟩] ++ ([false] ++ padding 55)) ∧
    ends (fun u => ends (fun v => v.err) (exec .readHeader u)) (exec .clear (fresh [])) = true := by
  refine ⟨by unfold AllLiteral; decide, ?_, by decide +kernel⟩
  rw [unread_holding]
  decide +kernel

/-- An IN COMPRESS can count, whose FREQ counts one symbol, and one with two; a symbol without a count. -/
theorem witness_CompressResult :
    (zeros 4294967294).inBytes.length ≤ 2 ^ 32 - 2 ∧ 2 ^ 32 - 2 < (zeros 4294967295).inBytes.length ∧
    ends (fun u => countedSyms u == [256] && u.nodeCount == 3 && u.root == 2) (exec .compress (fresh [])) = true ∧
    ends (fun u => countedSyms u == [65, 256] && u.nodeCount == 3 && u.root == 2 && freqAt u 66 == 0)
      (exec .compress (fresh [0x41])) = true := by
  rw [zeros_length, zeros_length]; decide +kernel

/-- After an error that stopped at one node, the entry behind it still holds what it held. -/
theorem witness_UnallocatedNodesKept :
    ends (fun t => t.err && t.nodeCount == 1 && memGet nodeDefault t.nodes 1 == .leaf 7 7)
      (exec .readHeader { fresh [0xFA, 0xCE, 0x82, 0x00, 0xC0, 0x40] with nodes := [(1, .leaf 7 7)] }) = true := by decide +kernel

theorem witness_errors :
    ends (fun t => t.err && t.errCode == 9) (exec .encode (fresh [])) = true ∧
    ends (fun t => t.err && t.errCode != 9) (exec .readHeader (fresh [])) = true := by decide +kernel

theorem witness_StepKeepsInv : Inv (fresh []) ∧ ends (fun _ => true) (step (fresh [])) = true ∧
    Inv (accept 0 (fresh [])) ∧ nextAgent (accept 0 (fresh [])) = .block := ⟨inv_fresh [], by decide, inv_busy 0, rfl⟩

/-- V-CMP-1's container in IN. -/
theorem witness_RoundTrip :
    (fresh [0x41, 0x41, 0x41, 0x41, 0x41]).inBytes.length ≤ 2 ^ 32 - 2 ∧ (fresh [0x41, 0x41, 0x41, 0x41, 0x41]).out = [] ∧
    ends (fun t => !t.err && (fresh [0xFA, 0xCE, 0x82, 0x00, 0x60, 0x12, 0x0F, 0xC0]).inBytes == outBytes t.out)
      (exec .compress (fresh [0x41, 0x41, 0x41, 0x41, 0x41])) = true := by decide +kernel

/-- 4 and 7 of its 8 bytes: the container has 59 bits before its padding. -/
theorem witness_Truncation :
    ends (fun t => (fresh [0xFA, 0xCE, 0x82, 0x00, 0x60, 0x12, 0x0F]).inBytes == (outBytes t.out).take 7 &&
      (fresh [0xFA, 0xCE, 0x82, 0x00]).inBytes == (outBytes t.out).take 4 &&
      match storedTree t with
      | some tree => decide (8 * 7 < (container t.params.huffTag tree (bodyBits t [0x41, 0x41, 0x41, 0x41, 0x41])).length)
      | none      => false) (exec .compress (fresh [0x41, 0x41, 0x41, 0x41, 0x41])) = true := by decide +kernel

end Sys2Proof.Tests
end

section
/-! The two parameters HUFF_TAG and BASE over a step (00_scope R7, 10_state R20): no agent's move writes them. -/

set_option autoImplicit false

namespace Sys2Proof.Machine

/-! ### The block -/

@[simp] theorem enterError_params (e : Err) (info : Word) (step : Nibble) (s : State) :
    (enterError e info step s).params = s.params := by
  unfold enterError
  split <;> rfl

theorem complete_params {r : Res Unit} {s t : State} (hr : r.Sat (Framed s)) (ht : complete r = .next t) :
    t.params = s.params := by
  obtain ⟨s1, rfl, hc⟩ | ⟨e, info, step, s1, rfl, hc⟩ | ⟨f, rfl, hc⟩ := complete_cases r <;> rw [hc] at ht
  · obtain rfl := Host.Outcome.next.inj ht
    exact (Framed.params hr :)
  · obtain rfl := Host.Outcome.next.inj ht
    exact (enterError_params e info step s1).trans (Framed.params hr)
  · cases ht

theorem exec_params {i : Instr} {s t : State} (ht : exec i s = .next t) : t.params = s.params := by
  rw [exec_eq] at ht
  exact complete_params (framed_runOf i s) ht

theorem completeIllegal_params {w : Word} {s t : State} (ht : completeIllegal w s = .next t) : t.params = s.params :=
  complete_params (r := .raised .illegalCmd w (opField w) s) (Framed.refl s) ht

theorem blockMove_params {s t : State} (ht : blockMove s = .next t) : t.params = s.params := by
  unfold blockMove at ht
  split at ht
  · obtain rfl := Host.Outcome.next.inj ht
    rfl
  · split at ht
    · exact exec_params ht
    · exact completeIllegal_params ht

/-! ### The host -/

@[simp] theorem writeCmd_params (w : Word) (s : State) : (writeCmd w s).params = s.params := by
  unfold writeCmd
  split <;> rfl

@[simp] theorem writeReg_params (r : Reg) (w : Word) (s : State) : (writeReg r w s).params = s.params := by
  cases r
  case cmd => exact writeCmd_params w s
  case status => exact ackStatus_params w s
  all_goals rfl

@[simp] theorem memWrite_params (addr width : Nat) (w : Word) (s : State) : (memWrite addr width w s).params = s.params := by
  unfold memWrite
  split
  · split
    · exact writeReg_params _ w s
    · rfl
  · rfl

/-- A move of a stream is made only while idle (10_state R64, R65). -/
theorem whileIdle_eq_next {s s1 t : State} : whileIdle s s1 = .next t ↔ s.busy = false ∧ t = s1 := by
  unfold whileIdle
  cases s.busy <;> simp [eq_comm]

/-- IN is placed only while idle, at a position within it (10_state R64). -/
theorem setInPort_eq_next {bytes : List Byte} {pos : Nat} {s t : State} :
    setInPort bytes pos s = .next t ↔
      pos ≤ 8 * bytes.length ∧ s.busy = false ∧ t = { s with inBytes := bytes, inPos := pos } := by
  unfold setInPort
  split <;> simp [whileIdle_eq_next, *]

theorem setInPort_params {bytes : List Byte} {pos : Nat} {s t : State} (ht : setInPort bytes pos s = .next t) :
    t.params = s.params := by
  obtain ⟨-, -, rfl⟩ := setInPort_eq_next.mp ht
  rfl

theorem hostExec_params {i : HostInstr} {s t : State} (ht : hostExec i s = .next t) : t.params = s.params := by
  cases i with
  | wr addr width v =>
    obtain rfl := Host.Outcome.next.inj ht
    exact memWrite_params addr width v s
  | rd addr width =>
    obtain rfl := Host.Outcome.next.inj ht
    rfl
  | poll addr mask value =>
    simp only [hostExec] at ht
    split at ht <;> obtain rfl := Host.Outcome.next.inj ht <;> rfl
  | setIn bytes pos => exact setInPort_params ht
  | seekIn pos => exact setInPort_params ht
  | setOut bits =>
    simp only [hostExec] at ht
    obtain ⟨-, rfl⟩ := whileIdle_eq_next.mp ht
    rfl

theorem hostMove_params {s t : State} (ht : hostMove s = .next t) : t.params = s.params := by
  unfold hostMove at ht
  split at ht
  · obtain rfl := Host.Outcome.next.inj ht
    rfl
  · exact (hostExec_params ht :)

/-! ### Reset -/

@[simp] theorem resetMove_params (s : State) : (resetMove s).params = s.params := by
  unfold resetMove
  split <;> rfl

/-! ### Every step -/

/-- Settles O21: whichever agent moves, its move keeps the parameters; a command's run keeps them as part of its frame `Framed`. -/
theorem parametersFixed : Obligations.ParametersFixed := by
  intro s t ht
  obtain ⟨-, h⟩ | ⟨-, h⟩ | ⟨-, h⟩ := step_cases s <;> rw [h] at ht
  · exact (hostMove_params ht :)
  · exact (blockMove_params ht :)
  · obtain rfl := Host.Outcome.next.inj ht
    exact resetMove_params _

end Sys2Proof.Machine
end

section
/-! The register window, one rule per access (10_state R21 to R56, 20_memory R80 to R82), and what every completion leaves and writes
(40_control R131): from these rules the statements of 10_state follow. -/

set_option autoImplicit false

namespace Sys2Proof.Machine

/-! ### What an access reaches -/

/-- The registers are told apart by their offsets, all below the reserved ones (R22, R55). -/
theorem Reg.ofOffset_eq_some {addr : Nat} {r : Reg} : Reg.ofOffset addr = some r ↔ addr = r.offset := by
  constructor
  · unfold Reg.ofOffset
    split <;> rintro ⟨⟩ <;> rfl
  · rintro rfl
    cases r <;> rfl

theorem Reg.offset_lt (r : Reg) : r.offset < 0x4C := by cases r <;> decide

theorem Reg.ofOffset_reserved {addr : Nat} (h : 0x4C ≤ addr) : Reg.ofOffset addr = none := by
  refine Option.eq_none_iff_forall_ne_some.mpr fun r hr => ?_
  have hlt := r.offset_lt
  rw [← Reg.ofOffset_eq_some.mp hr] at hlt
  omega

@[simp] theorem accessActs_offset (r : Reg) : accessActs r.offset 4 = true := by cases r <;> rfl

/-- A 4-byte read at a register's offset reads the register. -/
theorem memRead_offset (r : Reg) (s : State) : memRead r.offset 4 s = readReg r s := by
  simp [memRead, Reg.ofOffset_eq_some.mpr rfl]

/-- A 4-byte write at a register's offset writes the register. -/
theorem memWrite_offset (r : Reg) (w : Word) (s : State) : memWrite r.offset 4 w s = writeReg r w s := by
  simp [memWrite, Reg.ofOffset_eq_some.mpr rfl]

/-- A read either reads 0 or is a 4-byte read of a register. -/
theorem memRead_cases (addr width : Nat) (s : State) :
    memRead addr width s = 0 ∨ ∃ r : Reg, addr = r.offset ∧ memRead addr width s = readReg r s := by
  unfold memRead
  split
  · cases h : Reg.ofOffset addr with
    | none => exact .inl rfl
    | some r => exact .inr ⟨r, Reg.ofOffset_eq_some.mp h, rfl⟩
  · exact .inl rfl

/-- A write either changes nothing or is a 4-byte write of a register. -/
theorem memWrite_cases (addr width : Nat) (w : Word) (s : State) :
    memWrite addr width w s = s ∨ ∃ r : Reg, addr = r.offset ∧ width = 4 ∧ memWrite addr width w s = writeReg r w s := by
  by_cases hw : accessActs addr width = true
  · have hwidth : width = 4 := by simp [accessActs] at hw; exact hw.1.1
    cases h : Reg.ofOffset addr with
    | none => exact .inl (by simp [memWrite, h])
    | some r => exact .inr ⟨r, Reg.ofOffset_eq_some.mp h, hwidth, by simp [memWrite, hw, h]⟩
  · exact .inl (by simp [memWrite, hw])

/-! ### Reads, idle and busy (R56) -/

/-- While idle a register reads its value. -/
theorem memRead_idle {s : State} (h : s.busy = false) (r : Reg) : memRead r.offset 4 s = regValue s r := by
  simp [memRead_offset, readReg, h]

/-- STATUS, TAG, IRQ_EN and IDX read their value always. -/
theorem memRead_always {r : Reg} (h : r.readsWhileBusy = true) (s : State) : memRead r.offset 4 s = regValue s r := by
  simp [memRead_offset, readReg, h]

theorem readReg_busy {s : State} (h : s.busy = true) {r : Reg} (hr : r.readsWhileBusy = false) : readReg r s = 0 := by
  simp [readReg, h, hr]

/-! ### PENDING, DONE and IE over the host's writes -/

/-- A write leaves PENDING alone, unless it writes a word to CMD, which may become PENDING (R23, R25). -/
theorem memWrite_pending (addr width : Nat) (w : Word) (s : State) :
    (memWrite addr width w s).pending = s.pending ∨
      (addr = 0x00 ∧ width = 4 ∧ (memWrite addr width w s).pending = some w) := by
  obtain h | ⟨r, rfl, rfl, h⟩ := memWrite_cases addr width w s <;> rw [h]
  · exact .inl rfl
  · cases r
    case cmd =>
      show (writeCmd w s).pending = _ ∨ (_ ∧ _ ∧ (writeCmd w s).pending = _)
      unfold writeCmd
      split
      · exact .inl rfl
      · exact .inr ⟨rfl, rfl, rfl⟩
    all_goals exact .inl rfl

theorem memWrite_cmd_idle {s : State} (h : s.busy = false) (w : Word) : memWrite 0x00 4 w s = accept w s := by
  refine (memWrite_offset .cmd w s).trans ?_
  simp [writeReg, writeCmd, h]

theorem memWrite_status (w : Word) (s : State) : memWrite 0x04 4 w s = ackStatus w s := memWrite_offset .status w s

theorem memWrite_irqEn (w : Word) (s : State) : memWrite 0x0C 4 w s = writeIrqEn w s := memWrite_offset .irqEn w s

/-- A host instruction leaves PENDING alone, unless it is an accepted write to CMD. -/
theorem hostExec_pending {i : HostInstr} {s t : State} (ht : hostExec i s = .next t) :
    t.pending = s.pending ∨ ∃ w, i = .wr 0x00 4 w ∧ t.pending = some w := by
  cases i with
  | wr addr width v =>
    obtain rfl := Host.Outcome.next.inj ht
    obtain h | ⟨rfl, rfl, h⟩ := memWrite_pending addr width v s
    · exact .inl h
    · exact .inr ⟨v, rfl, h⟩
  | rd addr width =>
    obtain rfl := Host.Outcome.next.inj ht
    exact .inl rfl
  | poll addr mask value =>
    simp only [hostExec] at ht
    split at ht <;> obtain rfl := Host.Outcome.next.inj ht <;> exact .inl rfl
  | setIn bytes pos | seekIn pos =>
    obtain ⟨-, -, rfl⟩ := setInPort_eq_next.mp ht
    exact .inl rfl
  | setOut bits =>
    obtain ⟨-, rfl⟩ := whileIdle_eq_next.mp ht
    exact .inl rfl

/-- So does the host's move. -/
theorem hostMove_pending {s t : State} (ht : hostMove s = .next t) :
    t.pending = s.pending ∨ ∃ w rest, s.host = .wr 0x00 4 w :: rest ∧ t.pending = some w := by
  unfold hostMove at ht
  split at ht
  next =>
    obtain rfl := Host.Outcome.next.inj ht
    exact .inl rfl
  next i rest hs =>
    obtain h | ⟨w, rfl, h⟩ := hostExec_pending ht
    · exact .inl h
    · exact .inr ⟨w, rest, hs, h⟩

/-! ### What a completion writes -/

/-- The state `t` a completion leaves when the command's run ended in `s`: DONE = 1, BUSY = 0, and nothing else than STATUS and ERRINFO
written (R131, R233). -/
structure Retired (s t : State) : Prop where
  done    : t.done = true
  pending : t.pending = none
  ie      : t.ie = s.ie
  kept    : ∀ k : Kept, k.Rel s t

theorem retired_ok (s : State) : Retired s (retire { s with err := false }) :=
  ⟨rfl, rfl, rfl, fun _ => ⟨fun _ => rfl, fun _ => rfl, fun _ => rfl, fun _ => rfl, fun _ => rfl, fun _ => rfl, fun _ => rfl, fun _ => rfl,
    fun _ => rfl, fun _ => rfl, fun _ => rfl, fun _ => rfl⟩⟩

theorem retired_raised (e : Err) (info : Word) (step : Nibble) (s : State) : Retired s (retire (enterError e info step s)) := by
  unfold enterError
  split <;>
  exact ⟨rfl, rfl, rfl, fun _ => ⟨fun _ => rfl, fun _ => rfl, fun _ => rfl, fun _ => rfl, fun _ => rfl, fun _ => rfl, fun _ => rfl,
    fun _ => rfl, fun _ => rfl, fun _ => rfl, fun _ => rfl, fun _ => rfl⟩⟩

/-- A completion retires the state its run ended in, well or with an error. -/
theorem Res.Sat.retired {P : State → Prop} {r : Res Unit} {t : State} (hr : r.Sat P) (ht : complete r = .next t) :
    ∃ s1, P s1 ∧ Retired s1 t := by
  obtain ⟨s1, rfl, hc⟩ | ⟨e, info, step, s1, rfl, hc⟩ | ⟨f, rfl, hc⟩ := complete_cases r <;> rw [hc] at ht
  · obtain rfl := Host.Outcome.next.inj ht
    exact ⟨s1, hr, retired_ok s1⟩
  · obtain rfl := Host.Outcome.next.inj ht
    exact ⟨s1, hr, retired_raised e info step s1⟩
  · cases ht

theorem exec_retired {P : State → Prop} {i : Instr} {s t : State} (hP : (runOf i s).Sat P) (ht : exec i s = .next t) :
    ∃ s1, P s1 ∧ Retired s1 t := hP.retired (exec_eq i s ▸ ht)

/-- The block's move while a command is pending is a completion, of a command or of an illegal word. -/
theorem blockMove_retired {s t : State} (hp : s.pending ≠ none) (ht : blockMove s = .next t) :
    ∃ s1, Framed s s1 ∧ Retired s1 t := by
  unfold blockMove at ht
  split at ht
  next h => exact absurd h hp
  next w _ =>
    split at ht
    · exact exec_retired (framed_runOf _ s) ht
    · exact Res.Sat.retired (r := .raised .illegalCmd w (opField w) s) (Framed.refl s) ht

theorem blockMove_pending {s t : State} (ht : blockMove s = .next t) : t.pending = none := by
  by_cases hp : s.pending = none
  · simp only [blockMove, hp] at ht
    exact Host.Outcome.next.inj ht ▸ hp
  · obtain ⟨s1, -, h⟩ := blockMove_retired hp ht
    exact h.pending

theorem resetMove_pending (s : State) : (resetMove s).pending = none := rfl

theorem resetMove_irq (s : State) : (resetMove s).irq = false := rfl

theorem busy_eq_false {s : State} : s.busy = false ↔ s.pending = none := by
  simp [State.busy]

/-! ### Who made a step -/

/-- A step the block is to make is its move; the schedule's entry goes. -/
theorem step_block {s : State} (h : nextAgent s = .block) : step s = blockMove { s with schedule := s.schedule.tail } := by
  simp [step, h, agentMove]

theorem step_reset {s : State} (h : nextAgent s = .reset) : step s = .next (resetMove { s with schedule := s.schedule.tail }) := by
  simp [step, h, agentMove]

/-! ### The statements about `irq` and BUSY -/

/-- Settles O19: `irq` is IE and DONE by definition, and each event is an equation for one of the two bits; a completion keeps IE, which
no run writes (`Framed`), and sets DONE (`Retired`). -/
theorem interruptLine : Obligations.InterruptLine := by
  refine ⟨fun s => rfl, fun s t hp hb ht => ?_, fun s w hs => ?_, fun s w hw => ?_, fun s w => ?_, fun s t hr ht => ?_⟩
  · rw [step_block hb] at ht
    obtain ⟨s1, hf, h⟩ := blockMove_retired (s := { s with schedule := s.schedule.tail }) hp ht
    have hie : t.ie = s.ie := h.ie.trans hf.ie
    simp [State.irq, h.done, hie]
  · simp [memWrite_cmd_idle hs, State.irq]
  · simp [memWrite_status, State.irq, hw]
  · rw [memWrite_irqEn]
    rfl
  · rw [step_reset hr] at ht
    exact Host.Outcome.next.inj ht ▸ resetMove_irq _

/-- Settles O20: PENDING is present exactly while BUSY = 1; the host's move keeps it but for an accepted word, and after the block's
move and after reset there is none. -/
theorem busyChanges : Obligations.BusyChanges := by
  refine ⟨rfl, fun s w hs => ?_, fun s t ht => ?_⟩
  · rw [memWrite_cmd_idle hs]
    rfl
  obtain ⟨ha, h⟩ | ⟨ha, h⟩ | ⟨ha, h⟩ := step_cases s <;> rw [h] at ht
  · obtain hk | ⟨w, rest, hw, hp⟩ := hostMove_pending ht
    · have hb : t.busy = s.busy := congrArg Option.isSome hk
      simp_all
    · exact ⟨fun _ _ => ⟨ha, w, rest, hw, hp⟩, by simp [State.busy, hp], by simp [ha]⟩
  · have hb : t.busy = false := busy_eq_false.mpr (blockMove_pending ht)
    simp [hb, ha]
  · obtain rfl := Host.Outcome.next.inj ht
    simp [busy_eq_false.mpr (resetMove_pending _), ha]

/-! ### The memories over a command -/

/-- `keptBy`, read by columns: the commands that leave each memory, counter or stream alone are those not in its list. -/
theorem keptBy_eq (i : Instr) :
    keptBy i =
      { freq     := decide (i ∉ [Instr.count, .compress])
        nodes    := decide (i ∉ [Instr.build, .compress, .readHeader, .decompress])
        tree     := decide (i ∉ [Instr.clear, .build, .compress, .readHeader, .decompress])
        codes    := decide (i ∉ [Instr.gencode, .compress])
        inCount  := decide (i ∉ [Instr.clear, .count, .compress, .decompress])
        encCount := decide (i ∉ [Instr.clear, .encode, .compress, .decompress])
        decCount := decide (i ∉ [Instr.clear, .decodeBody, .compress, .decompress])
        outBits  := decide (i ∉ [Instr.clear, .writeHeader, .encode, .compress, .decodeBody, .decompress])
        hdrBits  := decide (i ∉ [Instr.clear, .writeHeader, .compress, .readHeader, .decompress])
        out      := decide (i ∉ [Instr.writeHeader, .encode, .compress, .decodeBody, .decompress])
        inPos    := decide (i ∉ [Instr.count, .encode, .compress, .readHeader, .decodeBody, .decompress]) } := by
  cases i <;> rfl

/-- A command, completed well or with an error, leaves alone what its run does. -/
theorem exec_kept {i : Instr} {s t : State} (ht : exec i s = .next t) : (keptBy i).Rel s t := by
  obtain ⟨s1, hk, h⟩ := exec_retired (kept_runOf i s) ht
  exact (later_kept _).trans hk (h.kept _)

/-- Settles O51: the run of each command keeps what `keptBy` says, and a completion writes none of it. -/
theorem memoryFrame : Obligations.MemoryFrame := by
  intro i s t ht
  have h := exec_kept ht
  rw [keptBy_eq] at h
  exact ⟨fun hi => h.freq (decide_eq_true hi), fun hi => h.nodes (decide_eq_true hi),
    fun hi => ⟨h.nodeCount (decide_eq_true hi), h.root (decide_eq_true hi)⟩, fun hi => h.codes (decide_eq_true hi),
    fun hi => h.inCount (decide_eq_true hi), fun hi => h.encCount (decide_eq_true hi), fun hi => h.decCount (decide_eq_true hi),
    fun hi => h.outBits (decide_eq_true hi), fun hi => h.hdrBits (decide_eq_true hi), fun hi => h.out (decide_eq_true hi),
    fun hi => h.inPos (decide_eq_true hi)⟩

/-- Settles O57: the run of each command keeps the entries above the final `node_count`, and a completion writes no node. -/
theorem unallocatedNodesKept : Obligations.UnallocatedNodesKept := by
  intro i s t ht
  obtain ⟨s1, htail, h⟩ := exec_retired (tail_runOf i s) ht
  exact htail.after ⟨(h.kept {}).nodes rfl, (h.kept {}).nodeCount rfl⟩

end Sys2Proof.Machine
end

section
/-! The words the register window shows, as numbers and field by field (10_state R22 to R56), and the statements about single registers. -/

set_option autoImplicit false

namespace Sys2Proof.Machine

/-! ### The words of STATUS, IRQ_EN and IDX -/

/-- A concatenation as a number (00_scope R9). -/
theorem toNat_append_eq_add {m n : Nat} (x : BitVec m) (y : BitVec n) : (x ++ y).toNat = x.toNat * 2 ^ n + y.toNat := by
  rw [BitVec.toNat_append, ← Nat.shiftLeft_add_eq_or_of_lt y.isLt, Nat.shiftLeft_eq]

theorem toNat_and_lowNibble (x : Word) : (x &&& 0x0000000F).toNat = x.toNat % 16 :=
  Nat.and_two_pow_sub_one_eq_mod x.toNat 4

/-- A field of one bit, placed by its weight. -/
theorem toNat_ite_zero (b : Bool) (k : Word) : (if b then k else 0).toNat = b.toNat * k.toNat := by cases b <;> simp

theorem idxWord_toNat (s : State) : (idxWord s).toNat = s.index.toNat + 2 ^ 16 * s.wsel.toNat := by
  simp only [idxWord, toNat_append_eq_add, BitVec.toNat_ofNat]
  omega

theorem regValue_irqEn (s : State) : regValue s .irqEn = if s.ie then 1 else 0 := by
  unfold regValue
  cases s.ie <;> rfl

theorem memRead_status (s : State) : memRead 0x04 4 s = statusWord s := memRead_always (r := .status) rfl s

theorem memRead_irqEn (s : State) : memRead 0x0C 4 s = if s.ie then 1 else 0 :=
  (memRead_always (r := .irqEn) rfl s).trans (regValue_irqEn s)

theorem memRead_idx (s : State) : (memRead 0x30 4 s).toNat = s.index.toNat + 2 ^ 16 * s.wsel.toNat :=
  (congrArg BitVec.toNat (memRead_always (r := .idx) rfl s)).trans (idxWord_toNat s)

/-- STATUS while a command is pending: BUSY, IGN and the OP field of the pending word (R24). -/
theorem statusWord_busy {s : State} {w : Word} (h : s.pending = some w) :
    (statusWord s).toNat = 1 + (if s.ign then 8 else 0) + 2 ^ 8 * (w.toNat % 16) := by
  simp only [statusWord, h, toNat_append_eq_add, BitVec.extractLsb'_toNat, BitVec.toNat_ofNat, BitVec.toNat_ofBool, Nat.shiftRight_zero]
  cases s.ign <;> simp <;> omega

section
variable {s : State} (h : s.pending = none)
include h

/-- STATUS while idle: bits 3 to 0 are IGN, ERR, DONE and BUSY = 0 (R24). -/
theorem statusWord_low :
    statusWord s &&& 0x0000000F = (if s.done then 2 else 0) + (if s.err then 4 else 0) + (if s.ign then 8 else 0) := by
  apply BitVec.eq_of_toNat_eq
  simp only [toNat_and_lowNibble, statusWord, h, toNat_append_eq_add, BitVec.toNat_ofNat, BitVec.toNat_ofBool,
    BitVec.toNat_add, toNat_ite_zero, BitVec.reduceToNat]
  have hdone := s.done.toNat_le
  have herr := s.err.toNat_le
  have hign := s.ign.toNat_le
  omega

/-- STATUS while idle: the code, the opcodes and the reserved bits (R24). -/
theorem statusWord_fields :
    (statusWord s).extractLsb' 4 4 = s.errCode ∧ (statusWord s).extractLsb' 8 4 = s.lastOp ∧
    (statusWord s).extractLsb' 12 4 = s.errStep ∧ (statusWord s).extractLsb' 21 11 = 0 := by
  simp (disch := decide) only [statusWord, h, BitVec.extractLsb'_append_eq_of_le, BitVec.extractLsb'_append_eq_of_add_le]
  exact ⟨BitVec.extractLsb'_eq_self, BitVec.extractLsb'_eq_self, BitVec.extractLsb'_eq_self, rfl⟩

/-- STATUS while idle: the five flags (R24). -/
theorem statusWord_flags :
    (statusWord s).getLsbD 16 = s.freqV ∧ (statusWord s).getLsbD 17 = s.treeV ∧ (statusWord s).getLsbD 18 = s.codeV ∧
    (statusWord s).getLsbD 19 = s.hdrV ∧ (statusWord s).getLsbD 20 = s.treeSrc := by
  simp only [statusWord, h, BitVec.getLsbD_append]
  simp

end

/-! ### The data windows -/

theorem codeShown_eq_some {s : State} (h : s.codeV = true ∧ s.index.toNat ≤ 256 ∧ (codeAt s s.index.toNat).valid = true) :
    codeShown s = some (codeAt s s.index.toNat) := if_pos h

theorem codeShown_eq_none {s : State} (h : ¬ (s.codeV = true ∧ s.index.toNat ≤ 256 ∧ (codeAt s s.index.toNat).valid = true)) :
    codeShown s = none := if_neg h

theorem codeInfo_toNat {s : State} {c : CodeEntry} (h : codeShown s = some c) : (codeInfo s).toNat = 2 ^ 31 + c.len.toNat := by
  simp only [codeInfo, h, toNat_append_eq_add, BitVec.toNat_ofNat]
  omega

theorem codeData_toNat {s : State} {c : CodeEntry} (h : codeShown s = some c) :
    (codeData s).toNat = c.val.toNat / 2 ^ (32 * s.wsel.toNat) % 2 ^ 32 := by
  simp [codeData, h, BitVec.extractLsb'_toNat, Nat.shiftRight_eq_div_pow]

theorem nodeShown_eq_some {s : State} {n : Node} (hv : s.treeV = true) (hi : s.index < s.nodeCount) (hn : nodeAt s s.index = n) :
    nodeShown s = some n := hn ▸ if_pos ⟨hv, hi⟩

theorem nodeShown_eq_none {s : State} (h : ¬ (s.treeV = true ∧ s.index < s.nodeCount)) : nodeShown s = none := if_neg h

theorem nodeInfo_leaf {s : State} {sym : Sym} {w : Word} (h : nodeShown s = some (.leaf sym w)) :
    (nodeInfo s).toNat = 2 ^ 31 + 2 ^ 30 + sym.toNat := by
  simp only [nodeInfo, h, toNat_append_eq_add, BitVec.toNat_ofNat]
  omega

theorem nodeInfo_internal {s : State} {w : Word} {l r : NodeIx} (h : nodeShown s = some (.internal w l r)) :
    (nodeInfo s).toNat = 2 ^ 31 := by
  simp [nodeInfo, h]

theorem nodeLink_internal {s : State} {w : Word} {l r : NodeIx} (h : nodeShown s = some (.internal w l r)) :
    (nodeLink s).toNat = l.toNat + 2 ^ 16 * r.toNat := by
  simp only [nodeLink, h, toNat_append_eq_add, BitVec.toNat_ofNat]
  omega

/-! ### The statements about single registers -/

/-- Settles O8: a write to STATUS is the acknowledgement `ackStatus`; while busy DONE and ERR are 0 already (`Inv.busyOk`). -/
theorem statusWrite : Obligations.StatusWrite := by
  intro s w
  have hack : memWrite 0x04 4 w s =
      { s with done := if w.getLsbD 1 then false else s.done, err := if w.getLsbD 1 then false else s.err,
               ign := if w.getLsbD 3 then false else s.ign } := by
    rw [memWrite_status, ackStatus]
    cases w.getLsbD 1 <;> cases w.getLsbD 3 <;> simp
  refine ⟨hack, fun hinv hb => ?_⟩
  obtain ⟨p, hp⟩ := Option.isSome_iff_exists.mp hb
  obtain ⟨hdone, herr, -⟩ := hinv.busyOk p hp
  simp only [hack, hdone, herr, ite_self]

/-- Settles O10: no register has an offset from 0x4C on. -/
theorem reservedOffsets : Obligations.ReservedOffsets := by
  intro s addr w hlo _
  simp [memRead, memWrite, Reg.ofOffset_reserved hlo]

/-- Settles O11: each of the offsets is a register's that `writeReg` ignores. -/
theorem readOnlyRegisters : Obligations.ReadOnlyRegisters := by
  intro s w addr haddr
  fin_cases haddr <;> rfl

/-- Settles O12: the two registers are written and read in every state, whatever BUSY is. -/
theorem irqEnAndIdx : Obligations.IrqEnAndIdx := by
  intro s w
  have hirq : (memWrite 0x0C 4 w s).irq = (w.getLsbD 0 && s.done) := by
    rw [memWrite_irqEn]
    rfl
  exact ⟨memWrite_irqEn w s, memRead_irqEn s, hirq, memWrite_offset .idx w s, memRead_idx s, rfl, rfl⟩

/-- Settles O13: STATUS reads `statusWord` in every state. -/
theorem statusFields : Obligations.StatusFields := by
  refine ⟨rfl, fun s => ?_⟩
  rw [memRead_status]
  refine ⟨fun hs => ?_, fun w hw => statusWord_busy hw⟩
  have hp := busy_eq_false.mp hs
  obtain ⟨hcode, hop, hstep, hzero⟩ := statusWord_fields hp
  obtain ⟨hfreq, htree, hcodes, hhdr, hsrc⟩ := statusWord_flags hp
  exact ⟨statusWord_low hp, hcode, hop, hstep, hfreq, htree, hcodes, hhdr, hsrc, hzero⟩

/-- Settles O14: the four registers that read always, and 0 at every other offset, whether or not it is a register's. -/
theorem busyReads : Obligations.BusyReads := by
  intro s hs
  refine ⟨fun w hw => memRead_status s ▸ statusWord_busy hw, memRead_always (r := .tag) rfl s, memRead_irqEn s, memRead_idx s,
    fun addr h4 hC h10 h30 => ?_⟩
  obtain h | ⟨r, rfl, h⟩ := memRead_cases addr 4 s
  · exact h
  · rw [h]
    refine readReg_busy hs ?_
    cases r
    case status => exact absurd rfl h4
    case irqEn => exact absurd rfl hC
    case tag => exact absurd rfl h10
    case idx => exact absurd rfl h30
    all_goals rfl

/-- Settles O15: each is the register's value, read while idle. -/
theorem resultRegisters : Obligations.ResultRegisters := by
  intro s hs
  have hread := memRead_idle hs
  have hroot : memRead 0x28 4 s = if s.treeV then BitVec.setWidth 32 s.root else 0 := hread .root
  have hcount : memRead 0x2C 4 s = BitVec.setWidth 32 s.nodeCount := hread .nodeCount
  have widen (x : BitVec 10) : (BitVec.setWidth 32 x).toNat = x.toNat := BitVec.toNat_setWidth_of_le (by decide)
  refine ⟨hread .cmd, hread .errInfo, hread .tag, hread .inCount, hread .encCount, hread .decCount, hread .outBits, hread .hdrBits,
    ?_, hcount ▸ widen _⟩
  rw [hroot]
  cases s.treeV
  · rfl
  · exact widen _

/-- Settles O16: what the two windows show is `freqData`, and `codeShown` read as two words. -/
theorem freqAndCodeWindow : Obligations.FreqAndCodeWindow := by
  refine ⟨rfl, fun s hs => ?_⟩
  have hfreq : memRead 0x34 4 s = freqData s := memRead_idle hs .freqData
  have hinfo : memRead 0x38 4 s = codeInfo s := memRead_idle hs .codeInfo
  have hdata : memRead 0x3C 4 s = codeData s := memRead_idle hs .codeData
  rw [hinfo, hdata]
  refine ⟨hfreq, fun h => ?_, fun h => ?_⟩
  · have hc := codeShown_eq_some h
    exact ⟨codeInfo_toNat hc, codeData_toNat hc⟩
  · simp [codeInfo, codeData, codeShown_eq_none h]

/-- Settles O17: the three words of the node that `nodeShown` shows, if it shows one. -/
theorem nodeWindow : Obligations.NodeWindow := by
  intro s hs
  have hinfo : memRead 0x40 4 s = nodeInfo s := memRead_idle hs .nodeInfo
  have hweight : memRead 0x44 4 s = nodeWeight s := memRead_idle hs .nodeWeight
  have hlink : memRead 0x48 4 s = nodeLink s := memRead_idle hs .nodeLink
  rw [hinfo, hweight, hlink]
  refine ⟨fun sym w hv hi hn => ?_, fun w l r hv hi hn => ?_, fun h => ?_⟩
  · have hshown := nodeShown_eq_some hv hi hn
    exact ⟨nodeInfo_leaf hshown, by simp [nodeWeight, hshown, Node.weight], by simp [nodeLink, hshown]⟩
  · have hshown := nodeShown_eq_some hv hi hn
    exact ⟨nodeInfo_internal hshown, by simp [nodeWeight, hshown, Node.weight], nodeLink_internal hshown⟩
  · simp [nodeInfo, nodeWeight, nodeLink, nodeShown_eq_none h]

end Sys2Proof.Machine
end

section
/-! The streams and the accesses that do not act (20_memory R71 to R81). -/

set_option autoImplicit false

namespace Sys2Proof.Machine

/-! ### Accesses that do not act -/

/-- An access fails to act by its width, by its alignment or by lying outside the window (R80, R81). -/
theorem accessActs_eq_false {addr width : Nat} :
    accessActs addr width = false ↔ width ≠ 4 ∨ addr % 4 ≠ 0 ∨ 0x80 ≤ addr := by
  simp [accessActs, imp_iff_not_or, or_assoc]

theorem memRead_of_not_acts {addr width : Nat} (h : accessActs addr width = false) (s : State) : memRead addr width s = 0 := by
  simp [memRead, h]

theorem memWrite_of_not_acts {addr width : Nat} (h : accessActs addr width = false) (w : Word) (s : State) :
    memWrite addr width w s = s := by
  simp [memWrite, h]

/-- Settles O9: none of these accesses acts. -/
theorem nonActingAccesses : Obligations.NonActingAccesses := by
  intro s addr width w h
  have hacts : accessActs addr width = false := accessActs_eq_false.mpr (by omega)
  exact ⟨memRead_of_not_acts hacts s, memWrite_of_not_acts hacts w s⟩

/-! ### OUT -/

/-- `bin_ofBits` at a width that is only propositionally the string's length. -/
theorem bin_ofNat_ofBits {n : Nat} {bs : List Bool} (h : bs.length = n) : bin n (BitVec.ofNat n (ofBits 0 bs)) = bs := by
  subst h
  exact bin_ofBits bs

/-- A whole byte of OUT lies within it, so it is eight bits (R76). -/
theorem bin_outByte {bits : List Bool} {j : Nat} (h : j < bits.length / 8) :
    bin 8 (outByte bits j) = (bits.drop (8 * j)).take 8 := by
  have hlen : ((bits.drop (8 * j)).take 8).length = 8 := by rw [List.length_take, List.length_drop]; omega
  exact bin_ofNat_ofBits hlen

theorem outBytes_length (bits : List Bool) : (outBytes bits).length = bits.length / 8 := by simp [outBytes]

/-- Settles O24: IN is its bytes' bits in order, and `outByte`, which reads eight bits as a number, is undone by `bin`. -/
theorem streamPacking : Obligations.StreamPacking :=
  ⟨inBits_eq_flatMap, fun _ _ hj => bin_outByte hj, outBytes_length, outBytes_flatMap_bin⟩

/-- Settles O26: the appended bits are the two operations' definitions, and `padding` fills the last byte. -/
theorem outRules : Obligations.OutRules := by
  refine ⟨fun n v s => rfl, fun s => ⟨rfl, ?_⟩⟩
  rw [outFlush_out, List.length_append]
  exact padding_length _

/-! ### IN -/

/-- A read that fails moves the position within R74's range. -/
theorem inRead_past_end {n : Nat} {s : State} (hp : s.inPos ≤ 8 * s.inBytes.length) (h : 8 * s.inBytes.length < s.inPos + n) :
    ∃ pos draws, inRead n s = (none, { s with inPos := pos, draws := draws }) ∧ s.inPos ≤ pos ∧ pos ≤ 8 * s.inBytes.length := by
  obtain ⟨pos, draws, hno, hlo, hhi⟩ := noData_cases s
  refine ⟨pos, draws, ?_, hlo, hhi hp⟩
  rw [inRead_noData (by rw [unread_length]; omega), hno]

/-- A read that succeeds answers the next `n` bits and moves past them. -/
theorem inRead_within {n : Nat} {s : State} (hn : 0 < n) (h : s.inPos + n ≤ 8 * s.inBytes.length) :
    ∃ v : BitVec n, bin n v = (unread s).take n ∧ inRead n s = (some v, { s with inPos := s.inPos + n }) := by
  have hlen : ((unread s).take n).length = n := by rw [List.length_take, unread_length]; omega
  exact ⟨BitVec.ofNat n (ofBits 0 ((unread s).take n)), bin_ofNat_ofBits hlen,
    inRead_of_unread hlen hn (List.take_append_drop n (unread s)).symm⟩

/-- Settles O25: R74's two cases. -/
theorem inReadRule : Obligations.InReadRule :=
  fun _ _ hn _ hp => ⟨inRead_past_end hp, inRead_within hn⟩

end Sys2Proof.Machine
end

section
/-! The decoder of command words against their encoder (30_encoding R100 to R103), the completion of an illegal word (R102), the macros as
sequences (R115) and the host's moves (R113). -/

set_option autoImplicit false

namespace Sys2Proof.Machine

/-! ### The two fields of a command word (R100) -/

theorem opField_toNat (w : Word) : (opField w).toNat = w.toNat % 16 := by
  simp [opField, BitVec.extractLsb'_toNat]

theorem rsvField_eq_zero {w : Word} : rsvField w = 0 ↔ w.toNat < 16 := by
  have hval : (rsvField w).toNat = w.toNat / 16 := by
    simp only [rsvField, BitVec.extractLsb'_toNat, Nat.shiftRight_eq_div_pow]
    omega
  rw [← BitVec.toNat_inj, hval]
  exact Nat.div_eq_zero_iff_lt (by decide)

/-! ### The decoder -/

/-- The opcode map read backwards (R101). -/
theorem instrOfOp_eq_some {op : Nibble} {i : Instr} : instrOfOp op = some i ↔ op = opcode i := by
  constructor
  · unfold instrOfOp
    split <;> rintro ⟨⟩ <;> exact BitVec.eq_of_toNat_eq ‹_›
  · rintro rfl
    cases i <;> rfl

/-- The opcodes below 0xB name a command, the reserved ones none (R101, R102). -/
theorem instrOfOp_isSome (op : Nibble) : (instrOfOp op).isSome ↔ op.toNat < 0xB := by
  decide +revert

/-- A word means a command exactly when RSV is 0 and OP is the command's (R101). -/
theorem decodeWord_eq_ok {w : Word} {i : Instr} : decodeWord w = .ok i ↔ rsvField w = 0 ∧ opField w = opcode i := by
  rw [← instrOfOp_eq_some]
  unfold decodeWord
  split
  next hrsv => cases instrOfOp (opField w) <;> simp [hrsv]
  next hrsv => simp only [reduceCtorEq, hrsv, false_and]

/-- Settles O2: a word is its two fields, and the command's word has RSV = 0 and its opcode. -/
theorem decodeIffEncode : Obligations.DecodeIffEncode := by
  intro w i
  have hword : (encode i).toNat = (opcode i).toNat := by cases i <;> rfl
  rw [decodeWord_eq_ok, rsvField_eq_zero, ← BitVec.toNat_inj, ← BitVec.toNat_inj, opField_toNat, hword]
  omega

/-- Settles O1: each is its command's word. -/
theorem commandWords : Obligations.CommandWords :=
  have hword (i : Instr) : decodeWord (encode i) = .ok i := (decodeIffEncode _ i).mpr rfl
  ⟨hword .nop, hword .clear, hword .count, hword .build, hword .gencode, hword .writeHeader, hword .encode, hword .compress,
    hword .readHeader, hword .decodeBody, hword .decompress⟩

/-- The legal words are the numbers 0 to 0xA (R101, R102). -/
theorem exists_decodeWord {w : Word} : (∃ i, decodeWord w = .ok i) ↔ w.toNat < 0xB := by
  have hop : (∃ i, opField w = opcode i) ↔ w.toNat % 16 < 0xB := by
    rw [← opField_toNat, ← instrOfOp_isSome, Option.isSome_iff_exists]
    simp only [instrOfOp_eq_some]
  simp only [decodeWord_eq_ok, exists_and_left, hop, rsvField_eq_zero]
  omega

/-! ### Illegal command words (R102) -/

/-- An illegal word completes with ILLEGAL_CMD, a check error: the flags stay (R102, R233). -/
theorem blockMove_illegal {s : State} {w : Word} (hp : s.pending = some w) (hw : ¬ ∃ i, decodeWord w = .ok i) :
    blockMove s = .next (State.failedWith 8 w (opField w) s) := by
  simp only [blockMove, hp]
  split
  next i hi => exact absurd ⟨i, hi⟩ hw
  next => rfl

/-- Settles O3: a word has a reserved OP or a nonzero RSV exactly when it is 0xB or more, which no command's word is. -/
theorem illegalCommand : Obligations.IllegalCommand := by
  intro s w
  have hillegal : (0xB ≤ w.toNat % 16 ∨ w.toNat / 16 ≠ 0) ↔ ¬ ∃ i, decodeWord w = .ok i := by
    rw [exists_decodeWord]
    omega
  rw [hillegal, not_not]
  refine ⟨fun hw => ⟨fun hs => ?_, fun hp hb => ?_⟩, id⟩
  · rw [memWrite_cmd_idle hs, accept_pending]
  · rw [step_block hb]
    exact blockMove_illegal hp hw

/-! ### The macros (R115) -/

/-- A macro and the sequence of its components both end as the chain of the components' runs does. -/
theorem macro_eq_runSequence {i first : Instr} {rest : List Instr} (hchain : ∀ s, chain (first :: rest) s = bodyOf i s)
    (hl : ∀ s, Chainable (first :: rest) s) (hm : ∀ s, missing i s = 0) {s : State} (hs : s.busy = false) :
    exec i (memWrite 0x00 4 (encode i) s) = withLastOp (opcode i) (runSequence (first :: rest) s) :=
  (macro_protocol hchain hl hm s hs).trans (runSequence_eq (opcode i) first rest s hs (hl s)).symm

/-- Settles O47: no precondition of a component fails within its macro, so a macro ends as its sequence does. -/
theorem macrosAreSequences : Obligations.MacrosAreSequences :=
  fun _ hs => ⟨macro_eq_runSequence (i := .compress) chain_compress chainable_compress (fun _ => rfl) hs,
    macro_eq_runSequence (i := .decompress) chain_decompress chainable_decompress (fun _ => rfl) hs⟩

/-! ### The host's moves (R113) -/

theorem step_host {s : State} (h : nextAgent s = .host) : step s = hostMove { s with schedule := s.schedule.tail } := by
  simp [step, h, agentMove]

/-- With an instruction left the host executes it, and it is gone from the list. -/
theorem step_hostExec {s : State} {i : HostInstr} {rest : List HostInstr} (h : nextAgent s = .host) (hi : s.host = i :: rest) :
    step s = hostExec i { s with host := rest, schedule := s.schedule.tail } := by
  simp only [step_host h, hostMove, hi]

/-- A stream is not moved while a command is pending (R64, R65; log 8). -/
theorem whileIdle_busy {s : State} (h : s.busy = true) (s1 : State) : whileIdle s s1 = .refused .streamMovedWhileBusy := if_pos h

theorem setInPort_busy {bytes : List Byte} {pos : Nat} {s : State} (hpos : pos ≤ 8 * bytes.length) (h : s.busy = true) :
    setInPort bytes pos s = .refused .streamMovedWhileBusy :=
  (if_pos hpos).trans (whileIdle_busy h _)

/-- A position past the bits of IN is refused, idle or busy (R64; log 8). -/
theorem setInPort_outside {bytes : List Byte} {pos : Nat} (hpos : 8 * bytes.length < pos) (s : State) :
    setInPort bytes pos s = .refused .positionOutsideStream := if_neg hpos.not_ge

/-- A read does not see the model's own queues. -/
theorem memRead_queues (addr width : Nat) (s : State) (host : List HostInstr) (schedule : List Agent) :
    memRead addr width { s with host := host, schedule := schedule } = memRead addr width s := rfl

/-- Settles O18: each is the host's next instruction, executed with the instruction and the schedule's entry gone. -/
theorem hostMoves : Obligations.HostMoves := by
  intro s rest h
  have hexec {i : HostInstr} (hi : s.host = i :: rest) := step_hostExec h hi
  refine ⟨fun hi => ?nothing, fun addr width v hi => hexec hi, fun addr width hi => hexec hi, fun addr mask value hi => ?poll,
    fun bytes pos hi hpos hs => ?setIn, fun pos hi hpos hs => ?seekIn, fun bits hi hs => ?setOut,
    fun bytes pos hi hpos hs => (hexec hi).trans (setInPort_busy hpos hs),
    fun pos hi hpos hs => (hexec hi).trans (setInPort_busy hpos hs),
    fun bits hi hs => (hexec hi).trans (whileIdle_busy hs _),
    fun bytes pos hi hpos => (hexec hi).trans (setInPort_outside hpos _),
    fun pos hi hpos => (hexec hi).trans (setInPort_outside hpos _)⟩
  case nothing => simp only [step_host h, hostMove, hi]
  case poll =>
    simp only [hexec hi, hostExec, memRead_queues, ← hi]
    split <;> rfl
  case setIn | seekIn => exact (hexec hi).trans (setInPort_eq_next.mpr ⟨hpos, hs, rfl⟩)
  case setOut => exact (hexec hi).trans (whileIdle_eq_next.mpr ⟨hs, rfl⟩)

end Sys2Proof.Machine
end

section
/-! Acceptance, the preconditions and completion (40_control R130 to R137), and what they and every agent's step do to the invariant. -/

set_option autoImplicit false

namespace Sys2Proof.Machine

/-! ### Every step and the invariant (R131, R134) -/

/-- The schedule does not enter the invariant. -/
theorem inv_scheduleTail {s : State} (h : Inv s) : Inv { s with schedule := s.schedule.tail } := inv_queues h s.host s.schedule.tail

/-- Settles O53: the move of each agent keeps the invariant. -/
theorem stepKeepsInv : Obligations.StepKeepsInv := by
  intro s t h ht
  have hq := inv_scheduleTail h
  obtain ⟨-, hs⟩ | ⟨-, hs⟩ | ⟨-, hs⟩ := step_cases s <;> rw [hs] at ht
  · exact inv_hostMove hq ht
  · obtain ⟨t1, ht1, hinv⟩ := inv_blockMove hq
    exact Host.Outcome.next.inj (ht1.symm.trans ht) ▸ hinv
  · exact Host.Outcome.next.inj ht ▸ inv_resetMove hq.inPosOk

/-- From a state with the invariant a command completes: DONE = 1, BUSY = 0 and the invariant again. -/
theorem exec_completes (i : Instr) {s : State} (h : Inv s) : ∃ t, exec i s = .next t ∧ t.done = true ∧ t.busy = false ∧ Inv t := by
  obtain ⟨t, ht, hinv⟩ := inv_exec i h
  obtain ⟨s1, -, hr⟩ := exec_retired (framed_runOf i s) ht
  exact ⟨t, ht, hr.done, busy_eq_false.mpr hr.pending, hinv⟩

theorem whileIdle_ne_fault (s s1 : State) (f : Fault) : whileIdle s s1 ≠ .fault f := by
  unfold whileIdle
  split <;> simp

theorem setInPort_ne_fault (bytes : List Byte) (pos : Nat) (s : State) (f : Fault) : setInPort bytes pos s ≠ .fault f := by
  unfold setInPort
  split
  · exact whileIdle_ne_fault _ _ f
  · simp

/-- A host instruction acts or is refused. -/
theorem hostExec_ne_fault (i : HostInstr) (s : State) (f : Fault) : hostExec i s ≠ .fault f := by
  cases i with
  | wr addr width v | rd addr width => simp [hostExec]
  | poll addr mask value =>
    simp only [hostExec]
    split <;> simp
  | setIn bytes pos | seekIn pos => exact setInPort_ne_fault _ _ s f
  | setOut bits => exact whileIdle_ne_fault _ _ f

theorem hostMove_ne_fault (s : State) (f : Fault) : hostMove s ≠ .fault f := by
  unfold hostMove
  split
  · simp
  · exact hostExec_ne_fault _ _ f

/-- From a state with the invariant the block's step gives a next state, whatever word is pending. -/
theorem step_block_next {s : State} (h : Inv s) (hb : nextAgent s = .block) : ∃ t, step s = .next t := by
  obtain ⟨t, ht, -⟩ := inv_blockMove (inv_scheduleTail h)
  exact ⟨t, (step_block hb).trans ht⟩

/-- From a state with the invariant no agent's step faults: only the block's could. -/
theorem step_ne_fault {s : State} (h : Inv s) (f : Fault) : step s ≠ .fault f := by
  obtain ⟨-, hs⟩ | ⟨hb, -⟩ | ⟨-, hs⟩ := step_cases s
  · exact hs ▸ hostMove_ne_fault _ f
  · obtain ⟨t, ht⟩ := step_block_next h hb
    simp [ht]
  · simp [hs]

/-- Settles O54: a command is never stuck in a state with the invariant, so neither is the block; the host and reset never fault. -/
theorem everyCommandCompletes : Obligations.EveryCommandCompletes :=
  fun _ h => ⟨fun i => exec_completes i h, step_block_next h, step_ne_fault h⟩

/-! ### The preconditions (R133) -/

/-- The commands with a precondition, and when it fails. -/
theorem missing_ne_zero {i : Instr} {s : State} :
    missing i s ≠ 0 ↔
      (i = .build ∧ s.freqV = false) ∨ (i = .gencode ∧ (s.treeV = false ∨ s.treeSrc = true)) ∨
      ((i = .writeHeader ∨ i = .decodeBody) ∧ s.treeV = false) ∨ (i = .encode ∧ s.codeV = false) := by
  have hmask {c : Bool} {m : Word} (hm : m ≠ 0#32) : maskIf c m = 0#32 ↔ c = true := maskIf_eq_zero hm
  cases i <;> simp [missing, hmask, imp_iff_not_or]

/-- A command whose precondition fails completes with SEQUENCE and the missing mask (R132, R133). -/
theorem exec_sequence {i : Instr} {s : State} {m : Word} (h : missing i s = m) (hm : m ≠ 0) :
    exec i s = .next (State.failedWith 9 m (opcode i) s) := by
  subst h
  rw [exec_eq, runOf_eq, if_neg hm]
  rfl

/-- No execution-time error has SEQUENCE's code (R230). -/
theorem ErrorRow.code_ne_sequence {e : Err} {info : Word} {step : Nibble} {s : State} (h : ErrorRow e info step s) : e.code ≠ 9 := by
  cases e
  case illegalCmd | sequenceErr => exact h.elim
  all_goals decide

/-- A command completes with SEQUENCE only when its precondition fails. -/
theorem missing_of_exec_sequence {i : Instr} {s t : State} (ht : exec i s = .next t) (herr : t.err = true) (hcode : t.errCode = 9) :
    missing i s ≠ 0 := by
  obtain ⟨hm, -⟩ | ⟨-, s1, -, hs⟩ | ⟨-, e, info, step, s1, -, hrow, hs⟩ | ⟨-, f, -, hs⟩ := exec_cases i s
  · exact hm
  all_goals rw [hs] at ht
  · obtain rfl := Host.Outcome.next.inj ht
    exact absurd herr Bool.false_ne_true
  · obtain rfl := Host.Outcome.next.inj ht
    exact absurd hcode hrow.code_ne_sequence
  · cases ht

/-- Settles O27: the masks row by row, and `missing` is nonzero in these rows only. -/
theorem sequenceErrors : Obligations.SequenceErrors :=
  fun s =>
    ⟨fun hf => exec_sequence (by simp [missing, maskIf, hf]) (by decide),
      fun ht hs => exec_sequence (by simp [missing, maskIf, ht, hs]) (by decide),
      fun ht hs => exec_sequence (by simp [missing, maskIf, ht, hs]) (by decide),
      fun ht hs => exec_sequence (by simp [missing, maskIf, ht, hs]) (by decide),
      fun ht => exec_sequence (by simp [missing, maskIf, ht]) (by decide),
      fun hc => exec_sequence (by simp [missing, maskIf, hc]) (by decide),
      fun ht => exec_sequence (by simp [missing, maskIf, ht]) (by decide),
      fun _ _ ht herr hcode => missing_ne_zero.mp (missing_of_exec_sequence ht herr hcode)⟩

/-! ### What a completion writes (R131) -/

/-- The five flags are not in the frame of a run. -/
theorem framed_flagless {s s1 : State} (h : Framed s s1) : Framed s s1.flagless :=
  ⟨h.params, h.pending, h.done, h.err, h.ign, h.errCode, h.lastOp, h.errStep, h.errInfo, h.ie, h.index, h.wsel, h.inBytes, h.host,
    h.reads, h.schedule, h.out⟩

/-- A completion is a framed run and then the fields of R131, written after no error or after one. -/
theorem exec_eq_next {i : Instr} {s t : State} (ht : exec i s = .next t) :
    ∃ s1, Framed s s1 ∧ (t = s1.completed ∨ ∃ code info step, t = State.failedWith code info step s1) := by
  obtain ⟨-, hs⟩ | ⟨hm, s1, hb, hs⟩ | ⟨hm, e, info, step, s1, hb, -, hs⟩ | ⟨-, f, -, hs⟩ := exec_cases i s <;> rw [hs] at ht
  · exact ⟨s, Framed.refl s, .inr ⟨_, _, _, (Host.Outcome.next.inj ht).symm⟩⟩
  · have hf := framed_bodyOf i hm
    rw [hb] at hf
    exact ⟨s1, hf, .inl (Host.Outcome.next.inj ht).symm⟩
  · have hf := framed_bodyOf i hm
    rw [hb] at hf
    exact ⟨s1.flagless, framed_flagless hf, .inr ⟨_, _, _, (Host.Outcome.next.inj ht).symm⟩⟩
  · cases ht

/-- Settles O50: the run's frame `Framed`, under the fields a completion writes. -/
theorem completionFrame : Obligations.CompletionFrame := by
  intro i s t ht
  obtain ⟨s1, h, rfl | ⟨code, info, step, rfl⟩⟩ := exec_eq_next ht <;>
    refine ⟨rfl, rfl, h.ie, h.index, h.wsel, h.lastOp, h.ign, h.inBytes, h.params, h.out, h.host, h.reads, h.schedule, fun herr => ?_⟩
  · exact ⟨h.errCode, h.errStep, h.errInfo⟩
  · cases herr

/-! ### The block's step (R131, R132) -/

theorem blockMove_command {s : State} {w : Word} {i : Instr} (hp : s.pending = some w) (hw : decodeWord w = .ok i) :
    blockMove s = exec i s := by
  simp only [blockMove, hp, hw]

theorem blockMove_idle {s : State} (hp : s.pending = none) : blockMove s = .next s := by
  simp only [blockMove, hp]

/-- Settles O4: the block's step is `blockMove`, with the schedule's first entry used up. -/
theorem stepRunsPendingCommand : Obligations.StepRunsPendingCommand :=
  fun _ hb => ⟨fun _ _ hp hw => (step_block hb).trans (blockMove_command hp hw), fun hp => (step_block hb).trans (blockMove_idle hp)⟩

/-- A command word is 32 bits, so its opcode-table row is the word itself (R100). -/
theorem tableWord_toNat (w : Word) : tableWord 32 w.toNat = w := by
  rw [tableWord, Nat.mod_eq_of_lt w.isLt, BitVec.ofNat_toNat, BitVec.setWidth_eq]

theorem withFetchWord_command (s : State) (i : Instr) :
    s.withFetchWord 32 (encode i).toNat = { accept (encode i) s with schedule := .block :: s.schedule } := by
  rw [State.withFetchWord, tableWord_toNat]

/-- Settles O5: the placed word is pending and the block moves next, so the step runs the word's command. -/
theorem withFetchWordRunsIt : Obligations.WithFetchWordRunsIt := by
  intro s i
  rw [withFetchWord_command]
  obtain ⟨hrun, -⟩ := stepRunsPendingCommand { accept (encode i) s with schedule := .block :: s.schedule } rfl
  exact hrun (encode i) i rfl ((decodeIffEncode _ i).mpr rfl)

/-! ### Writes to CMD (R130, R137) -/

/-- Settles O6: an idle block accepts the word; PENDING is then present and DONE is 0. -/
theorem acceptance : Obligations.Acceptance := by
  intro s w hs
  rw [memWrite_cmd_idle hs]
  exact ⟨rfl, rfl, by simp [State.irq]⟩

/-- Settles O7: CMD is written while busy, so the word is ignored but for IGN. -/
theorem cmdWhileBusy : Obligations.CmdWhileBusy :=
  fun s w hs => (memWrite_offset .cmd w s).trans (if_pos hs)

/-! ### NOP and CLEAR (R135, R136) -/

/-- A command whose preconditions hold and whose run ends well completes the state it ends in (R131). -/
theorem exec_of_ok {i : Instr} {s s1 : State} (hm : missing i s = 0) (hb : bodyOf i s = .ok () s1) : exec i s = .next s1.completed := by
  rw [exec_eq, runOf_eq, if_pos hm, hb]
  rfl

/-- Settles O28: NOP's run changes nothing. -/
theorem nopResult : Obligations.NopResult := fun _ => exec_of_ok rfl rfl

/-- Settles O29: CLEAR's run ends in `cleared`. -/
theorem clearResult : Obligations.ClearResult := fun _ => exec_of_ok (i := .clear) rfl rfl

end Sys2Proof.Machine
end

section
/-! The encoder's commands (41_encoder R150 to R168): each statement from what the command's run does and the fields its completion
writes (40_control R131). -/

set_option autoImplicit false

namespace Sys2Proof.Machine

/-! ### Completion with an error (R131, R233) -/

/-- A command whose preconditions hold and whose run raises an execution-time error completes with that error, all flags 0. -/
theorem exec_of_raised {i : Instr} {s s1 : State} {e : Err} {info : Word} {step : Nibble} (hm : missing i s = 0)
    (hb : bodyOf i s = .raised e info step s1) (he : e.isExecution = true) :
    exec i s = .next (State.failedWith e.code info step s1.flagless) := by
  rw [exec_eq, runOf_eq, if_pos hm, hb, complete, enterError, if_pos he]
  rfl

theorem storedTree_completed (s : State) : storedTree s.completed = storedTree s := storedTree_congr rfl rfl rfl

/-! ### COUNT (R150) -/

/-- No count wraps on an IN that COUNT can count. -/
theorem CountsOf.toNat_literal {bytes : List Byte} {f : List (Nat × Word)} (hf : CountsOf bytes f)
    (hl : bytes.length ≤ 2 ^ 32 - 2) {k : Nat} (hk : k ≤ 255) :
    (memGet freqDefault f k).toNat = (bytes.map BitVec.toNat).count k := by
  have hle := occurrences_le bytes k
  have hne : k ≠ Config.pseudoEof := by rw [Config.pseudoEof]; omega
  rw [hf k, if_neg hne, BitVec.toNat_ofNat, Nat.mod_eq_of_lt (by omega), occurrences]

/-- The table is determined by the bytes counted (R157). -/
theorem CountsOf.unique {bytes : List Byte} {f f1 : List (Nat × Word)} (hf : CountsOf bytes f) (hf1 : CountsOf bytes f1)
    (hwf : memWf freqDefault Config.alphabetSize f = true) (hwf1 : memWf freqDefault Config.alphabetSize f1 = true) : f = f1 :=
  memWf_ext hwf hwf1 fun k => (hf k).trans (hf1 k).symm

theorem exec_count {s : State} (hl : s.inBytes.length ≤ 2 ^ 32 - 2) :
    ∃ f, exec .count s = .next (counted f s).completed ∧ CountsOf s.inBytes f ∧ memWf freqDefault Config.alphabetSize f = true := by
  obtain ⟨f, hrun, hcounts, hwf⟩ := runCount_ok s hl
  exact ⟨f, exec_of_ok rfl hrun, hcounts, hwf⟩

/-- Settles O30: COUNT's run on either side of `COUNT_MAX`. -/
theorem countResult : Obligations.CountResult := by
  refine fun s => ⟨fun hl => ?_, fun hl => ?_⟩
  · obtain ⟨f, hexec, hcounts, hwf⟩ := exec_count hl
    exact ⟨f, hexec, fun _ hk => hcounts.toNat_literal hl hk, hcounts 256, hwf⟩
  · obtain ⟨f, hrun, -⟩ := runCount_overflow s hl
    exact ⟨f, exec_of_raised (i := .count) rfl hrun rfl⟩

/-! ### BUILD (R152 to R157) -/

theorem missing_build_eq_zero {s : State} (hf : s.freqV = true) : missing .build s = 0 := (maskIf_eq_zero (by decide)).2 hf

theorem buildLeaves_ne_nil {s : State} : buildLeaves s ≠ [] ↔ countedSyms s ≠ [] := by
  rw [← List.length_pos_iff, ← List.length_pos_iff, buildLeaves_length]

theorem countedSyms_congr {s s1 : State} (h : s1.freq = s.freq) : countedSyms s1 = countedSyms s := by
  simp only [countedSyms, freqAt_congr h]

theorem countedSyms_ne_nil {s : State} (hi : Inv s) (hf : s.freqV = true) : countedSyms s ≠ [] :=
  buildLeaves_ne_nil.1 (counts_buildLeaves (hi.counted hf).1)

/-- No sum of counts wraps in a state of a run (R152). -/
theorem freqTotal_of_inv {s : State} (hi : Inv s) (hf : s.freqV = true) :
    freqTotal s = s.inCount.toNat + 1 ∧ freqTotal s ≤ 2 ^ 32 - 1 := by
  obtain ⟨-, htotal, hmax⟩ := hi.counted hf
  rw [show Config.countMax.toNat = 2 ^ 32 - 2 from rfl] at hmax
  exact ⟨htotal, by omega⟩

theorem builtCount_of_two_le {s : State} (h : 2 ≤ (countedSyms s).length) : builtCount s = 2 * (countedSyms s).length - 1 := by
  rw [builtCount, buildLeaves_length, if_neg (by omega)]

theorem builtCount_of_one {s : State} (h : (countedSyms s).length = 1) : builtCount s = 3 := by
  rw [builtCount, buildLeaves_length, if_pos h]

theorem exec_build {s : State} (hf : s.freqV = true) (hne : countedSyms s ≠ []) :
    ∃ ns t, exec .build s = .next (treeBuilt ns s).completed ∧ Built s (treeBuilt ns s) t := by
  obtain ⟨ns, t, hrun, hbuilt⟩ := runBuild_ok (buildLeaves_ne_nil.2 hne)
  exact ⟨ns, t, exec_of_ok (missing_build_eq_zero hf) hrun, hbuilt⟩

/-- With no counted symbol BUILD does not complete (log 9), so a BUILD that completed had one and left a built tree. -/
theorem exec_build_eq_next {s t : State} (hf : s.freqV = true) (ht : exec .build s = .next t) :
    ∃ ns tree, t = (treeBuilt ns s).completed ∧ Built s (treeBuilt ns s) tree ∧ buildLeaves s ≠ [] := by
  by_cases hne : buildLeaves s = []
  · have hrun : runBuild s = .stuck .noLeaf := by rw [runBuild, hne]
    rw [exec_eq, runOf_eq, if_pos (missing_build_eq_zero hf), show bodyOf .build s = runBuild s from rfl, hrun] at ht
    cases ht
  · obtain ⟨ns, tree, hexec, hbuilt⟩ := exec_build hf (buildLeaves_ne_nil.1 hne)
    exact ⟨ns, tree, Host.Outcome.next.inj (ht.symm.trans hexec), hbuilt, hne⟩

/-- Settles O31: the built nodes are `AllocatedAsBuilt`, read off for L ≥ 2 and for L = 1. -/
theorem buildResult : Obligations.BuildResult := by
  refine fun s hf => ⟨fun h2 => ?_, fun sym h1 => ?_, fun hi => ?_⟩
  · obtain ⟨ns, t, hexec, hbuilt⟩ := exec_build hf (List.length_pos_iff.1 (by omega))
    obtain ⟨hleaves, hjoins, -⟩ := hbuilt.allocatedAsBuilt.congr (s1 := (treeBuilt ns s).completed) rfl rfl
    refine ⟨ns, _, hexec, ?_, hleaves, hjoins h2⟩
    rw [treeBuilt, builtCount_of_two_le h2, Nat.sub_sub]
    rfl
  · obtain ⟨ns, t, hexec, hbuilt⟩ := exec_build hf (by rw [h1]; exact List.cons_ne_nil _ _)
    obtain ⟨hleaves, -, hwrap⟩ := hbuilt.allocatedAsBuilt.congr (s1 := (treeBuilt ns s).completed) rfl rfl
    obtain ⟨hsynth, hroot⟩ := hwrap sym h1
    refine ⟨ns, _, hexec, ?_, hleaves 0 sym (congrArg (·[0]?) h1), hsynth, hroot⟩
    rw [treeBuilt, builtCount_of_one (by rw [h1]; rfl)]
    rfl
  · exact ⟨countedSyms_ne_nil hi hf, freqTotal_of_inv hi hf⟩

/-- How many leaves and nodes BUILD leaves, and how deep the wrap is (R154). -/
theorem Built.dimensions {s s1 : State} {t : Tree} (h : Built s s1 t) (hne : countedSyms s ≠ []) :
    t.size = builtCount s ∧ (2 ≤ (countedSyms s).length → t.leaves.length = (countedSyms s).length) ∧
      ((countedSyms s).length = 1 → t.size = 3 ∧ t.depth = 1) := by
  have hsize := t.size_eq
  have hpos := List.length_pos_iff.2 hne
  have hlen : 2 ≤ (countedSyms s).length → t.leaves.length = (countedSyms s).length := by
    rw [← buildLeaves_length]
    exact h.leavesLen
  have hwrap : (countedSyms s).length = 1 → t.size = 3 ∧ t.depth = 1 := by
    intro h1
    rw [← buildLeaves_length] at h1
    obtain ⟨n, hn⟩ := List.length_eq_one_iff.1 h1
    obtain ⟨k, -, -, rfl⟩ := mem_buildLeaves (s := s) (n := n) (by rw [hn]; exact List.mem_singleton_self _)
    obtain ⟨rfl, -⟩ := h.wrap _ _ hn
    exact ⟨rfl, rfl⟩
  refine ⟨?_, hlen, hwrap⟩
  rcases Nat.lt_or_ge (countedSyms s).length 2 with hlt | h2
  · rw [builtCount_of_one (by omega)]
    exact (hwrap (by omega)).1
  · rw [builtCount_of_two_le h2]
    have := hlen h2
    omega

theorem treeBuilt_nodeCount (ns : List (Nat × Node)) (s : State) : (treeBuilt ns s).nodeCount.toNat = builtCount s := by
  have hle : builtCount s ≤ 513 := builtCount_le s
  exact ofNat_toNat_of_lt (by omega)

/-- Settles O32: sizes from the number of leaves, depth below it. -/
theorem buildTree : Obligations.BuildTree := by
  intro s hf hne
  obtain ⟨ns, t, hexec, hbuilt⟩ := exec_build hf hne
  obtain ⟨hsize, hlen, hwrap⟩ := hbuilt.dimensions hne
  have hstored : storedTree (treeBuilt ns s).completed = some t := (storedTree_completed _).trans hbuilt.stored
  have hdepth := t.depth_lt_leaves
  refine ⟨_, t, hexec, hstored, builtFor_congr rfl hbuilt.builtFor, hsize.trans (treeBuilt_nodeCount ns s).symm,
    Tree.size_le_of_leaves hbuilt.leavesLe, ((storedTree_iff _ t).1 hstored).2, fun h2 => ⟨?_, ?_⟩, hwrap⟩
  · exact hsize.trans (builtCount_of_two_le h2)
  · have := hlen h2
    omega

/-- Settles O33: the root's weight is the sum of the counts, which COUNT made IN_COUNT + 1. -/
theorem weightsExact : Obligations.WeightsExact := by
  intro s hi hf
  obtain ⟨ns, t, hexec, hbuilt⟩ := exec_build hf (countedSyms_ne_nil hi hf)
  obtain ⟨htotal, hmax⟩ := freqTotal_of_inv hi hf
  have hstored : storedTree (treeBuilt ns s).completed = some t := (storedTree_completed _).trans hbuilt.stored
  have hbuiltFor : BuiltFor s t := builtFor_congr rfl hbuilt.builtFor
  refine ⟨_, hexec, ?_⟩
  rw [stored_weight hstored, builtFor_weight_total hbuiltFor (by omega), htotal]

/-! ### GENCODE (R158, R159) -/

theorem exec_gencode {s : State} {t : Tree} (ht : s.treeV = true) (hs : s.treeSrc = false) (hstored : storedTree s = some t) :
    exec .gencode s = .next (coded t s).completed :=
  exec_of_ok (by simp [missing, maskIf, ht, hs]) (runGencode_ok hstored)

/-- Settles O35: the entries of `codeTable`, leaf by leaf. -/
theorem gencodeResult : Obligations.GencodeResult := by
  intro s t ht hs hstored hbuilt
  have ⟨hfork, hnodup, _⟩ := hbuilt
  exact ⟨codeTable t, exec_gencode ht hs hstored,
    fun c hc hw => ⟨codeTable_mem t hnodup c hc hw, t.path_pos hfork c hc, path_length_le_max hstored hc⟩,
    fun k _ hk => codeTable_uncounted hbuilt hk, codeTable_wf hstored⟩

/-- A valid entry of a built tree's code table is the path to a leaf of its symbol. -/
theorem codeTable_valid {s : State} {t : Tree} (hstored : storedTree s = some t) (hbuilt : BuiltFor s t) {k : Nat} (hk : k ≤ 256)
    (hv : (memGet codeDefault (codeTable t) k).valid = true) :
    ∃ c ∈ t.codes, c.sym.toNat = k ∧ codeString (memGet codeDefault (codeTable t) k) = c.path := by
  have hk : k < Config.alphabetSize := Nat.lt_succ_of_le hk
  have hcount : freqAt s k ≠ 0 := by
    intro h0
    rw [codeTable_uncounted hbuilt h0] at hv
    exact absurd hv Bool.false_ne_true
  obtain ⟨c, hc, hsym, -, hentry⟩ := codeTable_counted hbuilt hk hcount
  refine ⟨c, hc, by rw [hsym, ofNat9_toNat hk], ?_⟩
  rw [hentry, codeString_entryOf (path_length_le_max hstored hc)]

/-- Settles O36: in one tree a path that begins another path ends in the same leaf, so in the same symbol. -/
theorem prefixFree : Obligations.PrefixFree := by
  intro s hi ht hs
  obtain ⟨-, t, hstored, hbuilt⟩ := hi.builtFreq ht hs
  refine ⟨_, t, exec_gencode ht hs hstored, hstored, fun k hk hv => codeTable_valid hstored hbuilt hk hv,
    fun j k hj hk hne hvj hvk hprefix => hne ?_⟩
  obtain ⟨c, hc, rfl, hcpath⟩ := codeTable_valid hstored hbuilt hj hvj
  obtain ⟨d, hd, rfl, hdpath⟩ := codeTable_valid hstored hbuilt hk hvk
  rw [show c = d from t.prefix_free hc hd (by rw [← hcpath, ← hdpath]; exact hprefix)]

/-! ### WRITE_HEADER (R160, R161) -/

theorem exec_writeHeader {s : State} {t : Tree} (ht : s.treeV = true) (hstored : storedTree s = some t) :
    exec .writeHeader s = .next (headed t s).completed :=
  exec_of_ok ((maskIf_eq_zero (by decide)).2 ht) (runWriteHeader_ok hstored)

theorem headed_eq (t : Tree) (s : State) :
    headed t s =
      { s with
        out     := s.out ++ bin 32 s.params.huffTag ++ t.header
        hdrV    := true
        hdrBits := BitVec.ofNat 32 t.header.length
        outBits := s.outBits + BitVec.ofNat 32 (32 + t.header.length) } := by
  simp [headed, flagsHeaderWritten, headerWritten, outWrite, hdrBitsZero, BitVec.ofNat_add, BitVec.add_assoc]

/-- Settles O37: the header of the stored tree. -/
theorem writeHeaderResult : Obligations.WriteHeaderResult := by
  intro s t ht hstored
  refine ⟨?_, ?_⟩
  · rw [exec_writeHeader ht hstored, headed_eq]
  · have := t.header_length
    omega

/-- Settles O43: the tree READ_HEADER stores has the header that was read. -/
theorem headerRoundTrip : Obligations.HeaderRoundTrip := by
  intro s t rest hu hs hn
  obtain ⟨ns, hrun, -, -, hstored⟩ := runReadHeader_ok hu hs hn
  have hread : exec .readHeader s = .next (headerLoaded ns t s).completed := exec_of_ok rfl hrun
  have hwrite := exec_writeHeader (s := (headerLoaded ns t s).completed) rfl ((storedTree_completed _).trans hstored)
  rw [headed_eq, Tree.header_shape] at hwrite
  exact ⟨_, _, hread, hwrite, rfl, rfl, rfl⟩

/-! ### ENCODE (R163 to R166) -/

theorem missing_encode_eq_zero {s : State} (hc : s.codeV = true) : missing .encode s = 0 := (maskIf_eq_zero (by decide)).2 hc

/-- Settles O38: the body and the padding. -/
theorem encodeResult : Obligations.EncodeResult :=
  fun _ hc hl hv => exec_of_ok (missing_encode_eq_zero hc) (runEncode_ok hv hl)

/-- Settles O39: the three ways the second pass differs from the first (R165). -/
theorem encodeErrors : Obligations.EncodeErrors := by
  intro s pre post b hc hv
  have hm := missing_encode_eq_zero hc
  refine ⟨fun hb hl => ?_, fun hb hl => ?_, fun hb hl hno => ?_⟩
  · rw [exec_of_raised hm (runEncode_longer hb hv hl) rfl, encodedFrom, hl, BitVec.ofNat_toNat, BitVec.setWidth_eq]
    rfl
  · subst hb
    exact exec_of_raised hm (runEncode_shorter hv hl) rfl
  · exact exec_of_raised hm (runEncode_noCode hb hv hl hno) rfl

/-! ### COMPRESS (R167, R168) -/

theorem exec_compress {s : State} (hl : s.inBytes.length ≤ 2 ^ 32 - 2) :
    ∃ f ns t, exec .compress s = .next (compressed f ns t s).completed ∧ Compressed s f ns t := by
  obtain ⟨f, ns, t, hrun, hcomp⟩ := runCompress_ok (s := s) hl
  exact ⟨f, ns, t, exec_of_ok rfl hrun, hcomp⟩

section
variable (f : List (Nat × Word)) (ns : List (Nat × Node)) (t : Tree) (s : State)

theorem compressed_freq : (compressed f ns t s).freq = f := congrArg State.freq (compressed_eq f ns t s)

theorem compressed_nodes : (compressed f ns t s).nodes = ns := congrArg State.nodes (compressed_eq f ns t s)

theorem compressed_nodeCount : (compressed f ns t s).nodeCount = BitVec.ofNat 10 (builtCount (counted f (cleared s))) :=
  congrArg State.nodeCount (compressed_eq f ns t s)

theorem compressed_root : (compressed f ns t s).root = BitVec.ofNat 10 (builtCount (counted f (cleared s)) - 1) :=
  congrArg State.root (compressed_eq f ns t s)

theorem codeAt_compressed (k : Nat) : codeAt (compressed f ns t s).completed k = memGet codeDefault (codeTable t) k := rfl

theorem bodyBits_compressed (bytes : List Byte) : bodyBits (compressed f ns t s).completed bytes = treeBody t bytes := rfl

/-- How many nodes COMPRESS allocates, by the counts it leaves (R152, R155). -/
theorem compressed_builtCount :
    builtCount (counted f (cleared s)) =
      if (countedSyms (compressed f ns t s).completed).length = 1 then 3
      else 2 * (countedSyms (compressed f ns t s).completed).length - 1 := by
  have hfreq : (compressed f ns t s).completed.freq = (counted f (cleared s)).freq := compressed_freq f ns t s
  rw [builtCount, buildLeaves_length, countedSyms_congr hfreq]

/-- The fields COMPRESS leaves, with the body written with the codes it leaves (R167, R168). -/
theorem compressed_completed {u : State} (hu : u = (compressed f ns t s).completed) :
    u = State.completed { s with
      freqV := true, treeV := true, codeV := true, hdrV := true, treeSrc := false, freq := f, nodes := ns,
      nodeCount := BitVec.ofNat 10 (builtCount (counted f (cleared s))),
      root := BitVec.ofNat 10 (builtCount (counted f (cleared s)) - 1), codes := codeTable t,
      inCount := BitVec.ofNat 32 s.inBytes.length, encCount := BitVec.ofNat 32 s.inBytes.length,
      decCount := 0, hdrBits := BitVec.ofNat 32 t.header.length,
      outBits := BitVec.ofNat 32 (container s.params.huffTag t (bodyBits u s.inBytes)).length,
      inPos := 8 * s.inBytes.length,
      out := s.out ++ container s.params.huffTag t (bodyBits u s.inBytes) ++
        padTo8 (s.out.length + (container s.params.huffTag t (bodyBits u s.inBytes)).length) } := by
  subst hu
  rw [bodyBits_compressed, compressed_eq]
  rfl

variable {f ns t s}

theorem Compressed.stored (h : Compressed s f ns t) : storedTree (compressed f ns t s).completed = some t :=
  (storedTree_completed _).trans
    ((storedTree_congr (compressed_nodes f ns t s) (compressed_nodeCount f ns t s) (compressed_root f ns t s)).trans h.built.stored)

theorem Compressed.builtFor (h : Compressed s f ns t) : BuiltFor (compressed f ns t s).completed t :=
  builtFor_congr (s := treeBuilt ns (counted f (cleared s))) (compressed_freq f ns t s) h.built.builtFor

theorem Compressed.allocatedAsBuilt (h : Compressed s f ns t) : AllocatedAsBuilt (compressed f ns t s).completed :=
  h.built.allocatedAsBuilt.congr (compressed_freq f ns t s) (compressed_nodes f ns t s)

theorem Compressed.valid (h : Compressed s f ns t) {k : Nat} (hk : k < Config.alphabetSize) (hf : memGet freqDefault f k ≠ 0) :
    (codeAt (compressed f ns t s).completed k).valid = true := by
  obtain ⟨c, -, -, hentry, -⟩ := h.leaf hk hf
  rw [codeAt_compressed, hentry]
  rfl

theorem Compressed.allCoded (h : Compressed s f ns t) (hl : s.inBytes.length ≤ 2 ^ 32 - 2) :
    AllCoded (compressed f ns t s).completed s.inBytes :=
  fun b hb => h.valid (b.isLt.trans (by decide)) (counts_ne_zero h.counts hl hb)

theorem Compressed.eofValid (h : Compressed s f ns t) : (codeAt (compressed f ns t s).completed 256).valid = true :=
  h.valid (by decide) (by rw [show memGet freqDefault f 256 = 1 from h.counts 256]; decide)

end

theorem codeString_length (c : CodeEntry) : (codeString c).length = c.len.toNat := bin_length _ _

/-- The length of a container (R168). -/
theorem container_length (tag : Word) (t : Tree) (s : State) (bytes : List Byte) :
    (container tag t (bodyBits s bytes)).length =
      32 + (11 * t.leaves.length - 1) + (bytes.map fun b => (codeAt s b.toNat).len.toNat).sum + (codeAt s 256).len.toNat := by
  have hheader := t.header_length
  have hbody : (bodyBits s bytes).length =
      (bytes.map fun b => (codeAt s b.toNat).len.toNat).sum + (codeAt s 256).len.toNat := by
    simp only [bodyBits, List.length_append, List.length_flatMap, codeString_length, Config.pseudoEof]
  rw [container, List.length_append, List.length_append, bin_length, hbody]
  omega

/-- Settles O40: the container and the memories of `compressed`, or COUNT's error. -/
theorem compressResult : Obligations.CompressResult := by
  refine fun s => ⟨fun hl => ?_, fun hl => ?_⟩
  · obtain ⟨f, ns, t, hexec, hcomp⟩ := exec_compress hl
    obtain ⟨-, hnodup, -⟩ := hcomp.builtFor
    have hle : builtCount (counted f (cleared s)) ≤ 513 := builtCount_le _
    refine ⟨f, ns, _, _, codeTable t, t, _, hexec, compressed_completed f ns t s rfl,
      fun _ hk => hcomp.counts.toNat_literal hl hk, hcomp.counts 256, ?_, ?_,
      hcomp.allocatedAsBuilt, hcomp.stored, hcomp.builtFor, hcomp.allCoded hl, hcomp.eofValid,
      fun c hc hw => codeTable_mem t hnodup c hc hw, fun k _ hk => codeTable_uncounted hcomp.builtFor hk, hcomp.freqWf,
      codeTable_wf hcomp.stored, container_length _ _ _ _⟩
    · rw [ofNat_toNat_of_lt (by omega), compressed_builtCount f ns t s]
    · rw [ofNat_toNat_of_lt (by omega), ofNat_toNat_of_lt (by omega)]
  · obtain ⟨f, hrun, -⟩ := runCompress_overflow (s := s) hl
    exact ⟨_, exec_of_raised (i := .compress) rfl hrun rfl, rfl, rfl, rfl, rfl, rfl, rfl, rfl, rfl, rfl, rfl, rfl⟩

/-! ### Determinism (R157) -/

/-- BUILD is a function of FREQ: node_count, root and the allocated nodes. -/
theorem build_deterministic {s u t v : State} (hs : s.freqV = true) (hu : u.freqV = true) (hf : s.freq = u.freq)
    (ht : exec .build s = .next t) (hv : exec .build u = .next v) :
    t.nodeCount = v.nodeCount ∧ t.root = v.root ∧ ∀ i : NodeIx, i < t.nodeCount → nodeAt t i = nodeAt v i := by
  obtain ⟨ns, tree, rfl, hbuilt, hne⟩ := exec_build_eq_next hs ht
  obtain ⟨ns1, tree1, rfl, hbuilt1, -⟩ := exec_build_eq_next hu hv
  have hcount : builtCount s = builtCount u := by rw [builtCount, builtCount, buildLeaves_congr hf]
  refine ⟨congrArg (BitVec.ofNat 10) hcount, congrArg (fun n => BitVec.ofNat 10 (n - 1)) hcount, fun i hi => ?_⟩
  have hi : i.toNat < builtCount s := treeBuilt_nodeCount ns s ▸ hi
  exact (hbuilt.same hbuilt1 hf.symm hne i hi).symm

/-- COUNT is a function of the bytes of IN: FREQ and IN_COUNT. -/
theorem count_deterministic {s u t v : State} (hb : s.inBytes = u.inBytes) (hl : s.inBytes.length ≤ 2 ^ 32 - 2)
    (ht : exec .count s = .next t) (hv : exec .count u = .next v) : t.freq = v.freq ∧ t.inCount = v.inCount := by
  obtain ⟨f, hs, hcounts, hwf⟩ := exec_count hl
  obtain ⟨f1, hu, hcounts1, hwf1⟩ := exec_count (s := u) (hb ▸ hl)
  obtain rfl := Host.Outcome.next.inj (ht.symm.trans hs)
  obtain rfl := Host.Outcome.next.inj (hv.symm.trans hu)
  exact ⟨hcounts.unique (hb ▸ hcounts1) hwf hwf1, congrArg (fun bytes : List Byte => BitVec.ofNat 32 bytes.length) hb⟩

/-- COMPRESS is a function of the bytes of IN and the tag: the code table, the tree and the container. -/
theorem compress_deterministic {s u t v : State} (hb : s.inBytes = u.inBytes) (hp : s.params = u.params)
    (hl : s.inBytes.length ≤ 2 ^ 32 - 2) (ht : exec .compress s = .next t) (hv : exec .compress u = .next v) :
    t.codes = v.codes ∧ storedTree t = storedTree v ∧
      ∃ bits, t.out = s.out ++ bits ++ padTo8 (s.out.length + bits.length) ∧
        v.out = u.out ++ bits ++ padTo8 (u.out.length + bits.length) := by
  obtain ⟨f, ns, tree, hs, hcomp⟩ := exec_compress hl
  obtain ⟨f1, ns1, tree1, hu, hcomp1⟩ := exec_compress (s := u) (hb ▸ hl)
  obtain rfl := Host.Outcome.next.inj (ht.symm.trans hs)
  obtain rfl := Host.Outcome.next.inj (hv.symm.trans hu)
  obtain rfl : tree1 = tree := hcomp.sameTree hcomp1 hb.symm
  refine ⟨rfl, hcomp.stored.trans hcomp1.stored.symm, container s.params.huffTag tree1 (treeBody tree1 s.inBytes), ?_, ?_⟩
  · rw [compressed_eq]
    rfl
  · rw [compressed_eq, hb, hp]
    rfl

/-- Settles O34: each of the three commands is a function of what R157 names. -/
theorem buildDeterminism : Obligations.BuildDeterminism :=
  ⟨fun _ _ _ _ => build_deterministic, fun _ _ _ _ => count_deterministic, fun _ _ _ _ => compress_deterministic⟩

end Sys2Proof.Machine
end

section
/-! The decoder's commands (42_decoder R200 to R209): each statement from what the command's run does and the fields its completion
writes (40_control R131). -/

set_option autoImplicit false

namespace Sys2Proof.Machine

/-! ### READ_HEADER (R200 to R202) -/

theorem exec_readHeader {s : State} {t : Tree} {rest : List Bool} (hu : unread s = bin 32 s.params.huffTag ++ (t.header ++ rest))
    (hs : t.symsOk = true) (hn : t.size ≤ 513) :
    ∃ ns, exec .readHeader s = .next (headerLoaded ns t s).completed ∧ PlacedAt ns t 0 ∧
      storedTree (headerLoaded ns t s).completed = some t.shape := by
  obtain ⟨ns, hrun, hplaced, -, hstored⟩ := runReadHeader_ok hu hs hn
  exact ⟨ns, exec_of_ok rfl hrun, hplaced.placedAt, (storedTree_completed _).trans hstored⟩

theorem exec_readHeader_of_raised {s s1 : State} {e : Err} {info : Word} (hr : runReadHeader s = raise e info .readHeader s1)
    (he : e.isExecution = true) : exec .readHeader s = .next (State.failedWith e.code info 0x8 s1.flagless) :=
  exec_of_raised (i := .readHeader) rfl hr he

/-- Settles O41: a whole header is loaded; the two tag errors leave the counters at their start. -/
theorem readHeaderResult : Obligations.ReadHeaderResult := by
  refine fun s => ⟨fun t rest hu hs hn => ?_, fun hu => ?_, fun v rest hu hv => ?_⟩
  · obtain ⟨ns, hexec, hplaced, hstored⟩ := exec_readHeader hu hs hn
    exact ⟨ns, _, hexec, rfl, hplaced, hstored⟩
  · obtain ⟨pos, draws, hno, hlo, hhi⟩ := noData_cases (headerStart s)
    have hrun := runReadHeader_short hu
    rw [hno] at hrun
    exact ⟨pos, draws, exec_readHeader_of_raised hrun rfl, hlo, hhi⟩
  · exact exec_readHeader_of_raised (runReadHeader_tag hu hv) rfl

/-- READ_HEADER completes with an error in a tree header only where a scan of the header stops (R201). -/
theorem stopsAt_of_exec_readHeader {s u : State} (hu : exec .readHeader s = .next u) (herr : u.err = true)
    (hcode : u.errCode ≠ 1) :
    ∃ items tail, unread s = bin 32 s.params.huffTag ++ (itemBits items ++ tail) ∧ unfinished 1 items = true ∧
      items.all HeaderItem.legal = true ∧ items.length ≤ 513 ∧ StopsAt items.length tail := by
  obtain ⟨t, rest, hbits, hs, hn⟩ | ⟨e, info, s1, hrun, he, -, rfl | hstop⟩ := runReadHeader_cases s
  · obtain ⟨ns, hexec, -, -⟩ := exec_readHeader hbits hs hn
    obtain rfl := Host.Outcome.next.inj (hu.symm.trans hexec)
    cases herr
  · obtain rfl := Host.Outcome.next.inj (hu.symm.trans (exec_readHeader_of_raised hrun he))
    exact absurd rfl hcode
  · exact hstop

/-- Settles O42: one stop of the scan for each of R201's errors, and no error without a stop. -/
theorem readHeaderErrors : Obligations.ReadHeaderErrors := by
  refine ⟨?_, fun s u => stopsAt_of_exec_readHeader⟩
  rintro s items tail h hu rfl hopen hlegal hle
  refine ⟨fun ht => ?_, fun hfull ht => ?_, fun rest hroom ht hshort => ?_, fun v rest hroom ht hv => ?_⟩
  · obtain ⟨ns, s1, rfl, hrun, -⟩ := runReadHeader_noKind hu hopen hlegal hle ht
    exact ⟨ns, exec_readHeader_of_raised hrun rfl⟩
  · obtain ⟨ns, s1, rfl, hrun, -⟩ := runReadHeader_noRoom hu hopen hlegal hfull ht
    rw [hfull] at hrun
    exact ⟨ns, exec_readHeader_of_raised hrun rfl⟩
  · subst ht
    obtain ⟨ns, s1, rfl, hin, hrun, -⟩ := runReadHeader_noSymbol hu hopen hlegal hroom hshort
    obtain ⟨pos, draws, hno, hlo, hhi⟩ := noData_cases (headerAt ns (BitVec.ofNat 10 (items.length + 1))
      (BitVec.ofNat 32 ((itemBits items).length + 1)) (s.inPos + 32 + (itemBits items).length + 1) s)
    rw [hno] at hrun
    exact ⟨ns, pos, draws, exec_readHeader_of_raised hrun rfl, hlo, hhi hin⟩
  · subst ht
    obtain ⟨ns, s1, rfl, hrun, -⟩ := runReadHeader_badSymbol hu hopen hlegal hroom hv
    exact ⟨ns, exec_readHeader_of_raised hrun rfl⟩

/-! ### DECODE_BODY (R204 to R206) -/

theorem missing_decodeBody_eq_zero {s : State} (ht : s.treeV = true) : missing .decodeBody s = 0 :=
  (maskIf_eq_zero (by decide)).2 ht

theorem exec_decodeBody_of_raised {s s1 : State} {info : Word} (ht : s.treeV = true)
    (hr : runDecodeBody s = raise .truncatedStream info .decodeBody s1) :
    exec .decodeBody s = .next (State.failedWith 2 info 0x9 s1.flagless) :=
  exec_of_raised (missing_decodeBody_eq_zero ht) hr rfl

theorem literals_bits_length (cs : List LeafCode) : ((literals cs).flatMap (bin 8)).length = 8 * cs.length := by
  rw [flatMap_bin8_length, literals, List.length_map]

theorem decodedFrom_eq (cs : List LeafCode) (s : State) :
    decodedFrom cs s =
      { s with
        out      := s.out ++ (literals cs).flatMap (bin 8)
        outBits  := s.outBits + BitVec.ofNat 32 (8 * cs.length)
        decCount := BitVec.ofNat 32 cs.length
        inPos    := s.inPos + (pathBits cs).length } := by
  rw [decodedFrom, outGrown, literals_bits_length]

/-- The end of a body: past the EOF code, with the last byte of OUT filled up (R78, R204). -/
theorem outFlush_decodedFrom (p : Nat) (cs : List LeafCode) (s : State) :
    outFlush (inMove p (decodedFrom cs s)) =
      { s with
        out      := s.out ++ (literals cs).flatMap (bin 8) ++ padTo8 (s.out.length + 8 * cs.length)
        outBits  := s.outBits + BitVec.ofNat 32 (8 * cs.length)
        decCount := BitVec.ofNat 32 cs.length
        inPos    := p } := by
  rw [decodedFrom_eq, ← literals_bits_length, ← List.length_append]
  rfl

theorem sym_eq_eof_iff {v : Sym} : v.toNat = Config.pseudoEof ↔ v = 256 := by
  rw [← BitVec.toNat_inj]
  rfl

/-- Settles O44: the loop over the literals' codes, then the EOF code or the end of IN. -/
theorem decodeBodyResult : Obligations.DecodeBodyResult := by
  refine fun s t cs ht hstored hfork hcs => ⟨fun e rest he heof hu => ?_, fun rest hu hno => ?_⟩
  · have hrun := runDecodeBody_ok hstored hfork hcs he (sym_eq_eof_iff.2 heof) hu
    rw [outFlush_decodedFrom] at hrun
    exact exec_of_ok (missing_decodeBody_eq_zero ht) hrun
  · have hrun := runDecodeBody_truncated hstored hfork hcs hu hno
    rw [decodedFrom_eq] at hrun
    exact exec_decodeBody_of_raised ht hrun

/-- DECODE_BODY with no bit left in IN (R204). -/
theorem runDecodeBody_empty {s : State} (hu : unread s = []) :
    runDecodeBody s = raise .truncatedStream 0 .decodeBody (decodeStart s) := by
  rw [runDecodeBody, ← unread_length, hu, List.length_nil, decodeLoop, bit_noData (s := decodeStart s) hu]
  rfl

/-- On a root-leaf tree every symbol is decoded from one bit (R206). -/
theorem decodedFrom_rootLeaf (n : Nat) (sym : Sym) (w : Word) (s : State) :
    decodedFrom (List.replicate n ⟨sym, w, [false]⟩) s =
      { s with
        out      := s.out ++ (List.replicate n (BitVec.setWidth 8 sym)).flatMap (bin 8)
        outBits  := s.outBits + BitVec.ofNat 32 (8 * n)
        decCount := BitVec.ofNat 32 n
        inPos    := s.inPos + n } := by
  have hpath : (pathBits (List.replicate n ⟨sym, w, [false]⟩)).length = n := by simp [pathBits]
  have hlit : literals (List.replicate n ⟨sym, w, [false]⟩) = List.replicate n (BitVec.setWidth 8 sym) := List.map_replicate
  rw [decodedFrom_eq, hpath, hlit, List.length_replicate]

/-- Settles O45: the first bit of an EOF leaf ends the body; a literal leaf takes every bit of IN. -/
theorem decodeBodyRootLeaf : Obligations.DecodeBodyRootLeaf := by
  refine fun s sym w ht hstored => ⟨fun heof hne => ?_, fun _ hu => ?_, fun hlit => ?_⟩
  · obtain ⟨b, rest, hu⟩ := List.exists_cons_of_ne_nil hne
    exact exec_of_ok (missing_decodeBody_eq_zero ht) (runDecodeBody_rootEof hstored (sym_eq_eof_iff.2 heof) hu)
  · exact exec_decodeBody_of_raised ht (runDecodeBody_empty hu)
  · have hrun := runDecodeBody_rootLiteral hstored (mt sym_eq_eof_iff.1 hlit)
    rw [decodedFrom_rootLeaf] at hrun
    exact exec_decodeBody_of_raised ht hrun

/-! ### DECOMPRESS (R207) -/

/-- The leaf in the tree a header rebuilds, which carries no weights (R202). -/
def LeafCode.unweighted (c : LeafCode) : LeafCode := { c with weight := 0 }

theorem AllLiteral.shape {t : Tree} {cs : List LeafCode} (h : AllLiteral t cs) : AllLiteral t.shape (cs.map LeafCode.unweighted) := by
  intro d hd
  obtain ⟨c, hc, rfl⟩ := List.mem_map.1 hd
  obtain ⟨hmem, hlit⟩ := h c hc
  exact ⟨mem_codes_shape hmem, hlit⟩

theorem pathBits_unweighted (cs : List LeafCode) : pathBits (cs.map LeafCode.unweighted) = pathBits cs := List.flatMap_map _ _ _

theorem decodedFrom_unweighted (cs : List LeafCode) (s : State) : decodedFrom (cs.map LeafCode.unweighted) s = decodedFrom cs s := by
  have hlit : literals (cs.map LeafCode.unweighted) = literals cs := List.map_map
  rw [decodedFrom_eq, decodedFrom_eq, hlit, pathBits_unweighted, List.length_map]

/-- The fields CLEAR and then READ_HEADER leave on a whole header (R136, R200). -/
theorem headerLoaded_cleared (ns : List (Nat × Node)) (t : Tree) (s : State) :
    headerLoaded ns t (cleared s) =
      { s with
        freqV := false, treeV := true, codeV := false, hdrV := true, treeSrc := true, nodes := ns,
        nodeCount := BitVec.ofNat 10 t.size, root := 0, inCount := 0, encCount := 0, decCount := 0, outBits := 0,
        hdrBits := BitVec.ofNat 32 t.header.length, inPos := s.inPos + 32 + t.header.length } := by
  cases s
  rfl

/-- The fields DECOMPRESS leaves once `cs` is decoded up to the EOF code, which ends at position `p` (R207). -/
theorem outFlush_decodedFrom_headerLoaded (p : Nat) (cs : List LeafCode) (ns : List (Nat × Node)) (t : Tree) (s : State) :
    outFlush (inMove p (decodedFrom cs (headerLoaded ns t (cleared s)))) =
      { s with
        freqV := false, treeV := true, codeV := false, hdrV := true, treeSrc := true, nodes := ns,
        nodeCount := BitVec.ofNat 10 t.size, root := 0, inCount := 0, encCount := 0, decCount := BitVec.ofNat 32 cs.length,
        hdrBits := BitVec.ofNat 32 t.header.length, outBits := BitVec.ofNat 32 (8 * cs.length), inPos := p,
        out := s.out ++ (literals cs).flatMap (bin 8) ++ padTo8 (s.out.length + 8 * cs.length) } := by
  rw [outFlush_decodedFrom, headerLoaded_cleared, show (0 : Word) + _ = _ from BitVec.zero_add _]

/-- DECOMPRESS of a container, whatever follows its EOF code (R207). -/
theorem runDecompress_ok {s : State} {t : Tree} {cs : List LeafCode} {e : LeafCode} {rest : List Bool} (hs : t.symsOk = true)
    (hn : t.size ≤ 513) (hfork : t.isFork = true) (hcs : AllLiteral t cs) (he : e ∈ t.codes) (heof : e.sym = 256)
    (hu : unread s = container s.params.huffTag t (pathBits cs ++ (e.path ++ rest))) :
    ∃ ns, PlacedAt ns t 0 ∧ runDecompress s =
      .ok () (outFlush (inMove (s.inPos + 32 + t.header.length + (pathBits cs).length + e.path.length)
        (decodedFrom cs (headerLoaded ns t (cleared s))))) := by
  obtain ⟨ns, hrun, hstored, hbody, hplaced, -⟩ := runDecompress_header hu hs hn
  rw [← pathBits_unweighted] at hbody
  have hdecode := runDecodeBody_ok hstored (t.isFork_shape.trans hfork) hcs.shape (mem_codes_shape he) (sym_eq_eof_iff.2 heof) hbody
  rw [decodedFrom_unweighted, pathBits_unweighted] at hdecode
  exact ⟨ns, hplaced.placedAt, hrun.trans hdecode⟩

/-- An error of READ_HEADER after CLEAR is DECOMPRESS's (R115, R207). -/
theorem runDecompress_of_raised {s s1 : State} {e : Err} {info : Word} {step : Nibble}
    (h : runReadHeader (cleared s) = .raised e info step s1) : runDecompress s = .raised e info step s1 := by
  rw [runDecompress, runClear]
  simp only [Res.andThen, h]

/-- READ_HEADER runs after another command's completion as it does within DECOMPRESS, but for the protocol fields (R115). -/
theorem runReadHeader_completed (s : State) :
    runReadHeader s.completed = (runReadHeader s).mapState (·.withProtocolOf s.completed) := runReadHeader_protocol s.completed s

/-- When READ_HEADER after CLEAR ends with an error, DECOMPRESS ends with the same one (R207). -/
theorem exec_decompress_of_readHeader_error {s u v : State} (hc : exec .clear s = .next u) (hr : exec .readHeader u = .next v)
    (herr : v.err = true) : exec .decompress s = .next v ∧ v.errStep = 0x8 := by
  obtain rfl : (cleared s).completed = u := Host.Outcome.next.inj ((exec_of_ok (i := .clear) rfl rfl).symm.trans hc)
  obtain ⟨t, rest, hbits, hs, hn⟩ | ⟨e, info, s1, hrun, he, ⟨ns, c, h, p, d, rfl, -⟩, -⟩ := runReadHeader_cases (cleared s)
  · obtain ⟨ns, hexec, -, -⟩ := exec_readHeader (s := (cleared s).completed) hbits hs hn
    obtain rfl := Host.Outcome.next.inj (hr.symm.trans hexec)
    cases herr
  · have hrun1 := runReadHeader_completed (cleared s)
    rw [hrun] at hrun1
    obtain rfl := Host.Outcome.next.inj (hr.symm.trans (exec_readHeader_of_raised hrun1 he))
    have hexec := exec_of_raised (i := .decompress) rfl (runDecompress_of_raised hrun) he
    exact ⟨hexec, rfl⟩

/-- Settles O46: the components' runs one after the other, or READ_HEADER's error. -/
theorem decompressResult : Obligations.DecompressResult := by
  refine fun s => ⟨fun t cs e rest hs hn hfork hcs he heof hu => ?_, fun u v hc hr herr => ?_⟩
  · obtain ⟨ns, hplaced, hrun⟩ := runDecompress_ok hs hn hfork hcs he heof hu
    rw [outFlush_decodedFrom_headerLoaded] at hrun
    exact ⟨ns, exec_of_ok (i := .decompress) rfl hrun, hplaced⟩
  · obtain ⟨hexec, hstep⟩ := exec_decompress_of_readHeader_error hc hr herr
    refine ⟨?_, hstep⟩
    rw [hexec, ← hstep]

/-! ### COMPRESS, then DECOMPRESS (R208, R209) -/

theorem unread_of_start {s : State} (hp : s.inPos = 0) : unread s = s.inBytes.flatMap (bin 8) := by
  rw [unread, hp, List.drop_zero, inBits_eq_flatMap]

/-- What COMPRESS writes to an empty OUT (R104, R167): a container and its padding, a whole number of bytes. -/
theorem compressed_out {f : List (Nat × Word)} {ns : List (Nat × Node)} {t : Tree} {s : State} (hout : s.out = []) :
    ∃ pad, (compressed f ns t s).completed.out = container s.params.huffTag t (treeBody t s.inBytes) ++ pad ∧
      (container s.params.huffTag t (treeBody t s.inBytes) ++ pad).length % 8 = 0 := by
  refine ⟨padding (container s.params.huffTag t (treeBody t s.inBytes)).length, ?_, ?_⟩
  · refine (congrArg State.out (compressed_eq f ns t s)).trans ?_
    simp [hout]
  · rw [List.length_append]
    exact padding_length _

/-- Settles O55: IN holds the container's bits again, each code leads back to its byte, and whole bytes need no padding. -/
theorem roundTrip : Obligations.RoundTrip := by
  intro s hl hout
  obtain ⟨f, ns, t, hexec, hcomp⟩ := exec_compress hl
  obtain ⟨pad, hbits, hbytes⟩ := compressed_out (f := f) (ns := ns) (t := t) hout
  refine ⟨_, hexec, rfl, fun u hparams hin hpos hempty => ?_⟩
  have hu : unread u = container s.params.huffTag t (treeBody t s.inBytes) ++ pad := by
    rw [unread_of_start hpos, hin, hbits, flatMap_bin_outBytes hbytes]
  obtain ⟨ns1, cs, hrun, hlit, hlen⟩ := runDecompress_compressed hcomp hl (congrArg Params.huffTag hparams) hu
  have hv : u.out ++ s.inBytes.flatMap (bin 8) ++ padTo8 (u.out.length + 8 * s.inBytes.length) = s.inBytes.flatMap (bin 8) := by
    simp [hempty, padTo8]
  rw [outFlush_decodedFrom_headerLoaded, hlit, hlen, hv] at hrun
  exact ⟨_, exec_of_ok (i := .decompress) rfl hrun, rfl, outBytes_flatMap_bin s.inBytes, flatMap_bin8_length s.inBytes, rfl⟩

/-- The first `m` bytes of a stream of whole bytes hold its first `8·m` bits. -/
theorem flatMap_bin_take_outBytes {bits : List Bool} (h : bits.length % 8 = 0) (m : Nat) :
    ((outBytes bits).take m).flatMap (bin 8) = bits.take (8 * m) := by
  have hp : ((outBytes bits).take m).flatMap (bin 8) <+: bits := by
    conv_rhs => rw [← flatMap_bin_outBytes h]
    exact (List.take_prefix m _).flatMap _
  rw [List.prefix_iff_eq_take.1 hp, flatMap_bin8_length, List.length_take, outBytes_length, List.take_eq_take_iff]
  omega

/-- Settles O56: IN holds the first bits of the container and not all of them. -/
theorem truncation : Obligations.Truncation := by
  intro s hl hout
  obtain ⟨f, ns, t, hexec, hcomp⟩ := exec_compress hl
  obtain ⟨pad, hbits, hbytes⟩ := compressed_out (f := f) (ns := ns) (t := t) hout
  refine ⟨_, t, hexec, rfl, hcomp.stored, fun m u hparams hin hpos hm hcut => ?_⟩
  rw [bodyBits_compressed] at hcut
  have hu : unread u = (container s.params.huffTag t (treeBody t s.inBytes)).take (8 * m) := by
    rw [unread_of_start hpos, hin, hbits, flatMap_bin_take_outBytes hbytes, List.take_append_of_le_length hcut.le]
  have hlen : (unread u).length = 8 * m := by rw [hu, List.length_take_of_le hcut.le]
  obtain ⟨info, step, s2, hrun, -⟩ := runDecompress_cut hcomp hl (congrArg Params.huffTag hparams)
    (hu ▸ List.take_prefix _ _) (by omega) (by omega)
  exact ⟨_, exec_of_raised (i := .decompress) rfl hrun rfl, rfl, rfl⟩

end Sys2Proof.Machine
end

section
/-! The errors of a completion (60_exceptions R230, R233, R235), over all commands: a SEQUENCE error before the command's run, or the
execution-time error that the run raised. -/

set_option autoImplicit false

namespace Sys2Proof.Machine

/-- A completion with ERR = 1 is a SEQUENCE error, or an execution-time error by its row of R230 at the end of a framed run. -/
theorem exec_error_cases {i : Instr} {s t : State} (ht : exec i s = .next t) (herr : t.err = true) :
    (missing i s ≠ 0 ∧ t = State.failedWith 9 (missing i s) (opcode i) s) ∨
    ∃ e info step s1, Framed s s1 ∧ ErrorRow e info step s1 ∧ t = State.failedWith e.code info step s1.flagless := by
  obtain ⟨hm, hs⟩ | ⟨-, s1, -, hs⟩ | ⟨hm, e, info, step, s1, hb, hrow, hs⟩ | ⟨-, f, -, hs⟩ := exec_cases i s <;> rw [hs] at ht
  · exact .inl ⟨hm, (Host.Outcome.next.inj ht).symm⟩
  · obtain rfl := Host.Outcome.next.inj ht
    cases herr
  · have hf := framed_bodyOf i hm
    rw [hb] at hf
    exact .inr ⟨e, info, step, s1, hf, hrow, (Host.Outcome.next.inj ht).symm⟩
  · cases ht

/-- Settles O48: the row of SEQUENCE, or the row by which the run raised its error. -/
theorem errorTable : Obligations.ErrorTable := by
  intro i s t ht herr
  obtain ⟨hm, rfl⟩ | ⟨e, info, step, s1, hf, hrow, rfl⟩ := exec_error_cases ht herr
  · iterate 7 apply Or.inr
    exact ⟨rfl, rfl, rfl, hm⟩
  · cases e with
    | malformedHeader =>
      obtain ⟨hstep, hinfo⟩ := hrow
      rw [hf.params] at hinfo
      exact .inl ⟨rfl, hstep, hinfo⟩
    | truncatedStream => exact .inr (.inl ⟨rfl, hrow⟩)
    | badSymbol => exact .inr (.inr (.inl ⟨rfl, hrow⟩))
    | treeOverflow => exact .inr (.inr (.inr (.inl ⟨rfl, hrow⟩)))
    | lengthOverflow => exact .inr (.inr (.inr (.inr (.inl ⟨rfl, hrow⟩))))
    | noCode => exact .inr (.inr (.inr (.inr (.inr (.inl ⟨rfl, hrow⟩)))))
    | sourceMismatch => exact .inr (.inr (.inr (.inr (.inr (.inr (.inl ⟨rfl, hrow⟩))))))
    | illegalCmd | sequenceErr => exact hrow.elim

/-- The execution-time errors are the codes 1 to 7 (R230). -/
theorem Err.code_of_isExecution {e : Err} (h : e.isExecution = true) : e.code.toNat ∈ [1, 2, 3, 4, 5, 6, 7] := by
  cases e
  case illegalCmd | sequenceErr => cases h
  all_goals decide

/-- Settles O49: the completion fields over an unchanged state for SEQUENCE, over dropped flags for every other error. -/
theorem errorEffects : Obligations.ErrorEffects := by
  intro i s t ht herr
  obtain ⟨-, rfl⟩ | ⟨e, info, step, s1, -, hrow, rfl⟩ := exec_error_cases ht herr
  · exact ⟨fun hcode => absurd rfl hcode, fun _ => rfl⟩
  · exact ⟨fun _ => ⟨Err.code_of_isExecution hrow.isExecution, rfl, rfl, rfl, rfl, rfl⟩,
      fun hcode => absurd hcode hrow.code_ne_sequence⟩

end Sys2Proof.Machine
end

section
/-! Reset (70_reset R270 to R273): the state after it, and what it leaves of the streams when it cuts off a command. -/

set_option autoImplicit false

namespace Sys2Proof.Machine

/-! ### The state after reset (R271) -/

theorem resetMove_reset : resetMove State.reset = State.reset := rfl

/-- Settles O52: the state after reset is what a reset of it leaves, and reset leaves the invariant. -/
theorem resetInv : Obligations.ResetInv := by
  have h : Inv (resetMove State.reset) := inv_resetMove (Nat.zero_le _)
  rwa [resetMove_reset] at h

theorem regValue_reset {r : Reg} (h : r ≠ .tag) : regValue State.reset r = 0 := by
  cases r
  case tag => exact absurd rfl h
  all_goals rfl

/-- Settles O22: a read that reads no register reads 0; after reset so does every register but TAG, and TAG's offset is 0x10. -/
theorem resetValues : Obligations.ResetValues := by
  refine ⟨rfl, rfl, rfl, rfl, fun addr => ?_⟩
  split
  next h =>
    subst h
    exact memRead_idle (r := .tag) rfl
  next h =>
    obtain h0 | ⟨r, rfl, -⟩ := memRead_cases addr 4 State.reset
    · exact h0
    · have hr : r ≠ .tag := by
        rintro rfl
        exact h rfl
      rw [memRead_idle rfl, regValue_reset hr]

/-! ### The streams a reset cuts off (R272) -/

/-- The block's move only appends to OUT (R77). -/
theorem blockMove_out_prefix {s t : State} (ht : blockMove s = .next t) : s.out <+: t.out := by
  by_cases hp : s.pending = none
  · obtain rfl := Host.Outcome.next.inj ((blockMove_idle hp).symm.trans ht)
    exact List.prefix_rfl
  · obtain ⟨s1, hf, h⟩ := blockMove_retired hp ht
    rw [(h.kept {}).out rfl]
    exact hf.out

theorem outAfter_of_blockMove {s t : State} (ht : blockMove s = .next t) : outAfter s = t.out := by
  simp only [outAfter, ht]

theorem out_prefix_outAfter (s : State) : s.out <+: outAfter s := by
  cases h : blockMove s with
  | next t => exact outAfter_of_blockMove h ▸ blockMove_out_prefix h
  | fault f => simp only [outAfter, h, List.prefix_rfl]
  | refused r => simp only [outAfter, h, List.prefix_rfl]

theorem cutStreams_out_prefix (s : State) : (cutStreams s).out <+: outAfter s := List.take_prefix _ _

/-- OUT and its cut both begin what the command would have left, and the cut is no shorter than OUT. -/
theorem out_prefix_cutStreams (s : State) : s.out <+: (cutStreams s).out := by
  have hout : s.out <+: outAfter s := out_prefix_outAfter s
  refine List.prefix_of_prefix_length_le hout (cutStreams_out_prefix s) ?_
  have hlen : s.out.length ≤ (outAfter s).length := hout.length_le
  simp only [cutStreams, List.length_take]
  omega

theorem cutStreams_inPos_le (s : State) : (cutStreams s).inPos ≤ 8 * s.inBytes.length := freeUpTo_le _ _

/-! ### Reset at any moment (R270, R273) -/

theorem resetMove_idle {s : State} (h : s.busy = false) : resetMove s = resetBlock s := by simp [resetMove, h]

theorem resetMove_busy {s : State} (h : s.busy = true) : resetMove s = resetBlock (cutStreams s) := by simp [resetMove, h]

/-- Settles O23: an idle block keeps the streams; a running command's are cut within the bounds of R272. -/
theorem step_resetMove : Obligations.ResetMove := by
  intro s hr
  rw [step_reset hr]
  cases hb : s.busy with
  | false =>
    rw [resetMove_idle (s := { s with schedule := s.schedule.tail }) hb]
    exact ⟨s.out, s.inPos, s.draws, rfl, fun _ => ⟨rfl, rfl⟩, nofun⟩
  | true =>
    have hout := out_prefix_cutStreams { s with schedule := s.schedule.tail }
    rw [resetMove_busy (s := { s with schedule := s.schedule.tail }) hb]
    refine ⟨_, _, _, rfl, nofun, fun _ => ⟨cutStreams_inPos_le _, hout, fun t ht => ?_⟩⟩
    exact outAfter_of_blockMove ht ▸ cutStreams_out_prefix _

end Sys2Proof.Machine
end
